-- ==== Sys2Proof/Word.lean ====
section
/-! DEFINITION. The word types of RFX-CORE (spec/00_scope.md R7, R10; spec/20_memory.md R60). -/

namespace Sys2Proof

/-- `uint8`: a pixel, one byte of host storage, one byte of the coded stream (R7, R34, R37). -/
abbrev Byte := BitVec 8

/-- `int16`: one 16-bit storage cell, a coefficient (R7, R9, R35). -/
abbrev HalfWord := BitVec 16

/-- `uint32`: a register, a command word, the value of a host access (R7, R90). -/
abbrev Word := BitVec 32

/-- A host address: 17 address bits (R60). -/
abbrev Address := BitVec 17

end Sys2Proof
end

