-- ==== Sys2Proof/Config.lean ====
section
/-! DEFINITION. What an implementation fixes (spec/00_scope.md R6) and the free values of the model.

The parameters are a record that State carries (log entry 1), so that a statement over every state is a statement
over every parameter value. The constants at the end have no body: nothing can be proved about their values. -/

namespace Sys2Proof

/-- `QUANT_ROUNDING` (R6, R161). -/
inductive Rounding where
  | floor
  | halfUp
  deriving DecidableEq, Repr

/-- `CAP_LEVEL`: the vector kernel level present (R6, R26). The value 3 is never read, so it has no constructor. -/
inductive CapLevel where
  | scalar
  | level2
  | level41
  deriving DecidableEq, Repr, Inhabited

/-- A profile record of the RLGR coder (R182). -/
structure Profile where
  k0 : Nat
  kr0 : Nat
  lsgr : Nat
  kpmax : Nat
  upGr : Nat
  dnGr : Nat
  uqGr : Nat
  dqGr : Nat
  deriving DecidableEq, Repr

/-- The parameters a model of RFX-CORE takes as arguments (R6). -/
structure Params where
  dwtScale : Nat
  quantRounding : Rounding
  rlgr1Profile : Profile
  rlgr3Profile : Profile
  outBytes : Nat
  capLevel : CapLevel
  deriving DecidableEq, Repr

/-- `CAP_LEVEL` of the instance that `State.reset` describes: the spec gives no default (R6, D26). Log entry 2. -/
opaque Config.capLevel : CapLevel

/-- How many host operations come before the engine performs the command whose latching made the n-th draw: the time is
unspecified, finite, and may differ between commands (R95, R261, I24). Log entry 5. -/
opaque Config.engineDelay : Nat → Nat

/-- What element `i` of SCRATCH holds after the DWT command that makes the n-th draw: unspecified (R36, I15).
Log entry 6. -/
opaque Config.freeScratch : Nat → Nat → HalfWord

end Sys2Proof
end

