-- ==== Sys2Proof/Syntax.lean ====
section
/-! DEFINITION. The commands of RFX-CORE: one constructor per row of spec/opcode_table.json (spec/30_encoding.md
R92). -/

namespace Sys2Proof

/-- A legal command (R92). The only operand a command word carries is DIFF's subband field (R93). -/
inductive Instr where
  | dwtStd
  | dwtRe
  | quant
  | diff (sb : Nat)
  | rlgr1
  | rlgr3
  deriving DecidableEq, Repr

end Sys2Proof
end

