-- ==== Sys2Proof/WellFormed.lean ====
section
/-! DEFINITION. The checks on commands (spec/30_encoding.md R91, R97) and on parameter records (spec/00_scope.md R6,
spec/42_rlgr.md R182). -/

namespace Sys2Proof

/-- A command fits its word: `diff #q` is accepted for q in 0..15 (R97), the values of the 4-bit field SB (R91). -/
def Instr.wellFormed (i : Instr) : Bool :=
  match i with
  | .dwtStd => true
  | .dwtRe => true
  | .quant => true
  | .diff sb => decide (sb < 16)
  | .rlgr1 => true
  | .rlgr3 => true

/-- A legal profile record (R182). -/
def Profile.legal (p : Profile) : Bool :=
  decide (p.lsgr ≤ 8) && decide (p.k0 <<< p.lsgr ≤ p.kpmax) && decide (p.kr0 <<< p.lsgr ≤ p.kpmax) &&
    decide (p.kpmax >>> p.lsgr ≤ 15) && decide (p.upGr ≤ p.kpmax) && decide (p.dnGr ≤ p.kpmax) &&
    decide (p.uqGr ≤ p.kpmax) && decide (p.dqGr ≤ p.kpmax)

/-- Legal values of the parameters (R6). -/
def Params.legal (p : Params) : Bool :=
  decide (1 ≤ p.dwtScale) && decide (p.dwtScale ≤ 256) && p.rlgr1Profile.legal && p.rlgr3Profile.legal &&
    decide (1 ≤ p.outBytes) && decide (p.outBytes ≤ 65536)

end Sys2Proof
end

