-- ==== Sys2Proof/Decode.lean ====
section
/-! DEFINITION. Decoding and encoding of command words (spec/30_encoding.md R90 to R94, R97). -/

namespace Sys2Proof

/-- Why a command word is illegal (R94). -/
inductive DecodeError where
  /-- OP = 0x00 or OP in 0x07..0xFF. -/
  | reservedOpcode
  /-- w[31:12] is not 0. -/
  | reservedBits
  /-- w[11:8] is not 0 and OP is not 0x04. -/
  | subbandBits
  deriving DecidableEq, Repr

/-- What the decoder reads from a word. -/
inductive Decoded where
  | command (i : Instr)
  | illegal (why : DecodeError)
  deriving DecidableEq, Repr

/-- OP = w[7:0] (R91). -/
def opField (w : Word) : BitVec 8 := w.extractLsb' 0 8

/-- SB = w[11:8] (R91). -/
def sbField (w : Word) : BitVec 4 := w.extractLsb' 8 4

/-- RSV = w[31:12] (R91). -/
def rsvField (w : Word) : BitVec 20 := w.extractLsb' 12 20

/-- The opcode map's rows without an operand (R92). -/
def plainCommand (op : BitVec 8) : Option Instr :=
  if op = 0x01#8 then some .dwtStd
  else if op = 0x02#8 then some .dwtRe
  else if op = 0x03#8 then some .quant
  else if op = 0x05#8 then some .rlgr1
  else if op = 0x06#8 then some .rlgr3
  else none

/-- The decoder, total on 32-bit words (R90 to R94); SB is zero-extended (R93). -/
def decode (w : Word) : Decoded :=
  if rsvField w ≠ 0#20 then .illegal .reservedBits
  else if opField w = 0x04#8 then .command (.diff (sbField w).toNat)
  else
    match plainCommand (opField w) with
    | none => .illegal .reservedOpcode
    | some i => if sbField w ≠ 0#4 then .illegal .subbandBits else .command i

/-- R94's own list of conditions, word for word, beside the decoder. -/
def illegalWord (w : Word) : Bool :=
  decide (opField w = 0x00#8) || decide (0x07#8 ≤ opField w) || decide (rsvField w ≠ 0#20) ||
    (decide (opField w ≠ 0x04#8) && decide (sbField w ≠ 0#4))

/-- The word a command assembles to (R97). -/
def encode (i : Instr) : Word :=
  match i with
  | .dwtStd => 0x00000001#32
  | .dwtRe => 0x00000002#32
  | .quant => 0x00000003#32
  | .diff sb => 0x00000004#32 ||| (BitVec.ofNat 32 sb <<< 8)
  | .rlgr1 => 0x00000005#32
  | .rlgr3 => 0x00000006#32

/-- A row of the opcode table: a word w belongs to it when `w AND mask = match` (spec/95_test_vectors.md L2.6). -/
structure OpcodeRow where
  pattern : Word
  mask : Word
  deriving DecidableEq, Repr

/-- The row of spec/opcode_table.json a command stands for. -/
def opcodeRow (i : Instr) : OpcodeRow :=
  match i with
  | .dwtStd => ⟨0x00000001#32, 0xFFFFFFFF#32⟩
  | .dwtRe => ⟨0x00000002#32, 0xFFFFFFFF#32⟩
  | .quant => ⟨0x00000003#32, 0xFFFFFFFF#32⟩
  | .diff _ => ⟨0x00000004#32, 0xFFFFF0FF#32⟩
  | .rlgr1 => ⟨0x00000005#32, 0xFFFFFFFF#32⟩
  | .rlgr3 => ⟨0x00000006#32, 0xFFFFFFFF#32⟩

/-- The six rows of spec/opcode_table.json, in its order. -/
def opcodeTable : List OpcodeRow :=
  [opcodeRow .dwtStd, opcodeRow .dwtRe, opcodeRow .quant, opcodeRow (.diff 0), opcodeRow .rlgr1, opcodeRow .rlgr3]

/-- Whether a word belongs to a row. -/
def OpcodeRow.covers (r : OpcodeRow) (w : Word) : Bool := decide (w &&& r.mask = r.pattern)

/-- The instruction the decoder reads from the word whose low `nbits` bits are those of `w`; a command word is one
32-bit word (R90), so the bits above `nbits` are 0. -/
def decodeTableWord (nbits w : Nat) : Option Instr :=
  match decode (BitVec.ofNat 32 (w % 2 ^ nbits)) with
  | .command i => some i
  | .illegal _ => none

end Sys2Proof
end

