-- ==== Sys2Proof/Machine/Layout.lean ====
section
/-! DEFINITION. The ten subbands: layout in COEF (spec/40_dwt.md R130) and quant index order (R131), and the host
address map (spec/20_memory.md R61). -/

namespace Sys2Proof.Machine

/-- The subbands, in quant index order (R131). -/
inductive Subband where
  | ll3 | lh3 | hl3 | hh3 | lh2 | hl2 | hh2 | lh1 | hl1 | hh1
  deriving DecidableEq, Repr

/-- The quant index q of a subband (R131). -/
def quantIndex (b : Subband) : Fin 10 :=
  match b with
  | .ll3 => 0 | .lh3 => 1 | .hl3 => 2 | .hh3 => 3 | .lh2 => 4
  | .hl2 => 5 | .hh2 => 6 | .lh1 => 7 | .hl1 => 8 | .hh1 => 9

/-- The subband a quant index names; 10 and above name none (R93, R131). -/
def subbandOfIndex (q : Nat) : Option Subband :=
  match q with
  | 0 => some .ll3 | 1 => some .lh3 | 2 => some .hl3 | 3 => some .hh3 | 4 => some .lh2
  | 5 => some .hl2 | 6 => some .hh2 | 7 => some .lh1 | 8 => some .hl1 | 9 => some .hh1
  | _ => none

/-- Width of a subband, its row stride (R130). -/
def bandWidth (b : Subband) : Nat :=
  match b with
  | .ll3 => 9 | .lh3 => 9 | .hl3 => 8 | .hh3 => 8 | .lh2 => 17
  | .hl2 => 16 | .hh2 => 16 | .lh1 => 33 | .hl1 => 31 | .hh1 => 31

/-- Height of a subband (R130). -/
def bandHeight (b : Subband) : Nat :=
  match b with
  | .ll3 => 9 | .lh3 => 8 | .hl3 => 9 | .hh3 => 8 | .lh2 => 16
  | .hl2 => 17 | .hh2 => 16 | .lh1 => 31 | .hl1 => 33 | .hh1 => 31

/-- Number of elements of a subband (R130). -/
def bandSize (b : Subband) : Nat := bandWidth b * bandHeight b

/-- Index in COEF of a subband's first element (R130, R131). -/
def bandOffset (b : Subband) : Nat :=
  match b with
  | .ll3 => 4015 | .lh3 => 3879 | .hl3 => 3807 | .hh3 => 3951 | .lh2 => 3279
  | .hl2 => 3007 | .hh2 => 3551 | .lh1 => 1023 | .hl1 => 0 | .hh1 => 2046

/-- The subband that holds COEF[i], read off the contiguous slots of R130. -/
def bandContaining (i : Nat) : Subband :=
  if i < 1023 then .hl1
  else if i < 2046 then .lh1
  else if i < 3007 then .hh1
  else if i < 3279 then .hl2
  else if i < 3551 then .lh2
  else if i < 3807 then .hh2
  else if i < 3879 then .hl3
  else if i < 3951 then .lh3
  else if i < 4015 then .hh3
  else .ll3

/-- PIX[0] (R61). -/
def pixBase : Nat := 0x01000

/-- COEF[0] (R61). -/
def coefBase : Nat := 0x02000

/-- OUT[0] (R61). -/
def outBase : Nat := 0x10000

/-- The host address of PIX[i] (R68). -/
def pixAddr (i : Nat) : Nat := pixBase + i

/-- The host address of the low byte of COEF[i] (R69). -/
def coefAddr (i : Nat) : Nat := coefBase + 2 * i

/-- The host address of OUT[j] (R70). -/
def outAddr (j : Nat) : Nat := outBase + j

/-- An address of the register window (R61). -/
def inRegisterWindow (x : Nat) : Bool := decide (x < 0x01000)

/-- An address of the PIX, COEF or OUT window, for an OUT of `outBytes` bytes (R61). -/
def inStorage (outBytes x : Nat) : Bool :=
  (decide (pixBase ≤ x) && decide (x < 0x04000)) || (decide (outBase ≤ x) && decide (x < outBase + outBytes))

/-- A mapped address (R61, R62). -/
def isMapped (outBytes x : Nat) : Bool := inRegisterWindow x || inStorage outBytes x

end Sys2Proof.Machine
end

