-- ==== Sys2Proof/Machine/Numeric.lean ====
section
/-! DEFINITION. Storage widths, byte order and bit strings (spec/00_scope.md R7 to R10, spec/20_memory.md R63,
spec/42_rlgr.md R188 to R190). -/

namespace Sys2Proof.Machine

/-- `wrap16` (R9): the int16 cell an exact integer is stored as. -/
def wrap16 (v : Int) : HalfWord := BitVec.ofInt 16 v

/-- The two bytes of a coefficient, low byte first (R63, R69). -/
def halfBytes (h : HalfWord) : List Byte := [h.extractLsb' 0 8, h.extractLsb' 8 8]

/-- The bytes of a run of coefficients (R69). -/
def halvesToBytes : List HalfWord → List Byte
  | [] => []
  | h :: rest => h.extractLsb' 0 8 :: h.extractLsb' 8 8 :: halvesToBytes rest

/-- The coefficients a run of bytes holds, low byte first (R63, R64). -/
def bytesToHalves : List Byte → List HalfWord
  | lo :: hi :: rest => (hi ++ lo) :: bytesToHalves rest
  | _ => []

/-- The low `n` bytes of a bus value, least significant first (R63, R65). -/
def wordToBytes (n : Nat) (v : Word) : List Byte := (List.range n).map fun i => v.extractLsb' (8 * i) 8

/-- The zero-extended bus value of a run of at most four bytes, least significant first (R63, R64). -/
def bytesToWord : List Byte → Word
  | [] => 0#32
  | b :: rest => b.setWidth 32 ||| (bytesToWord rest <<< 8)

/-- The low `n` bits of `v`, most significant first: what `emit(n, v)` appends (R189). -/
def emitBits : Nat → Nat → List Bool
  | 0, _ => []
  | n + 1, v => v.testBit n :: emitBits n v

/-- `min_bits` (R188): the number of bits in the binary form. -/
def minBits (v : Nat) : Nat := if v = 0 then 0 else Nat.log2 v + 1

/-- One byte of packed output: the first bit is the most significant one (R190). -/
def packByte (b7 b6 b5 b4 b3 b2 b1 b0 : Bool) : Byte :=
  BitVec.ofBool b7 ++ BitVec.ofBool b6 ++ BitVec.ofBool b5 ++ BitVec.ofBool b4 ++ BitVec.ofBool b3 ++
    BitVec.ofBool b2 ++ BitVec.ofBool b1 ++ BitVec.ofBool b0

/-- Packing (R190): eight bits a byte, first bit in bit 7, the last byte filled with 0 bits. -/
def packBits : List Bool → List Byte
  | [] => []
  | a :: b :: c :: d :: e :: f :: g :: h :: rest => packByte a b c d e f g h :: packBits rest
  | bits =>
    let bit := fun i => bits.getD i false
    [packByte (bit 0) (bit 1) (bit 2) (bit 3) (bit 4) (bit 5) (bit 6) (bit 7)]

end Sys2Proof.Machine
end

