-- ==== Sys2Proof/Machine/Defaults.lean ====
section
/-! DEFINITION. The spec's default parameter values (spec/00_scope.md R6, spec/42_rlgr.md R183), and what SCRATCH holds at
reset. -/

namespace Sys2Proof.Machine

/-- The default record of both profiles (R183; the spec marks the values "from general knowledge, not in source").
UNVERIFIED: log entry 1. -/
def defaultProfile : Profile :=
  { k0 := 1, kr0 := 1, lsgr := 3, kpmax := 80, upGr := 4, dnGr := 6, uqGr := 3, dqGr := 3 }

/-- What SCRATCH holds at reset: unspecified and unobservable (R36, R43). DESIGN CHOICE: zeros, log entry 6. -/
@[irreducible] def resetScratch : List HalfWord := List.replicate 4096 0#16

/-- The defaults of R6; CAP_LEVEL has none and is the free constant of Config. Log entries 1 and 2. -/
def defaultParams : Params :=
  { dwtScale := 32
    quantRounding := .floor
    rlgr1Profile := defaultProfile
    rlgr3Profile := defaultProfile
    outBytes := 65536
    capLevel := Config.capLevel }

end Sys2Proof.Machine
end

