-- ==== Sys2Proof/Machine/HostOp.lean ====
section
/-! DEFINITION. The operations of the host agent (spec/30_encoding.md R98; spec/70_reset_and_hazards.md R250). -/

namespace Sys2Proof.Machine

/-- The access widths n in 1, 2, 4 of R64 and R65. -/
inductive Width where
  | w8
  | w16
  | w32
  deriving DecidableEq, Repr

/-- One operation of a host program, its labels already resolved to positions (R98). -/
inductive HostOp where
  /-- `w8/w16/w32 A, V`: MemWrite(A, n, V). -/
  | write (w : Width) (a : Address) (v : Word)
  /-- `r8/r16/r32 A -> t`: t <- MemRead(A, n). -/
  | read (w : Width) (a : Address) (t : Nat)
  /-- `bnz t & M, label`: go to the label's position if (t AND M) is not 0. -/
  | bnz (t : Nat) (m : Word) (target : Nat)
  /-- The reset input is asserted (R250). It is no operation of R98: the environment asserts it, and a host program is
  where this model says when. Log entry 10. -/
  | assertReset
  deriving DecidableEq, Repr

end Sys2Proof.Machine
end

