-- ==== Sys2Proof/Machine/State.lean ====
section
/-! DEFINITION. The state of RFX-CORE (spec/10_state.md), its host agent, the reasons a step can stop, and the state
after reset (spec/10_state.md R43). -/

namespace Sys2Proof.Machine

/-- The result code of a completed command, STATUS.ERR (R24, R220). The codes 4 to 15 are never produced. -/
inductive ErrCode where
  | ok
  | capacityExceeded
  | invalidParameter
  | illegalCommand
  deriving DecidableEq, Repr

/-- The terminal outcomes of R227. Each is safe: the model stops where the block would return some value or do
something no source gives. -/
inductive Fault where
  /-- Case 1: a host access that touches a byte of an unmapped range (R62). Raised by hostRead and hostWrite. Safe. -/
  | unmappedAddress
  /-- Case 2: a host access at an address that is no multiple of its width (R67). Raised by hostRead and hostWrite.
  Safe. -/
  | misalignedAccess
  /-- Case 2: a 1-byte or 2-byte access to the register window (R66). Raised by hostRead and hostWrite. Safe. -/
  | forbiddenWidth
  /-- Case 3: a host access other than a read of STATUS while STATUS.BUSY = 1 (R76). Raised by hostRead and hostWrite.
  Safe. -/
  | accessWhileBusy
  /-- Case 4: a read of a PIX, COEF or OUT element whose written mark is clear, by the host or by a command (R42).
  Raised by hostRead, DWT.STD, DWT.RE, QUANT, DIFF, RLGR1 and RLGR3. Safe. -/
  | unwrittenRead
  /-- A host `bnz` on a host variable no read has assigned: R98 gives such a variable no value. Raised by the host agent,
  never by a command. Safe. Log entry 11. -/
  | unassignedHostVariable
  deriving DecidableEq, Repr

/-- Why an instruction has no meaning. -/
inductive Refusal where
  /-- The instruction is not modelled yet. No arm of exec raises it. Safe. -/
  | notModelled (mnemonic : String)
  deriving DecidableEq, Repr

/-- The host agent (R14, R98, R104): its program, its position in it, and its variables in one canonical form
(numbers strictly rising). -/
structure HostAgent where
  program : List HostOp
  pos : Nat
  vars : List (Nat × Word)
  deriving DecidableEq, Repr

/-- The machine: the block's registers and storage, its parameters, the host agent, and the count of free values
drawn. Storage is one list of (host address, byte) pairs, addresses strictly rising: a byte is listed exactly when its
written mark is set (R42, R61). Log entry 3. -/
structure State where
  /-- The parameters (R6), fixed for the life of the instance (R251). -/
  params : Params
  /-- The latched command word PEND (R23, R38). -/
  pend : Word
  /-- STATUS.BUSY (R24): PEND holds a command not yet performed (R38). -/
  busy : Bool
  /-- STATUS.ERR (R24). -/
  err : ErrCode
  /-- STATUS.LASTOP (R24). -/
  lastOp : Byte
  /-- RESULT (R27). -/
  result : Word
  /-- OUTCAP (R28). -/
  outcap : Word
  /-- RSTART (R29). -/
  rstart : Word
  /-- RCOUNT (R30). -/
  rcount : Word
  /-- The field SHIFT of QSHIFT0..QSHIFT9 (R31). -/
  qshift : Vector Byte 10
  /-- PIX, COEF and OUT by host address, with their marks (R34, R35, R37, R42, R61). -/
  mem : List Host.Cell
  /-- SCRATCH (R36). -/
  scratch : List HalfWord
  /-- The model's own: how many free values have been drawn, one by each command latched and one by each DWT command
  performed. Log entry 7. -/
  oracle : Nat
  /-- The model's own: how many operations the host has made since the command was latched. Log entry 5. -/
  waited : Nat
  /-- The host agent (R14). -/
  host : HostAgent
  deriving DecidableEq, Repr

/-- The state after reset of the instance with parameters `p` (R43, R250, R251, R252). SCRATCH is unspecified there;
the zeros are a DESIGN CHOICE (log entry 6). -/
def State.resetWith (p : Params) : State where
  params := p
  pend := 0#32
  busy := false
  err := .ok
  lastOp := 0#8
  result := 0#32
  outcap := 0#32
  rstart := 0#32
  rcount := 0#32
  qshift := Vector.replicate 10 0#8
  mem := []
  scratch := resetScratch
  oracle := 0
  waited := 0
  host := { program := [], pos := 0, vars := [] }

/-- The machine right after reset, with the spec's default parameters (R6, R43). -/
def State.reset : State := State.resetWith defaultParams

end Sys2Proof.Machine
end

