-- ==== Sys2Proof/Machine/Ops.lean ====
section
/-! DEFINITION. The named operations over storage and registers (spec/00_scope.md R11; spec/10_state.md), and ending a
command with a result code (R95, R224), which is all this block has in place of taking an exception (R230, R231). -/

namespace Sys2Proof.Machine

/-! ### Association lists with rising keys -/

/-- The value listed at a key. -/
def lookup {β : Type} : List (Nat × β) → Nat → Option β
  | [], _ => none
  | (k, v) :: rest, a => if k = a then some v else lookup rest a

/-- The pairs that list `vs` at the keys from `a` upward. -/
def cellsAt {β : Type} : Nat → List β → List (Nat × β)
  | _, [] => []
  | a, v :: vs => (a, v) :: cellsAt (a + 1) vs

/-- The values at keys `a .. a + n - 1` when all are listed, in one pass over a list with rising keys. -/
def readRun {β : Type} (m : List (Nat × β)) (a n : Nat) : Option (List β) :=
  if ((m.dropWhile fun c => decide (c.1 < a)).take n).map (·.1) == List.range' a n then
    some (((m.dropWhile fun c => decide (c.1 < a)).take n).map (·.2))
  else none

/-- The list with keys `a .. a + n - 1` no longer listed. -/
def eraseRun {β : Type} (m : List (Nat × β)) (a n : Nat) : List (Nat × β) :=
  m.filter fun c => decide (c.1 < a) || decide (a + n ≤ c.1)

/-- The list with `vs` at the keys from `a` upward, every other key as before, keys still rising. -/
def writeRun {β : Type} (m : List (Nat × β)) (a : Nat) (vs : List β) : List (Nat × β) :=
  (m.filter fun c => decide (c.1 < a)) ++ cellsAt a vs ++ (m.filter fun c => decide (a + vs.length ≤ c.1))

/-- The canonical form of storage and of the host's variables: keys strictly rising. An unlisted byte has its written
mark clear and reads as no value at all (R42), so no listed entry equals what an unlisted address reads as. -/
abbrev Memory.wf {β : Type} (m : List (Nat × β)) : Prop := m.Pairwise fun c d => c.1 < d.1

/-! ### Storage elements (R11, R34, R35, R37) -/

/-- PIX[i], when its mark is set. -/
def pixAt (s : State) (i : Nat) : Option Byte := lookup s.mem (pixAddr i)

/-- COEF[i], when the marks of both its bytes are set (R42, C13). -/
def coefAt (s : State) (i : Nat) : Option HalfWord :=
  match lookup s.mem (coefAddr i), lookup s.mem (coefAddr i + 1) with
  | some lo, some hi => some (hi ++ lo)
  | _, _ => none

/-- OUT[j], when its mark is set. -/
def outAt (s : State) (j : Nat) : Option Byte := lookup s.mem (outAddr j)

/-- All of PIX, when every mark is set. -/
def readPix (s : State) : Option (List Byte) := readRun s.mem pixBase 4096

/-- COEF[start .. start + count - 1], when every mark is set. -/
def readCoefs (s : State) (start count : Nat) : Option (List HalfWord) :=
  (readRun s.mem (coefAddr start) (2 * count)).map bytesToHalves

/-- Store coefficients from COEF[start] upward and set their marks (R42). -/
def writeCoefs (s : State) (start : Nat) (vs : List HalfWord) : State :=
  { s with mem := writeRun s.mem (coefAddr start) (halvesToBytes vs) }

/-- OUT[0 .. n - 1] unspecified: its marks are cleared (R42, R197). -/
def clearOut (s : State) (n : Nat) : State := { s with mem := eraseRun s.mem outBase n }

/-- Store bytes from OUT[0] upward and set their marks (R42). -/
def writeOut (s : State) (bytes : List Byte) : State := { s with mem := writeRun s.mem outBase bytes }

/-! ### The command latch and the end of a command -/

/-- Draw one free value: the next draw is another one. Log entry 7. -/
def draw (s : State) : State := { s with oracle := s.oracle + 1 }

/-- Latch a command word (R23): PEND, BUSY and LASTOP. The model draws this command's own delay, whatever became of the
command before it (R261), and its count of waiting starts again. Log entries 5 and 7. -/
def latch (s : State) (w : Word) : State :=
  draw { s with pend := w, busy := true, lastOp := w.extractLsb' 0 8, waited := 0 }

/-- End the current command with a result code (R95): ERR and BUSY. With an error code this is `raise E` (R11), which
writes nothing else but what R224 names. -/
def complete (s : State) (e : ErrCode) : State := { s with err := e, busy := false }

/-- The unspecified content of SCRATCH at the n-th draw: a free value in each of its 4096 elements (R36, I15). -/
@[irreducible] def unspecifiedScratch (n : Nat) : List HalfWord := (List.range 4096).map (Config.freeScratch n)

/-- SCRATCH is unspecified after a DWT command (R36, R137). Log entry 6. -/
def scrambleScratch (s : State) : State := draw { s with scratch := unspecifiedScratch s.oracle }

/-! ### Reset (R250, R251) -/

/-- The reset input: a pending command is abandoned and the block's state takes the values of R43. The parameters stay,
and the host agent and the count of draws are not the block's state; the next command latched draws a delay of its own.
Log entries 7 and 10. -/
def assertReset (s : State) : State := { State.resetWith s.params with host := s.host, oracle := s.oracle }

end Sys2Proof.Machine
end

