-- ==== Sys2Proof/Machine/Operands.lean ====
section
/-! DEFINITION. The operand forms of the commands (spec/30_encoding.md R93, R96) and their checks (spec/60_exceptions.md
R222). -/

namespace Sys2Proof.Machine

/-- QSHIFTq.SHIFT of the subband with quant index q (R31). -/
def shiftOf (s : State) (b : Subband) : Nat := s.qshift[quantIndex b].toNat

/-- QUANT's operand check (R162): all ten shifts are at most 15. -/
def shiftsLegal (s : State) : Bool := s.qshift.toList.all fun b => decide (b.toNat ≤ 15)

/-- RLGR's operand check (R200), on exact sums: the range lies in COEF, holds an element, and OUTCAP fits OUT. -/
def rangeLegal (s : State) : Bool :=
  !(decide (s.rcount.toNat = 0) || decide (4096 < s.rstart.toNat + s.rcount.toNat) ||
    decide (s.params.outBytes < s.outcap.toNat))

/-- The input of an RLGR command: COEF[RSTART .. RSTART + RCOUNT - 1] (R186). -/
def rlgrInput (s : State) : Option (List HalfWord) := readCoefs s s.rstart.toNat s.rcount.toNat

end Sys2Proof.Machine
end

