-- ==== Sys2Proof/Machine/Dwt.lean ====
section
/-! DEFINITION. The DWT engine (spec/40_dwt.md): the 1D transforms of both variants, the 2D level, the three levels, and
the commands DWT.STD and DWT.RE. -/

namespace Sys2Proof.Machine

/-- The transform variants (R120). -/
inductive Variant where
  | std
  | re
  deriving DecidableEq, Repr

/-- The high-pass value of R122 from x[2n], x[2n+1], x[2n+2]. -/
def highPass (x : Nat → Int) (n : Nat) : Int := (x (2 * n + 1) - ((x (2 * n) + x (2 * n + 2)) >>> 1)) >>> 1

/-- The low-pass value of R122; L[0] has no predecessor. -/
def lowPass (x h : Nat → Int) (n : Nat) : Int :=
  if n = 0 then x 0 + h 0 else x (2 * n) + ((h (n - 1) + h n) >>> 1)

/-- The materialised extension xa[0 .. M+1] of R123: for even N one extrapolated sample, then two mirrored ones. The
virtual samples are exact integers. -/
def stdExtension (xs : List Int) : List Int :=
  let n := xs.length
  let base := if n % 2 = 0 then xs ++ [2 * xs.getD (n - 1) 0 - xs.getD (n - 2) 0] else xs
  let m := base.length
  base ++ [base.getD (m - 2) 0, base.getD (m - 3) 0]

/-- The standard variant `T_std` (R123): the low-pass and the high-pass outputs of one 1D pass. -/
def tStd (samples : List HalfWord) : List HalfWord × List HalfWord :=
  let n := samples.length
  let xa := stdExtension (samples.map BitVec.toInt)
  let x := fun i => xa.getD i 0
  let m := (xa.length - 3) / 2
  let h := highPass x
  let hc := if n % 2 = 0 then m - 1 else m
  ((List.range (m + 1)).map fun i => wrap16 (lowPass x h i), (List.range hc).map fun i => wrap16 (h i))

/-- The reduce-extrapolate variant `T_re` (R124), for odd and for even N. -/
def tRe (samples : List HalfWord) : List HalfWord × List HalfWord :=
  let n := samples.length
  let xs := samples.map BitVec.toInt
  let x := fun i => xs.getD i 0
  let m := n / 2
  let h := highPass x
  if n % 2 = 1 then
    ((List.range m).map (fun i => wrap16 (lowPass x h i)) ++ [wrap16 (x (n - 1) + h (m - 1))],
      (List.range m).map fun i => wrap16 (h i))
  else
    ((List.range (m - 1)).map (fun i => wrap16 (lowPass x h i)) ++
        [wrap16 (x (n - 2) + (h (m - 2) >>> 1)), wrap16 (2 * x (n - 1) - x (n - 2))],
      (List.range (m - 1)).map fun i => wrap16 (h i))

/-- The 1D transform of a variant. -/
def transform (t : Variant) (samples : List HalfWord) : List HalfWord × List HalfWord :=
  match t with
  | .std => tStd samples
  | .re => tRe samples

/-- Number of low-pass outputs lc of a pass over n samples (R125). -/
def lowCount (n : Nat) : Nat := n / 2 + 1

/-- Column c of a list of rows. -/
def column (rows : List (List HalfWord)) (c : Nat) : List HalfWord := rows.map fun row => row.getD c 0#16

/-- The first n columns of a list of rows. -/
def columns (n : Nat) (rows : List (List HalfWord)) : List (List HalfWord) := (List.range n).map (column rows)

/-- The vertical pass (R128): SCRATCH as n rows of n, the low band's rows above the high band's. -/
def verticalPass (t : Variant) (n : Nat) (a : List (List HalfWord)) : List (List HalfWord) :=
  columns n ((columns n a).map fun x => (transform t x).1 ++ (transform t x).2)

/-- The four subbands of a level, as rows (R129). -/
structure Bands where
  ll : List (List HalfWord)
  hl : List (List HalfWord)
  lh : List (List HalfWord)
  hh : List (List HalfWord)
  deriving DecidableEq, Repr

/-- The horizontal pass (R129): the rows below lc give LL and HL, the others LH and HH. -/
def horizontalPass (t : Variant) (n : Nat) (scratch : List (List HalfWord)) : Bands :=
  let out := scratch.map (transform t)
  let low := out.take (lowCount n)
  let high := out.drop (lowCount n)
  { ll := low.map (·.1), hl := low.map (·.2), lh := high.map (·.1), hh := high.map (·.2) }

/-- One level: a vertical pass, then a horizontal pass (R120). -/
def dwtLevel (t : Variant) (n : Nat) (a : List (List HalfWord)) : Bands := horizontalPass t n (verticalPass t n a)

/-- The level-1 input A1 as 64 rows of 64 (R121). -/
def levelOneInput (scale : Nat) (pix : List Byte) : List (List HalfWord) :=
  (List.range 64).map fun r => ((pix.drop (r * 64)).take 64).map fun p => wrap16 (((p.toNat : Int) - 128) * scale)

/-- COEF after a DWT command (R130, R132): the ten subbands in slot order, each row-major. Each level works on the LL
output of the one before it. Where LL1 and LL2 stand meanwhile cannot be observed (D34). -/
def dwtCoefs (t : Variant) (scale : Nat) (pix : List Byte) : List HalfWord :=
  let b1 := dwtLevel t 64 (levelOneInput scale pix)
  let b2 := dwtLevel t 33 b1.ll
  let b3 := dwtLevel t 17 b2.ll
  b1.hl.flatten ++ b1.lh.flatten ++ b1.hh.flatten ++ b2.hl.flatten ++ b2.lh.flatten ++ b2.hh.flatten ++
    b3.hl.flatten ++ b3.lh.flatten ++ b3.hh.flatten ++ b3.ll.flatten

/-- A DWT command (R133, R134, R137): it reads all of PIX, writes all of COEF, and leaves SCRATCH unspecified. The
datapath CAP.LEVEL names (R40) stores the same values (R135), so the meaning does not depend on it. -/
def runDwt (t : Variant) (s : State) : Host.Outcome State Fault Refusal :=
  match readPix s with
  | none => .fault .unwrittenRead
  | some pix => .next (complete (scrambleScratch (writeCoefs s 0 (dwtCoefs t s.params.dwtScale pix))) .ok)

/-- DWT.STD (R133). -/
def execDwtStd (s : State) : Host.Outcome State Fault Refusal := runDwt .std s

/-- DWT.RE (R134). -/
def execDwtRe (s : State) : Host.Outcome State Fault Refusal := runDwt .re s

end Sys2Proof.Machine
end

