-- ==== Sys2Proof/Machine/QuantDiff.lean ====
section
/-! DEFINITION. The quantizer and the differential encoder (spec/41_quant_diff.md): QUANT and DIFF. -/

namespace Sys2Proof.Machine

/-- `quantize(v, s)` (R161). -/
def quantize (r : Rounding) (v : HalfWord) (shift : Nat) : HalfWord :=
  match r with
  | .floor => wrap16 (v.toInt >>> shift)
  | .halfUp => if shift = 0 then v else wrap16 ((v.toInt + 2 ^ (shift - 1)) >>> shift)

/-- All 4096 coefficients quantized, each by the shift of the subband that holds it (R160). The ten regions are disjoint
and cover COEF, so the order of the spec's loop over q cannot be observed. -/
def quantizeAll (s : State) (coefs : List HalfWord) : List HalfWord :=
  coefs.zipIdx.map fun p => quantize s.params.quantRounding p.1 (shiftOf s (bandContaining p.2))

/-- QUANT (R160): the operand check comes before any coefficient is read (R162, R225). -/
def execQuant (s : State) : Host.Outcome State Fault Refusal :=
  if shiftsLegal s then
    match readCoefs s 0 4096 with
    | none => .fault .unwrittenRead
    | some coefs => .next (complete (writeCoefs s 0 (quantizeAll s coefs)) .ok)
  else .next (complete s .invalidParameter)

/-- The differences of a scan (R164, R165): the first value absolute, every other against the previous original value,
stored as wrap16. -/
def differences : List HalfWord → List HalfWord
  | [] => []
  | v :: rest => v :: List.zipWith (fun cur prev => wrap16 (cur.toInt - prev.toInt)) rest (v :: rest)

/-- DIFF (R164): SB 10 and above names no subband (R167). -/
def execDiff (sb : Nat) (s : State) : Host.Outcome State Fault Refusal :=
  match subbandOfIndex sb with
  | none => .next (complete s .invalidParameter)
  | some b =>
    match readCoefs s (bandOffset b) (bandSize b) with
    | none => .fault .unwrittenRead
    | some old => .next (complete (writeCoefs s (bandOffset b) (differences old)) .ok)

end Sys2Proof.Machine
end

