-- ==== Sys2Proof/Machine/Rlgr.lean ====
section
/-! DEFINITION. The RLGR entropy coder (spec/42_rlgr.md): RLGR1 and RLGR3. The spec marks the algorithm of R185 and R187
to R195 "from general knowledge, not in source" (I7). -/

namespace Sys2Proof.Machine

/-- The coder variants: they differ in GR mode and in their profile (R181). -/
inductive RlgrMode where
  | one
  | three
  deriving DecidableEq, Repr

/-- The adaptive state kp and krp (R39, R184); k and kr are read from it. It exists only during a command. -/
structure Adaptive where
  kp : Nat
  krp : Nat
  deriving DecidableEq, Repr

/-- k = kp >> LSGR (R185). -/
def runParam (p : Profile) (kp : Nat) : Nat := kp >>> p.lsgr

/-- kr = krp >> LSGR (R184, R185). -/
def riceParam (p : Profile) (krp : Nat) : Nat := krp >>> p.lsgr

/-- The state at the start of every RLGR command (R184). -/
def adaptiveStart (p : Profile) : Adaptive := { kp := p.k0 <<< p.lsgr, krp := p.kr0 <<< p.lsgr }

/-- `upd(p, d)` (R185): the change clamped to 0..KPMAX. -/
def upd (p : Profile) (x : Nat) (d : Int) : Nat := min p.kpmax ((x : Int) + d).toNat

/-- `two_ms` (R187). -/
def twoMs (v : HalfWord) : Nat := if 0 ≤ v.toInt then (2 * v.toInt).toNat else (-2 * v.toInt - 1).toNat

/-- The bits of `code_gr(val)` (R191): the unary part, a 0, the remainder. -/
def codeGrBits (p : Profile) (krp val : Nat) : List Bool :=
  List.replicate (val >>> riceParam p krp) true ++ [false] ++
    emitBits (riceParam p krp) (val % 2 ^ riceParam p krp)

/-- krp after `code_gr(val)` (R191): a unary part of 1 leaves it unchanged. -/
def codeGrUpdate (p : Profile) (krp val : Nat) : Nat :=
  let vk := val >>> riceParam p krp
  if vk = 0 then upd p krp (-2) else if 1 < vk then upd p krp vk else krp

/-- What one pass of the loop gives: the bits it emits, the state after it, and the input it leaves (R192). -/
structure Pass where
  bits : List Bool
  adapt : Adaptive
  rest : List HalfWord
  deriving DecidableEq, Repr

/-- `next()` (R186): past the end it returns 0. -/
def nextValue (xs : List HalfWord) : HalfWord × List HalfWord :=
  match xs with
  | [] => (0#16, [])
  | v :: rest => (v, rest)

/-- The zero run of run mode (R193): the number of zeros counted, the value that ends the run, the input left. The last
element ends the run even when it is 0 (R198). -/
def zeroRun : List HalfWord → Nat × HalfWord × List HalfWord
  | [] => (0, 0#16, [])
  | v :: rest =>
    if v = 0#16 ∧ rest ≠ [] then
      let r := zeroRun rest
      (r.1 + 1, r.2.1, r.2.2)
    else (0, v, rest)

/-- The full runs of run mode (R193): one 0 bit for each 2^k zeros, k growing with kp. It gives the bits, the zeros left
and kp. Each full run takes at least one zero, so `nz` passes are enough. -/
def fullRuns (p : Profile) : Nat → Nat → Nat → List Bool × Nat × Nat
  | 0, nz, kp => ([], nz, kp)
  | fuel + 1, nz, kp =>
    if 2 ^ runParam p kp ≤ nz then
      let r := fullRuns p fuel (nz - 2 ^ runParam p kp) (upd p kp p.upGr)
      (false :: r.1, r.2.1, r.2.2)
    else ([], nz, kp)

/-- Run mode (R193). -/
def runMode (p : Profile) (st : Adaptive) (xs : List HalfWord) : Pass :=
  let run := zeroRun xs
  let full := fullRuns p run.1 run.1 st.kp
  let v := run.2.1.toInt
  let val := v.natAbs - 1
  { bits := full.1 ++ [true] ++ emitBits (runParam p full.2.2) full.2.1 ++ [decide (v < 0)] ++
      codeGrBits p st.krp val
    adapt := { kp := upd p full.2.2 (-(p.dnGr : Int)), krp := codeGrUpdate p st.krp val }
    rest := run.2.2 }

/-- GR mode of RLGR1 (R194): one value. -/
def grModeOne (p : Profile) (st : Adaptive) (xs : List HalfWord) : Pass :=
  let t := twoMs (nextValue xs).1
  { bits := codeGrBits p st.krp t
    adapt :=
      { kp := if t = 0 then upd p st.kp p.uqGr else upd p st.kp (-(p.dqGr : Int))
        krp := codeGrUpdate p st.krp t }
    rest := (nextValue xs).2 }

/-- GR mode of RLGR3 (R195): two values, the second possibly past the end. -/
def grModeThree (p : Profile) (st : Adaptive) (xs : List HalfWord) : Pass :=
  let t1 := twoMs (nextValue xs).1
  let t2 := twoMs (nextValue (nextValue xs).2).1
  let sum := t1 + t2
  { bits := codeGrBits p st.krp sum ++ emitBits (minBits sum) t1
    adapt :=
      { kp :=
          if t1 ≠ 0 ∧ t2 ≠ 0 then upd p st.kp (-2 * (p.dqGr : Int))
          else if t1 = 0 ∧ t2 = 0 then upd p st.kp (2 * (p.uqGr : Int))
          else st.kp
        krp := codeGrUpdate p st.krp sum }
    rest := (nextValue (nextValue xs).2).2 }

/-- One pass of the loop (R192). -/
def onePass (m : RlgrMode) (p : Profile) (st : Adaptive) (xs : List HalfWord) : Pass :=
  if runParam p st.kp ≠ 0 then runMode p st xs
  else
    match m with
    | .one => grModeOne p st xs
    | .three => grModeThree p st xs

/-- The loop (R192). Every pass reads at least one element, so as many passes as elements are enough. -/
def encodeLoop (m : RlgrMode) (p : Profile) : Nat → Adaptive → List HalfWord → List Bool
  | 0, _, _ => []
  | _ + 1, _, [] => []
  | fuel + 1, st, x :: xs =>
    let pass := onePass m p st (x :: xs)
    pass.bits ++ encodeLoop m p fuel pass.adapt pass.rest

/-- The bit string B of an input (R184, R192). -/
def rlgrEncode (m : RlgrMode) (p : Profile) (xs : List HalfWord) : List Bool :=
  encodeLoop m p xs.length (adaptiveStart p) xs

/-- The outcome of an encode (R196, R197): all or nothing, decided on the stream's length in bytes. -/
def storeStream (s : State) (stream : List Byte) : State :=
  if s.outcap.toNat < stream.length then
    complete { clearOut s s.outcap.toNat with result := 0#32 } .capacityExceeded
  else
    complete { writeOut (clearOut s s.outcap.toNat) stream with result := BitVec.ofNat 32 stream.length } .ok

/-- An RLGR command (R180, R181): the operand check comes before any read of COEF (R200, R225). -/
def runRlgr (m : RlgrMode) (p : Profile) (s : State) : Host.Outcome State Fault Refusal :=
  if rangeLegal s then
    match rlgrInput s with
    | none => .fault .unwrittenRead
    | some xs => .next (storeStream s (packBits (rlgrEncode m p xs)))
  else .next (complete { s with result := 0#32 } .invalidParameter)

/-- RLGR1 (R180). -/
def execRlgr1 (s : State) : Host.Outcome State Fault Refusal := runRlgr .one s.params.rlgr1Profile s

/-- RLGR3 (R181). -/
def execRlgr3 (s : State) : Host.Outcome State Fault Refusal := runRlgr .three s.params.rlgr3Profile s

end Sys2Proof.Machine
end

