-- ==== Sys2Proof/Machine/Dispatch.lean ====
section
/-! DEFINITION. The command dispatch of spec/30_encoding.md R95: one arm per command. -/

namespace Sys2Proof.Machine

def exec (i : Instr) (s : State) : Host.Outcome State Fault Refusal :=
  match i with
  | .dwtStd => Sys2Proof.Machine.execDwtStd s
  | .dwtRe => Sys2Proof.Machine.execDwtRe s
  | .quant => Sys2Proof.Machine.execQuant s
  | .diff sb => Sys2Proof.Machine.execDiff sb s
  | .rlgr1 => Sys2Proof.Machine.execRlgr1 s
  | .rlgr3 => Sys2Proof.Machine.execRlgr3 s

end Sys2Proof.Machine
end

