-- ==== Sys2Proof/Machine/Flags.lean ====
section
/-! DEFINITION. The status word and the capability word (spec/10_state.md R24, R26; spec/60_exceptions.md R220). The
block has no other condition code or flag (R22). -/

namespace Sys2Proof.Machine

/-- The 4-bit result code (R220). -/
def errCode (e : ErrCode) : BitVec 4 :=
  match e with
  | .ok => 0#4
  | .capacityExceeded => 1#4
  | .invalidParameter => 2#4
  | .illegalCommand => 3#4

/-- STATUS as it is read (R24): BUSY in bit 0, ERR in 7:4, LASTOP in 15:8, the rest 0. -/
def statusWord (s : State) : Word := 0#16 ++ s.lastOp ++ errCode s.err ++ 0#3 ++ BitVec.ofBool s.busy

/-- The field CAP.LEVEL (R26). -/
def capCode (c : CapLevel) : BitVec 2 :=
  match c with
  | .scalar => 0#2
  | .level2 => 1#2
  | .level41 => 2#2

/-- CAP as it is read (R26). -/
def capWord (s : State) : Word := 0#30 ++ capCode s.params.capLevel

end Sys2Proof.Machine
end

