-- ==== Sys2Proof/Machine/HostBus.lean ====
section
/-! DEFINITION. The host's accesses (spec/20_memory.md R60 to R76) and the operations of the host agent
(spec/30_encoding.md R98). -/

namespace Sys2Proof.Machine

/-- The number of bytes of an access (R64). -/
def byteCount (w : Width) : Nat :=
  match w with
  | .w8 => 1
  | .w16 => 2
  | .w32 => 4

/-- Every byte of an access is mapped (R61, R62). An aligned access whose bytes span two regions (R66) touches an
unmapped byte, since every region but OUT ends at a multiple of 4. -/
def allMapped (p : Params) (a : Address) (w : Width) : Bool :=
  (List.range (byteCount w)).all fun i => isMapped p.outBytes (a.toNat + i)

/-- The offset of STATUS (R24, R98). -/
def statusOffset : Nat := 0x004

/-- What forbids an access (R62, R66, R67, R76), `none` when it is permitted. The spec gives no order among the cases
of R227; the order here is a DESIGN CHOICE (log entry 9). -/
def accessFault (s : State) (isRead : Bool) (w : Width) (a : Address) : Option Fault :=
  if !allMapped s.params a w then some .unmappedAddress
  else if a.toNat % byteCount w ≠ 0 then some .misalignedAccess
  else if inRegisterWindow a.toNat && decide (w ≠ .w32) then some .forbiddenWidth
  else if s.busy && !(isRead && decide (a.toNat = statusOffset)) then some .accessWhileBusy
  else none

/-- The quant index of the QSHIFT register at an offset (R31). -/
def qshiftIndex (off : Nat) : Option (Fin 10) :=
  if h : 0x020 ≤ off ∧ off < 0x048 then some ⟨(off - 0x020) / 4, by omega⟩ else none

/-- A register read (R71 and the register table of spec/10_state.md): CMD and reserved offsets read 0 (R32, R33). -/
def readRegister (s : State) (off : Nat) : Word :=
  if off = 0x004 then statusWord s
  else if off = 0x008 then capWord s
  else if off = 0x00C then s.result
  else if off = 0x010 then s.outcap
  else if off = 0x014 then s.rstart
  else if off = 0x018 then s.rcount
  else
    match qshiftIndex off with
    | some q => s.qshift[q].setWidth 32
    | none => 0#32

/-- A register write (R71): CMD latches a command (R23); STATUS, CAP, RESULT and reserved offsets ignore it (R32, R33);
QSHIFTq keeps bits 7:0 (R31). -/
def writeRegister (s : State) (off : Nat) (v : Word) : State :=
  if off = 0x000 then latch s v
  else if off = 0x010 then { s with outcap := v }
  else if off = 0x014 then { s with rstart := v }
  else if off = 0x018 then { s with rcount := v }
  else
    match qshiftIndex off with
    | some q => { s with qshift := s.qshift.set q (v.setWidth 8) }
    | none => s

/-- `MemRead(a, n)` (R64): little-endian, zero-extended, no side effect (R72). -/
def hostRead (s : State) (w : Width) (a : Address) : Except Fault Word :=
  match accessFault s true w a with
  | some f => .error f
  | none =>
    if inRegisterWindow a.toNat then .ok (readRegister s a.toNat)
    else
      match readRun s.mem a.toNat (byteCount w) with
      | none => .error .unwrittenRead
      | some bytes => .ok (bytesToWord bytes)

/-- `MemWrite(a, n, v)` (R65): little-endian, setting the mark of each byte it writes. -/
def hostWrite (s : State) (w : Width) (a : Address) (v : Word) : Except Fault State :=
  match accessFault s false w a with
  | some f => .error f
  | none =>
    if inRegisterWindow a.toNat then .ok (writeRegister s a.toNat v)
    else .ok { s with mem := writeRun s.mem a.toNat (wordToBytes (byteCount w) v) }

/-! ### The host agent -/

/-- The operation the host agent has waiting, if its program is not finished (R104). -/
def hostOp (s : State) : Option HostOp := s.host.program[s.host.pos]?

/-- The host agent goes to a position of its program (R105). -/
def hostGoto (s : State) (pos : Nat) : State := { s with host := { s.host with pos := pos } }

/-- The host agent goes on to its next operation. -/
def hostNext (s : State) : State := hostGoto s (s.host.pos + 1)

/-- A host variable takes a value (R98). -/
def hostSet (s : State) (t : Nat) (v : Word) : State :=
  { s with host := { s.host with vars := writeRun s.host.vars t [v] } }

/-- One operation of the host agent (R98). -/
def hostExec (op : HostOp) (s : State) : Host.Outcome State Fault Refusal :=
  match op with
  | .write w a v =>
    match hostWrite s w a v with
    | .error f => .fault f
    | .ok t => .next (hostNext t)
  | .read w a t =>
    match hostRead s w a with
    | .error f => .fault f
    | .ok v => .next (hostNext (hostSet s t v))
  | .bnz t m target =>
    match lookup s.host.vars t with
    | none => .fault .unassignedHostVariable
    | some v => .next (if v &&& m ≠ 0#32 then hostGoto s target else hostNext s)
  | .assertReset => .next (hostNext (assertReset s))

end Sys2Proof.Machine
end

