-- ==== Sys2Proof/Machine/Engine.lean ====
section
/-! DEFINITION. The command engine's step and which agent moves (spec/30_encoding.md R95; spec/00_scope.md R14). -/

namespace Sys2Proof.Machine

/-- The command engine performs the pending command in one indivisible step (R95). An illegal word completes with
ILLEGAL_COMMAND and changes nothing else (R94, R221, R224). -/
def engineStep (s : State) : Host.Outcome State Fault Refusal :=
  match decode s.pend with
  | .illegal _ => .next (complete s .illegalCommand)
  | .command i => exec i s

/-- One step of the machine. With no command pending the host moves, or the block idles (R254). With one pending the
engine's step is enabled (R95); when the host has an operation waiting too, it moves as often as the delay drawn for this
command says before the engine does: a finite number nothing bounds (R95, R261). Log entries 5 and 12. -/
def agentStep (s : State) : Host.Outcome State Fault Refusal :=
  match hostOp s with
  | none => if s.busy then engineStep s else .next s
  | some op =>
    if s.busy then
      if s.waited < Config.engineDelay s.oracle then hostExec op { s with waited := s.waited + 1 } else engineStep s
    else hostExec op s

/-- What follows when reset is asserted after a step made at `s`, whatever its outcome, a Fault included (R250): the state
of R43 (R251). A Fault ends the host's program; the count of draws goes on, so that no delay is drawn twice. Log
entry 10. -/
def resetAfter (s : State) (outcome : Host.Outcome State Fault Refusal) : State :=
  match outcome with
  | .next t => assertReset t
  | .fault _ => { State.resetWith s.params with oracle := s.oracle }
  | .refused _ => { State.resetWith s.params with oracle := s.oracle }

end Sys2Proof.Machine
end

