-- ==== Sys2Proof/Machine/Step.lean ====
section
/-! DEFINITION. The step function, and how a command word is placed where the next step performs it. -/

namespace Sys2Proof.Machine

/-- One step: the agent whose turn it is moves (spec/00_scope.md R14). -/
def step (s : State) : Host.Outcome State Fault Refusal := agentStep s

/-- The command word latched as a write to CMD latches it (R23), with no host operation waiting, so that the very next
step is the engine's. Log entry 13. -/
def State.withFetchWord (s : State) (nbits w : Nat) : State :=
  latch { s with host := { s.host with program := [], pos := 0 } } (BitVec.ofNat 32 (w % 2 ^ nbits))

end Sys2Proof.Machine
end

