-- ==== Sys2Proof/Machine/HostProgram.lean ====
section
/-! DEFINITION. The host notation of spec/30_encoding.md R97 to R104: lines with labels and pseudo-instructions, and
their expansion to host operations. HostText.lean reads their text. Log entry 15. -/

namespace Sys2Proof.Machine

/-- One line of a host program (R98 to R103). Labels and host variables are numbers. -/
inductive HostLine where
  | write (w : Width) (a : Address) (v : Word)
  | read (w : Width) (a : Address) (t : Nat)
  | label (l : Nat)
  | bnz (t : Nat) (m : Word) (l : Nat)
  | wait
  | run (i : Instr)
  | setq (shifts : List Word)
  | enc (mode3 : Bool) (b : Subband) (cap : Word)
  | fill8 (a : Address) (n : Nat) (v : Byte)
  deriving DecidableEq, Repr

/-- The host variable `t` of the `wait` loop (R99). -/
def waitVariable : Nat := 0

/-- Write a register by its offset (R98). -/
def writeReg (off : Nat) (v : Word) : HostOp := .write .w32 (BitVec.ofNat 17 off) v

/-- `wait` at a position of the program (R99): the loop's label is that position. -/
def expandWait (pos : Nat) : List HostOp :=
  [.read .w32 (BitVec.ofNat 17 statusOffset) waitVariable, .bnz waitVariable 1#32 pos]

/-- `run <cmd>` at a position (R100). -/
def expandRun (pos : Nat) (i : Instr) : List HostOp := writeReg 0x000 (encode i) :: expandWait (pos + 1)

/-- `setq` (R101). -/
def expandSetq (shifts : List Word) : List HostOp := shifts.zipIdx.map fun p => writeReg (0x020 + 4 * p.2) p.1

/-- `enc1` and `enc3` at a position (R102). -/
def expandEnc (pos : Nat) (mode3 : Bool) (b : Subband) (cap : Word) : List HostOp :=
  [writeReg 0x014 (BitVec.ofNat 32 (bandOffset b)), writeReg 0x018 (BitVec.ofNat 32 (bandSize b)), writeReg 0x010 cap] ++
    expandRun (pos + 3) (if mode3 then .rlgr3 else .rlgr1)

/-- The byte writes of `fill8` (R103). DESIGN CHOICE (log entry 15): an address past 0x1FFFF, which R60 does not have, is
taken modulo 2^17; HostText.lean reads no such `fill8`. -/
def fillBytes (a : Address) (n : Nat) (v : Byte) : List HostOp :=
  (List.range n).map fun m => .write .w8 (a + BitVec.ofNat 17 m) (v.setWidth 32)

/-- The word writes of `fill8` (R103). DESIGN CHOICE (log entry 15): addresses past 0x1FFFF as in `fillBytes`. -/
def fillWords (a : Address) (n : Nat) (v : Byte) : List HostOp :=
  (List.range (n / 4)).map fun m => .write .w32 (a + BitVec.ofNat 17 (4 * m)) (v.setWidth 32 * 0x01010101#32)

/-- `fill8 A, N, V` (R103): words when A and N are multiples of 4, else bytes. -/
def expandFill (a : Address) (n : Nat) (v : Byte) : List HostOp :=
  if a.toNat % 4 = 0 ∧ n % 4 = 0 then fillWords a n v else fillBytes a n v

/-- The number of operations a line expands to. -/
def lineLength (line : HostLine) : Nat :=
  match line with
  | .write _ _ _ => 1
  | .read _ _ _ => 1
  | .label _ => 0
  | .bnz _ _ _ => 1
  | .wait => 2
  | .run _ => 3
  | .setq shifts => shifts.length
  | .enc _ _ _ => 6
  | .fill8 a n v => (expandFill a n v).length

/-- The position of a label's line (R98, R105). DESIGN CHOICE (log entry 15): the first of several lines with that label,
the program's end when there is none. -/
def labelPosition (l : Nat) : Nat → List HostLine → Nat
  | pos, [] => pos
  | pos, line :: rest => if line = .label l then pos else labelPosition l (pos + lineLength line) rest

/-- The operations of one line at a position; `target` gives the labels' positions. -/
def expandLine (target : Nat → Nat) (pos : Nat) (line : HostLine) : List HostOp :=
  match line with
  | .write w a v => [.write w a v]
  | .read w a t => [.read w a t]
  | .label _ => []
  | .bnz t m l => [.bnz t m (target l)]
  | .wait => expandWait pos
  | .run i => expandRun pos i
  | .setq shifts => expandSetq shifts
  | .enc mode3 b cap => expandEnc pos mode3 b cap
  | .fill8 a n v => expandFill a n v

/-- The operations of the lines from a position on. -/
def expandFrom (target : Nat → Nat) : Nat → List HostLine → List HostOp
  | _, [] => []
  | pos, line :: rest => expandLine target pos line ++ expandFrom target (pos + lineLength line) rest

/-- A host program's operations (R104). -/
def assemble (lines : List HostLine) : List HostOp := expandFrom (fun l => labelPosition l 0 lines) 0 lines

/-- A state with a host program loaded and not begun (R104). -/
def loadHostProgram (s : State) (lines : List HostLine) : State :=
  { s with host := { program := assemble lines, pos := 0, vars := [] } }

end Sys2Proof.Machine
end

