-- ==== Sys2Proof/Machine/HostText.lean ====
section
/-! DEFINITION. The text of a host program (spec/30_encoding.md R97 to R104) read into its lines. The rules fix the words
and their order; spaces, number formats and the characters of a name are this model's reading. Log entry 15. -/

namespace Sys2Proof.Machine

/-- A token of a line: a word (a name or a number) or one other character. -/
inductive Token where
  | word (text : List Char)
  | symbol (c : Char)
  deriving DecidableEq, Repr

/-- The character is between two others, both included. -/
def charBetween (lo hi c : Char) : Bool := decide (lo.toNat ≤ c.toNat) && decide (c.toNat ≤ hi.toNat)

/-- The characters of names and numbers; the full stop stands in `dwt.std`. -/
def isWordChar (c : Char) : Bool :=
  charBetween 'a' 'z' c || charBetween 'A' 'Z' c || charBetween '0' '9' c || decide (c = '_') || decide (c = '.')

/-- White space within a line. -/
def isBlank (c : Char) : Bool := decide (c = ' ') || decide (c = '\t') || decide (c = '\r')

/-- The word read so far, in reverse, as a token. -/
def flushWord (acc : List Char) : List Token := if acc = [] then [] else [.word acc.reverse]

/-- The tokens of a line; `acc` is the word read so far, in reverse. -/
def tokens : List Char → List Char → List Token
  | [], acc => flushWord acc
  | c :: rest, acc =>
    if isWordChar c then tokens rest (c :: acc)
    else if isBlank c then flushWord acc ++ tokens rest []
    else flushWord acc ++ .symbol c :: tokens rest []

/-- A lower-case letter for a capital one. -/
def lowerChar (c : Char) : Char := if charBetween 'A' 'Z' c then Char.ofNat (c.toNat + 32) else c

/-- The value of a digit. -/
def digitValue (c : Char) : Option Nat :=
  if charBetween '0' '9' c then some (c.toNat - '0'.toNat)
  else if charBetween 'a' 'f' (lowerChar c) then some ((lowerChar c).toNat - 'a'.toNat + 10)
  else none

/-- The value of a digit string in a base. -/
def digitsValue (radix : Nat) : List Char → Nat → Option Nat
  | [], acc => some acc
  | c :: rest, acc =>
    match digitValue c with
    | none => none
    | some d => if d < radix then digitsValue radix rest (acc * radix + d) else none

/-- A number: decimal, or hexadecimal after `0x`. -/
def numberOf (text : List Char) : Option Nat :=
  match text with
  | [] => none
  | '0' :: 'x' :: digits => if digits = [] then none else digitsValue 16 digits 0
  | digits => digitsValue 10 digits 0

/-- A number below a bound. -/
def boundedNumber (bound : Nat) (line : List Token) : Option Nat :=
  match line with
  | [.word text] => (numberOf text).bind fun n => if n < bound then some n else none
  | _ => none

/-- A label or a host variable as a number: distinct names give distinct numbers, and none gives that of the wait loop's
own variable. -/
def nameNumber (name : List Char) : Nat := name.foldl (fun n c => n * 0x110000 + c.toNat + 1) waitVariable

/-- The subband a name means; band names are case-insensitive (R97). -/
def subbandOfName (name : List Char) : Option Subband :=
  [("ll3", Subband.ll3), ("lh3", .lh3), ("hl3", .hl3), ("hh3", .hh3), ("lh2", .lh2), ("hl2", .hl2), ("hh2", .hh2),
    ("lh1", .lh1), ("hl1", .hl1), ("hh1", .hh1)].findSome? fun p =>
      if p.1.toList = name.map lowerChar then some p.2 else none

/-- A command (R97), its mnemonic in the case in which R97 writes it (DESIGN CHOICE, log entry 15). -/
def commandOf (line : List Token) : Option Instr :=
  match line with
  | [.word m] =>
    [("dwt.std", Instr.dwtStd), ("dwt.re", .dwtRe), ("quant", .quant), ("rlgr1", .rlgr1), ("rlgr3", .rlgr3)].findSome?
      fun p => if p.1.toList = m then some p.2 else none
  | [.word m, .word band] =>
    if m = "diff".toList then (subbandOfName band).map fun b => .diff (quantIndex b).val else none
  | [.word m, .symbol '#', .word q] =>
    if m = "diff".toList then (boundedNumber 16 [.word q]).map .diff else none
  | _ => none

/-- The address a name means, or a number (R98). DESIGN CHOICE (log entry 15): `COEF` and `OUT` stand for their windows'
first addresses where no offset follows, as `PIX` does in program P1 of spec/95_test_vectors.md. -/
def addressBase (text : List Char) : Option Nat :=
  ([("CMD", 0x00000), ("STATUS", 0x00004), ("CAP", 0x00008), ("RESULT", 0x0000C), ("OUTCAP", 0x00010),
      ("RSTART", 0x00014), ("RCOUNT", 0x00018), ("QSHIFT0", 0x00020), ("QSHIFT1", 0x00024), ("QSHIFT2", 0x00028),
      ("QSHIFT3", 0x0002C), ("QSHIFT4", 0x00030), ("QSHIFT5", 0x00034), ("QSHIFT6", 0x00038), ("QSHIFT7", 0x0003C),
      ("QSHIFT8", 0x00040), ("QSHIFT9", 0x00044), ("PIX", pixBase), ("COEF", coefBase), ("OUT", outBase)].findSome?
    fun p => if p.1.toList = text then some p.2 else none).orElse fun _ => numberOf text

/-- An address: a base, or a base and a byte offset. R98 gives the forms `PIX+i`, `COEF+2i` and `OUT+j`, and register
names without an offset. DESIGN CHOICE (log entry 15): any base takes an offset, a register's name and a number too; the
offset may be odd after `COEF` and may lead past the end of the base's window. The sum is the address, and one of 2^17 or
more, which R60 does not have, is refused. -/
def addressOf (line : List Token) : Option Address :=
  let sum :=
    match line with
    | [.word base] => addressBase base
    | [.word base, .symbol '+', .word offset] =>
      (addressBase base).bind fun b => (numberOf offset).map fun o => b + o
    | _ => none
  sum.bind fun a => if a < 2 ^ 17 then some (BitVec.ofNat 17 a) else none

/-- A 32-bit value. -/
def wordOf (line : List Token) : Option Word := (boundedNumber (2 ^ 32) line).map (BitVec.ofNat 32)

/-- The parts of a line between commas. -/
def splitCommas : List Token → List (List Token)
  | [] => [[]]
  | t :: rest =>
    match t, splitCommas rest with
    | .symbol ',', parts => [] :: parts
    | t, [] => [[t]]
    | t, part :: parts => (t :: part) :: parts

/-- All values, when each is there. -/
def allSome {α : Type} (xs : List (Option α)) : Option (List α) :=
  xs.foldr (fun x rest => x.bind fun v => rest.map fun vs => v :: vs) (some [])

/-- `w8/w16/w32 A, V` (R98). -/
def writeLine (w : Width) (line : List Token) : Option HostLine :=
  match splitCommas line with
  | [a, v] => (addressOf a).bind fun a => (wordOf v).map fun v => .write w a v
  | _ => none

/-- The address of a read and the variable after its arrow. -/
def readLine (w : Width) (line : List Token) : Option HostLine :=
  match line.reverse with
  | .word t :: .symbol '>' :: .symbol '-' :: a => (addressOf a.reverse).map fun a => .read w a (nameNumber t)
  | _ => none

/-- `bnz t & M, label` (R98). -/
def branchLine (line : List Token) : Option HostLine :=
  match splitCommas line with
  | [.word t :: .symbol '&' :: mask, [.word label]] =>
    (wordOf mask).map fun m => .bnz (nameNumber t) m (nameNumber label)
  | _ => none

/-- `setq s0, ..., s9` (R101): ten values. -/
def setqLine (line : List Token) : Option HostLine :=
  (allSome ((splitCommas line).map wordOf)).bind fun vs => if vs.length = 10 then some (.setq vs) else none

/-- `enc1 B, C` and `enc3 B, C` (R102). -/
def encLine (mode3 : Bool) (line : List Token) : Option HostLine :=
  match splitCommas line with
  | [[.word band], cap] => (subbandOfName band).bind fun b => (wordOf cap).map fun c => .enc mode3 b c
  | _ => none

/-- `fill8 A, N, V` (R103). DESIGN CHOICE (log entry 15): a range that runs past the host address space is refused. -/
def fillLine (line : List Token) : Option HostLine :=
  match splitCommas line with
  | [a, [.word n], v] =>
    (addressOf a).bind fun a => (numberOf n).bind fun n => (boundedNumber 256 v).bind fun v =>
      if a.toNat + n ≤ 2 ^ 17 then some (.fill8 a n (BitVec.ofNat 8 v)) else none
  | _ => none

/-- An operation or a pseudo-instruction, by its first word (R98 to R103), in the case in which the rules write it (DESIGN
CHOICE, log entry 15). -/
def operationLine (first : List Char) (rest : List Token) : Option HostLine :=
  if first = "w8".toList then writeLine .w8 rest
  else if first = "w16".toList then writeLine .w16 rest
  else if first = "w32".toList then writeLine .w32 rest
  else if first = "r8".toList then readLine .w8 rest
  else if first = "r16".toList then readLine .w16 rest
  else if first = "r32".toList then readLine .w32 rest
  else if first = "bnz".toList then branchLine rest
  else if first = "wait".toList then (if rest = [] then some .wait else none)
  else if first = "run".toList then (commandOf rest).map .run
  else if first = "setq".toList then setqLine rest
  else if first = "enc1".toList then encLine false rest
  else if first = "enc3".toList then encLine true rest
  else if first = "fill8".toList then fillLine rest
  else none

/-- The lines one line of text stands for: a label, an operation, both, or nothing. -/
def lineOf (line : List Token) : Option (List HostLine) :=
  match line with
  | [] => some []
  | [.word l, .symbol ':'] => some [.label (nameNumber l)]
  | .word l :: .symbol ':' :: .word first :: rest =>
    (operationLine first rest).map fun op => [.label (nameNumber l), op]
  | .word first :: rest => (operationLine first rest).map fun op => [op]
  | .symbol _ :: _ => none

/-- A text's lines. -/
def textLines : List Char → List (List Char)
  | [] => [[]]
  | c :: rest =>
    match textLines rest with
    | [] => [[c]]
    | line :: others => if c = '\n' then [] :: line :: others else (c :: line) :: others

/-- A program's branches go to labels it has. DESIGN CHOICE (log entry 15): a label may stand on several lines, of which
the first counts (labelPosition). -/
def branchesResolved (lines : List HostLine) : Bool :=
  lines.all fun line =>
    match line with
    | .bnz _ _ l => lines.any fun other => decide (other = .label l)
    | _ => true

/-- The lines of a program's text (R104): one operation a line, `;` starting a comment. A text that is none has no
lines. -/
def parseHostProgram (text : String) : Option (List HostLine) :=
  let parsed := allSome ((textLines text.toList).map fun l => lineOf (tokens (l.takeWhile fun c => decide (c ≠ ';')) []))
  parsed.bind fun ls => if branchesResolved ls.flatten then some ls.flatten else none

end Sys2Proof.Machine
end

