-- ==== Sys2Proof/Machine/RlgrDecoder.lean ====
section
/-! DEFINITION. The reference decoder of spec/42_rlgr.md R201: informative, no command; the statements use it to say that
the coder loses nothing but what R198 says. R201 says what it gives for an encoder's bits only; what the definitions give
for other bit strings, where bits run out or a value is beyond int16, is a DESIGN CHOICE (log entry 19). -/

namespace Sys2Proof.Machine

/-- The value of a bit string, most significant first (R189). -/
def bitsValue : List Bool → Nat
  | [] => 0
  | b :: rest => b.toNat * 2 ^ rest.length + bitsValue rest

/-- The unary part of a Golomb-Rice code: the count of 1 bits up to a 0, and the bits after it. DESIGN CHOICE (log
entry 19): the end of the bits ends it too. -/
def decodeUnary : List Bool → Nat × List Bool
  | [] => (0, [])
  | false :: rest => (0, rest)
  | true :: rest =>
    let r := decodeUnary rest
    (r.1 + 1, r.2)

/-- Decoding a Golomb-Rice code: the value and the bits left. DESIGN CHOICE (log entry 19): a remainder cut short is the
number its bits write. -/
def decodeGr (p : Profile) (krp : Nat) (bits : List Bool) : Nat × List Bool :=
  let u := decodeUnary bits
  let kr := riceParam p krp
  (u.1 * 2 ^ kr + bitsValue (u.2.take kr), u.2.drop kr)

/-- Decoding the full runs of run mode: the zeros they stand for, kp, and the bits after the 1 bit that ends them. DESIGN
CHOICE (log entry 19): the end of the bits ends them too. -/
def decodeFullRuns (p : Profile) : List Bool → Nat → Nat × Nat × List Bool
  | [], kp => (0, kp, [])
  | true :: rest, kp => (0, kp, rest)
  | false :: rest, kp =>
    let r := decodeFullRuns p rest (upd p kp p.upGr)
    (2 ^ runParam p kp + r.1, r.2.1, r.2.2)

/-- The inverse of sign folding (R187). DESIGN CHOICE (log entry 19): for a value above 65535, which folds no int16, the
result is wrapped. -/
def unfoldSign (t : Nat) : HalfWord := if t % 2 = 0 then wrap16 (t / 2 : Nat) else wrap16 (-((t + 1) / 2 : Nat))

/-- What one pass of the decoder gives. -/
structure DecodePass where
  values : List HalfWord
  adapt : Adaptive
  bits : List Bool
  deriving DecidableEq, Repr

/-- Run mode of the decoder, before it is cut to the values that remain. DESIGN CHOICE (log entry 19): a missing sign bit
reads as 0, a run length cut short is the number its bits write, and a value beyond int16 is wrapped. -/
def decodeRunMode (p : Profile) (st : Adaptive) (bits : List Bool) : DecodePass :=
  let full := decodeFullRuns p bits st.kp
  let k := runParam p full.2.1
  let negative := (full.2.2.drop k).headD false
  let g := decodeGr p st.krp (full.2.2.drop (k + 1))
  let last := if negative then wrap16 (-((g.1 : Int) + 1)) else wrap16 ((g.1 : Int) + 1)
  { values := List.replicate (full.1 + bitsValue (full.2.2.take k)) 0#16 ++ [last]
    adapt := { kp := upd p full.2.1 (-(p.dnGr : Int)), krp := codeGrUpdate p st.krp g.1 }
    bits := g.2 }

/-- GR mode of the RLGR1 decoder. -/
def decodeGrOne (p : Profile) (st : Adaptive) (bits : List Bool) : DecodePass :=
  let g := decodeGr p st.krp bits
  { values := [unfoldSign g.1]
    adapt :=
      { kp := if g.1 = 0 then upd p st.kp p.uqGr else upd p st.kp (-(p.dqGr : Int))
        krp := codeGrUpdate p st.krp g.1 }
    bits := g.2 }

/-- GR mode of the RLGR3 decoder. DESIGN CHOICE (log entry 19): a first value cut short is the number its bits write,
and where it exceeds the sum the second is 0. -/
def decodeGrThree (p : Profile) (st : Adaptive) (bits : List Bool) : DecodePass :=
  let g := decodeGr p st.krp bits
  let t1 := bitsValue (g.2.take (minBits g.1))
  let t2 := g.1 - t1
  { values := [unfoldSign t1, unfoldSign t2]
    adapt :=
      { kp :=
          if t1 ≠ 0 ∧ t2 ≠ 0 then upd p st.kp (-2 * (p.dqGr : Int))
          else if t1 = 0 ∧ t2 = 0 then upd p st.kp (2 * (p.uqGr : Int))
          else st.kp
        krp := codeGrUpdate p st.krp g.1 }
    bits := g.2.drop (minBits g.1) }

/-- One pass of the decoder. -/
def decodePass (m : RlgrMode) (p : Profile) (st : Adaptive) (bits : List Bool) : DecodePass :=
  if runParam p st.kp ≠ 0 then decodeRunMode p st bits
  else
    match m with
    | .one => decodeGrOne p st bits
    | .three => decodeGrThree p st bits

/-- The decoder's loop, while values remain; a pass outputs at most the values that remain. -/
def decodeLoop (m : RlgrMode) (p : Profile) : Nat → Nat → Adaptive → List Bool → List HalfWord
  | 0, _, _, _ => []
  | _ + 1, 0, _, _ => []
  | fuel + 1, n + 1, st, bits =>
    let pass := decodePass m p st bits
    pass.values.take (n + 1) ++ decodeLoop m p fuel (n + 1 - pass.values.length) pass.adapt pass.bits

/-- The `n` values of a bit string (R201). -/
def rlgrDecode (m : RlgrMode) (p : Profile) (n : Nat) (bits : List Bool) : List HalfWord :=
  decodeLoop m p n n (adaptiveStart p) bits

/-- Whether the last pass of the coder's loop is run mode, so that it is run mode that consumes the last element (R198). -/
def endsInRunFrom (m : RlgrMode) (p : Profile) : Nat → Adaptive → List HalfWord → Bool
  | 0, _, _ => false
  | _ + 1, _, [] => false
  | fuel + 1, st, x :: xs =>
    let pass := onePass m p st (x :: xs)
    if pass.rest = [] then decide (runParam p st.kp ≠ 0) else endsInRunFrom m p fuel pass.adapt pass.rest

/-- Whether the coder consumes the last element of an input in run mode (R198). -/
def endsInRun (m : RlgrMode) (p : Profile) (xs : List HalfWord) : Bool :=
  endsInRunFrom m p xs.length (adaptiveStart p) xs

end Sys2Proof.Machine
end

