-- ==== Sys2Proof/Machine/Vector.lean ====
section
/-! DEFINITION. The vectorized DWT kernel (spec/00_scope.md R2; spec/40_dwt.md R135, R136): the vertical pass on rows of
lanes. Its lane count is not architectural (I25) and is an argument here. R135 says that a model uses R128 for every
CAP.LEVEL, so no command's meaning calls this file; the statements say that it stores what R128 stores. -/

namespace Sys2Proof.Machine

/-- A register of lanes, each an exact integer between stores (R127). -/
abbrev Lanes := List Int

/-- Lane-wise sum. -/
def laneAdd (a b : Lanes) : Lanes := List.zipWith (· + ·) a b

/-- Lane-wise difference. -/
def laneSub (a b : Lanes) : Lanes := List.zipWith (· - ·) a b

/-- Lane-wise arithmetic right shift by 1. -/
def laneHalf (a : Lanes) : Lanes := a.map fun v : Int => v >>> 1

/-- Lane-wise store as int16 (R127). -/
def laneStore (a : Lanes) : List HalfWord := a.map wrap16

/-- R122's high-pass value in every lane, from rows 2n, 2n+1 and 2n+2. -/
def laneHigh (x : Nat → Lanes) (n : Nat) : Lanes :=
  laneHalf (laneSub (x (2 * n + 1)) (laneHalf (laneAdd (x (2 * n)) (x (2 * n + 2)))))

/-- R122's low-pass value in every lane. -/
def laneLow (x h : Nat → Lanes) (n : Nat) : Lanes :=
  if n = 0 then laneAdd (x 0) (h 0) else laneAdd (x (2 * n)) (laneHalf (laneAdd (h (n - 1)) (h n)))

/-- Twice the last row less the one before it, in every lane: the extrapolated sample of R123 and R124. -/
def laneExtrapolate (x : Nat → Lanes) (n : Nat) : Lanes := laneSub (laneAdd (x (n - 1)) (x (n - 1))) (x (n - 2))

/-- The rows of SCRATCH of one group of lanes, standard variant (R123). -/
def laneStd (rows : List Lanes) : List (List HalfWord) :=
  let n := rows.length
  let base := if n % 2 = 0 then rows ++ [laneExtrapolate (fun i => rows.getD i []) n] else rows
  let xa := base ++ [base.getD (base.length - 2) [], base.getD (base.length - 3) []]
  let x := fun i => xa.getD i []
  let m := (xa.length - 3) / 2
  let h := laneHigh x
  let hc := if n % 2 = 0 then m - 1 else m
  ((List.range (m + 1)).map fun i => laneStore (laneLow x h i)) ++ ((List.range hc).map fun i => laneStore (h i))

/-- The rows of SCRATCH of one group of lanes, reduce-extrapolate variant (R124). -/
def laneRe (rows : List Lanes) : List (List HalfWord) :=
  let n := rows.length
  let x := fun i => rows.getD i []
  let m := n / 2
  let h := laneHigh x
  if n % 2 = 1 then
    ((List.range m).map fun i => laneStore (laneLow x h i)) ++
      [laneStore (laneAdd (x (n - 1)) (h (m - 1)))] ++ ((List.range m).map fun i => laneStore (h i))
  else
    ((List.range (m - 1)).map fun i => laneStore (laneLow x h i)) ++
      [laneStore (laneAdd (x (n - 2)) (laneHalf (h (m - 2)))), laneStore (laneExtrapolate x n)] ++
      ((List.range (m - 1)).map fun i => laneStore (h i))

/-- One group of lanes. -/
def laneTransform (t : Variant) (rows : List Lanes) : List (List HalfWord) :=
  match t with
  | .std => laneStd rows
  | .re => laneRe rows

/-- The vertical pass of R128 on a vector datapath of `lanes` lanes: the columns are processed in groups of `lanes`, all
columns of a group per operation. -/
def vectorVerticalPass (lanes : Nat) (t : Variant) (n : Nat) (a : List (List HalfWord)) : List (List HalfWord) :=
  let group := fun j => laneTransform t (a.map fun row => ((row.drop (j * lanes)).take lanes).map BitVec.toInt)
  (List.range ((n + lanes - 1) / lanes)).foldr (fun j right => List.zipWith (· ++ ·) (group j) right)
    (List.replicate n [])

/-- The vertical pass of a datapath (R40, R136): the scalar one for CAP.LEVEL 0 "unconditionally", the vector one
otherwise. -/
def datapathVerticalPass (c : CapLevel) (lanes : Nat) (t : Variant) (n : Nat) (a : List (List HalfWord)) :
    List (List HalfWord) :=
  match c with
  | .scalar => verticalPass t n a
  | .level2 => vectorVerticalPass lanes t n a
  | .level41 => vectorVerticalPass lanes t n a

end Sys2Proof.Machine
end

