-- ==== Sys2Proof/Safety.lean ====
section
/-! DEFINITION. What the statements call a state fit to run: the invariant of the machine, and the storage a command
needs written (spec/70_reset_and_hazards.md R255). -/

namespace Sys2Proof.Machine

/-- The machine's invariant. The parameters are legal (R6, R182); storage and the host's variables are in canonical form;
only storage bytes of the map are listed (R61); SCRATCH has its 4096 elements (R36); LASTOP is the low byte of PEND
(R23); RESULT is at most OUT_BYTES (R27). -/
def State.Inv (s : State) : Prop :=
  s.params.legal = true ∧ Memory.wf s.mem ∧ (∀ c ∈ s.mem, inStorage s.params.outBytes c.1 = true) ∧
    s.scratch.length = 4096 ∧ s.lastOp = s.pend.extractLsb' 0 8 ∧ s.result.toNat ≤ s.params.outBytes ∧
    Memory.wf s.host.vars

/-- Every PIX element is marked (R255). -/
def PixWritten (s : State) : Prop := ∀ i < 4096, (pixAt s i).isSome

/-- COEF[start .. start + count - 1] is marked (R255). -/
def CoefWritten (s : State) (start count : Nat) : Prop := ∀ i < count, (coefAt s (start + i)).isSome

/-- Every storage byte outside `lo .. lo + len - 1` has in `t` the content and mark it has in `s`. -/
def MemSameOutside (s t : State) (lo len : Nat) : Prop :=
  ∀ x, x < lo ∨ lo + len ≤ x → lookup t.mem x = lookup s.mem x

/-- The block has no host operation waiting, so a pending command's step is the next one (R95). -/
abbrev HostIdle (s : State) : Prop := hostOp s = none

/-- The host's writes of a list of operations, one after another (R74); operations that are no write are skipped. -/
def performWrites : State → List HostOp → Except Fault State
  | s, [] => .ok s
  | s, .write w a v :: rest =>
    match hostWrite s w a v with
    | .error f => .error f
    | .ok t => performWrites t rest
  | s, _ :: rest => performWrites s rest

/-- The region of the address map an address lies in (R61): registers, PIX, COEF, OUT, or unmapped (`none`). -/
def regionOf (outBytes x : Nat) : Option (Fin 4) :=
  if x < 0x01000 then some 0
  else if x < 0x02000 then some 1
  else if x < 0x04000 then some 2
  else if 0x10000 ≤ x ∧ x < 0x10000 + outBytes then some 3
  else none

/-- What no command writes (R81, R199, R224): the parameters, PEND, LASTOP, the operand registers and the host agent. -/
def OperandsSame (s t : State) : Prop :=
  t.params = s.params ∧ t.pend = s.pend ∧ t.lastOp = s.lastOp ∧ t.outcap = s.outcap ∧ t.rstart = s.rstart ∧
    t.rcount = s.rcount ∧ t.qshift = s.qshift ∧ t.host = s.host

end Sys2Proof.Machine
end

