-- ==== Sys2Proof/Certificates/Slice0/Obligations.lean ====
section
/-! DEFINITION. The statements about the model, each with the passage of spec/ it formalises. A statement whose docstring
says "derived" rests on an inference of the spec or of this model, and says which. -/

open Sys2Proof Sys2Proof.Machine

/-! ### Command words -/

/-- Derived from R94, with the model's choice of when the engine moves (log entry 5): a word is illegal exactly when one of
R94's four conditions holds, and the engine's step then writes ILLEGAL_COMMAND and clears BUSY and changes nothing else; that
step is the next one with no host operation waiting, or with one waiting once the finite delay is over. -/
def Obligations.IllegalWordsCompleteWithIllegalCommand : Prop :=
  (∀ w : Word, (∃ why, decode w = .illegal why) ↔
    (w.extractLsb' 0 8 = 0x00#8 ∨ 0x07#8 ≤ w.extractLsb' 0 8 ∨ w.extractLsb' 12 20 ≠ 0#20 ∨
      (w.extractLsb' 0 8 ≠ 0x04#8 ∧ w.extractLsb' 8 4 ≠ 0#4))) ∧
  ∀ (s : State) (why : DecodeError), s.busy = true → (HostIdle s ∨ Config.engineDelay s.oracle ≤ s.waited) →
    decode s.pend = .illegal why → step s = .next { s with err := .illegalCommand, busy := false }

/-- Derived from spec/30_encoding.md sections 1 and 4: the word of every well-formed command decodes to it, DIFF with
every value of its subband field. -/
def Obligations.DecodeReadsBackEveryEncoding : Prop :=
  ∀ i : Instr, i.wellFormed = true → decode (encode i) = .command i

/-- Derived from spec/30_encoding.md sections 1 and 4: a legal word has one meaning, and is the word that command
assembles to. -/
def Obligations.EncodeReadsBackEveryLegalWord : Prop :=
  ∀ (w : Word) (i : Instr), decode w = .command i → i.wellFormed = true ∧ encode i = w

/-- Derived from spec/95_test_vectors.md L2.6 ("For each legal word w, w AND mask = match holds for exactly one row of
opcode_table.json. For each illegal word, it holds for none"): the rows are those of the table. -/
def Obligations.LegalWordsMatchExactlyOneTableRow : Prop :=
  ∀ w : Word,
    (∀ i, decode w = .command i → opcodeTable.filter (·.covers w) = [opcodeRow i]) ∧
      (∀ why, decode w = .illegal why → opcodeTable.filter (·.covers w) = [])

/-- Derived from the table of spec/95_test_vectors.md L2.6: all fifteen words listed there and what they decode as. -/
def Obligations.ListedWordsDecodeAsListed : Prop :=
  decode 0x00000001#32 = .command .dwtStd ∧ decode 0x00000002#32 = .command .dwtRe ∧
    decode 0x00000003#32 = .command .quant ∧ decode 0x00000004#32 = .command (.diff 0) ∧ decode 0x00000904#32 = .command (.diff 9) ∧
    decode 0x00000A04#32 = .command (.diff 10) ∧ decode 0x00000005#32 = .command .rlgr1 ∧
    decode 0x00000006#32 = .command .rlgr3 ∧ decode 0x00000000#32 = .illegal .reservedOpcode ∧
    decode 0x00000007#32 = .illegal .reservedOpcode ∧ decode 0x000000FF#32 = .illegal .reservedOpcode ∧
    decode 0x00000101#32 = .illegal .subbandBits ∧ decode 0x00000105#32 = .illegal .subbandBits ∧
    decode 0x00001004#32 = .illegal .reservedBits ∧ decode 0x80000003#32 = .illegal .reservedBits

/-- R97: the mnemonics assemble to the words of its table, `diff` with a band name to its quant index and with `#q` to q in
0..15 (and no further); band names are case-insensitive. -/
def Obligations.MnemonicsAssembleToTheirWords : Prop :=
  let assembled := fun text : String => (commandOf (tokens text.toList [])).map encode
  ["dwt.std", "dwt.re", "quant", "rlgr1", "rlgr3"].map assembled =
      [0x00000001#32, 0x00000002#32, 0x00000003#32, 0x00000005#32, 0x00000006#32].map some ∧
    ["diff LL3", "diff LH3", "diff HL3", "diff HH3", "diff LH2", "diff HL2", "diff HH2", "diff LH1", "diff HL1",
        "diff HH1"].map assembled = (List.range 10).map (fun q => some (0x00000004#32 ||| (BitVec.ofNat 32 q <<< 8))) ∧
    ["diff #0", "diff #1", "diff #2", "diff #3", "diff #4", "diff #5", "diff #6", "diff #7", "diff #8", "diff #9",
        "diff #10", "diff #11", "diff #12", "diff #13", "diff #14", "diff #15"].map assembled =
      (List.range 16).map (fun q => some (0x00000004#32 ||| (BitVec.ofNat 32 q <<< 8))) ∧
    assembled "diff #16" = none ∧ ∀ name, subbandOfName (name.map lowerChar) = subbandOfName name

/-! ### The layout of COEF -/

/-- R130's table and its text under it: the ten regions have the offsets, widths and heights of the table, and every
index of 0..4095 lies in exactly one of them. Derived: the table alone, not the rule's other sentences. -/
def Obligations.SubbandsPartitionTheCoefficientBuffer : Prop :=
  ([Subband.hl1, .lh1, .hh1, .hl2, .lh2, .hh2, .hl3, .lh3, .hh3, .ll3].map fun b =>
      ((quantIndex b).val, bandWidth b, bandHeight b, bandSize b, bandOffset b)) =
    [(8, 31, 33, 1023, 0), (7, 33, 31, 1023, 1023), (9, 31, 31, 961, 2046), (5, 16, 17, 272, 3007),
      (4, 17, 16, 272, 3279), (6, 16, 16, 256, 3551), (2, 8, 9, 72, 3807), (1, 9, 8, 72, 3879), (3, 8, 8, 64, 3951),
      (0, 9, 9, 81, 4015)] ∧
  (∀ b k, k < bandSize b → bandOffset b + k < 4096 ∧ bandContaining (bandOffset b + k) = b) ∧
  (∀ i, i < 4096 → bandOffset (bandContaining i) ≤ i ∧ i < bandOffset (bandContaining i) + bandSize (bandContaining i))

/-- Derived from spec/40_dwt.md sections 3 and 4: after the three levels, element (r, c) of subband B stands at index
off(B) + r*width(B) + c. -/
def Obligations.DwtPlacesEverySubbandAtItsOffset : Prop :=
  ∀ (t : Variant) (scale : Nat) (pix : List Byte) (b : Subband) (r c : Nat),
    r < bandHeight b → c < bandWidth b →
    let b1 := dwtLevel t 64 (levelOneInput scale pix)
    let b2 := dwtLevel t 33 b1.ll
    let b3 := dwtLevel t 17 b2.ll
    let rows := match b with
      | .hl1 => b1.hl | .lh1 => b1.lh | .hh1 => b1.hh
      | .hl2 => b2.hl | .lh2 => b2.lh | .hh2 => b2.hh
      | .hl3 => b3.hl | .lh3 => b3.lh | .hh3 => b3.hh | .ll3 => b3.ll
    ∃ v, (rows[r]?.bind fun row => row[c]?) = some v ∧
      (dwtCoefs t scale pix)[bandOffset b + r * bandWidth b + c]? = some v

/-! ### The step -/

/-- Derived from spec/30_encoding.md section 3 (R95): with a legal command pending, the step is that command's meaning;
so when the host has operations waiting and the model's finite delay is over (log entry 5). -/
def Obligations.StepPerformsTheDecodedCommand : Prop :=
  ∀ (s : State) (i : Instr), s.busy = true → decode s.pend = .command i →
    (HostIdle s ∨ Config.engineDelay s.oracle ≤ s.waited) → step s = exec i s

/-- Derived (log entry 13): a word placed for fetching is performed by the very next step. -/
def Obligations.PlacedCommandIsPerformedNext : Prop :=
  ∀ (s : State) (i : Instr), i.wellFormed = true →
    step (s.withFetchWord 32 (encode i).toNat) = exec i (s.withFetchWord 32 (encode i).toNat)

/-- Derived from spec/70_reset_and_hazards.md section 1 (R254, "After reset it waits, idle, for a CMD write") and log
entry 12: with no command pending and no host operation waiting nothing changes, from reset in particular; with one
waiting, the host performs it. -/
def Obligations.IdleBlockWaitsForTheHost : Prop :=
  (∀ s : State, s.busy = false → HostIdle s → step s = .next s) ∧
    (∀ p : Params, step (State.resetWith p) = .next (State.resetWith p)) ∧
    (∀ (s : State) (op : HostOp), s.busy = false → hostOp s = some op → step s = hostExec op s)

/-- Derived from R95 ("The step is always enabled while BUSY = 1") and R99's wait loop, with the model's finite delay (log
entry 5): from any state where the host polls STATUS, after no more host moves than the delay drawn, which change nothing of the
block, the next step is the engine's; and where that step completes, the host leaves the loop within three more moves, which
change nothing of the block either. -/
def Obligations.WaitLoopReachesTheCommand : Prop :=
  ∀ (s : State) (p : Nat), s.busy = true → s.host.pos = p →
    s.host.program[p]? = some (.read .w32 (BitVec.ofNat 17 statusOffset) waitVariable) →
    s.host.program[p + 1]? = some (.bnz waitVariable 1#32 p) →
    ∃ (k : Nat) (u : State), k ≤ Config.engineDelay s.oracle ∧
      Host.Core.run Sys2Proof.core k s = .next u ∧
      u = { s with host := u.host, waited := u.waited } ∧ step u = engineStep u ∧
      ∀ t, engineStep u = .next t →
        ∃ (j : Nat) (z : State), j ≤ 3 ∧ Host.Core.run Sys2Proof.core j t = .next z ∧ z.host.pos = p + 2 ∧
          z = { t with host := z.host }

/-! ### Reset -/

/-- R43: the reset values, for every parameter record. SCRATCH, unspecified there, is not stated. -/
def Obligations.ResetLeavesTheSpecifiedValues : Prop :=
  ∀ p : Params,
    let r := State.resetWith p
    r.pend = 0#32 ∧ r.busy = false ∧ r.err = .ok ∧ r.lastOp = 0x00#8 ∧ r.params = p ∧
      hostRead r .w32 0x008#17 = .ok (0#30 ++ capCode p.capLevel) ∧
      hostRead r .w32 0x004#17 = .ok 0#32 ∧ r.result = 0#32 ∧ r.outcap = 0#32 ∧ r.rstart = 0#32 ∧
      r.rcount = 0#32 ∧ (∀ q : Fin 10, r.qshift[q] = 0#8) ∧ (∀ i, pixAt r i = none) ∧
      (∀ i, coefAt r i = none) ∧ (∀ j, outAt r j = none)

/-- Derived from spec/70_reset_and_hazards.md section 1 (R250, R251) and log entry 10: the reset input abandons a pending
command and leaves the reset state of the same parameters, whatever the state or the outcome before it; as a move of the
host agent it is enabled in every state. The host agent and the count of draws after it are the model's choice. -/
def Obligations.ResetAbandonsThePendingCommand : Prop :=
  (∀ s : State, assertReset s = { State.resetWith s.params with host := s.host, oracle := s.oracle }) ∧
    (∀ s : State, ∃ t, hostExec .assertReset s = .next t ∧ t.busy = false ∧ t.pend = 0#32 ∧ t.mem = [] ∧
      t.params = s.params) ∧
    (∀ (s : State) (f : Fault), step s = .fault f →
      resetAfter s (step s) = { State.resetWith s.params with oracle := s.oracle })

/-! ### Registers -/

/-- Derived from R23, with the model's choices of log entries 5 and 7: a word written to CMD while BUSY = 0 is latched,
BUSY is set and LASTOP takes its low byte, and the engine's step follows; CMD reads 0; a write while BUSY = 1 is a host
fault; PEND is 0 and not pending at reset. The counts `waited` and `oracle` are the model's own (log entries 5 and 7), and so
is that an idle host lets the engine move at once (log entry 5). -/
def Obligations.CommandWriteLatchesTheWord : Prop :=
  (∀ (s : State) (w : Word), s.busy = false →
    ∃ t, hostWrite s .w32 0x000#17 w = .ok t ∧
      t = { s with pend := w, busy := true, lastOp := w.extractLsb' 0 8, waited := 0, oracle := s.oracle + 1 } ∧
      (HostIdle t → step t = engineStep t) ∧ hostRead s .w32 0x000#17 = .ok 0#32) ∧
  (∀ (s : State) (w : Word), s.busy = true → hostWrite s .w32 0x000#17 w = .error .accessWhileBusy) ∧
  (∀ p : Params, (State.resetWith p).pend = 0#32 ∧ (State.resetWith p).busy = false)

/-- Derived from the tables of R24 and R220: the fields of STATUS, which is read in every state, BUSY = 1 included, with the
result codes' numbers; host writes to it are ignored. -/
def Obligations.StatusHoldsItsFields : Prop :=
  ∀ s : State, ∃ w : Word, hostRead s .w32 0x004#17 = .ok w ∧
    w.extractLsb' 0 1 = BitVec.ofBool s.busy ∧ w.extractLsb' 1 3 = 0#3 ∧ w.extractLsb' 4 4 = (match s.err with
      | .ok => 0#4 | .capacityExceeded => 1#4 | .invalidParameter => 2#4 | .illegalCommand => 3#4) ∧
    w.extractLsb' 8 8 = s.lastOp ∧ w.extractLsb' 16 16 = 0#16 ∧
    (s.busy = false → ∀ v, hostWrite s .w32 0x004#17 v = .ok s)

/-- R32 and R33: reserved offsets read 0 and ignore writes; STATUS, CAP and RESULT ignore writes; CMD reads 0. -/
def Obligations.ReservedAndReadOnlyRegistersIgnoreWrites : Prop :=
  ∀ (s : State) (a : Address) (v : Word), s.busy = false → a.toNat % 4 = 0 →
    ((a = 0x01C#17 ∨ (0x048#17 ≤ a ∧ a ≤ 0xFFC#17)) → hostRead s .w32 a = .ok 0#32 ∧ hostWrite s .w32 a v = .ok s) ∧
      ((a = 0x004#17 ∨ a = 0x008#17 ∨ a = 0x00C#17) → hostWrite s .w32 a v = .ok s) ∧
      hostRead s .w32 0x000#17 = .ok 0#32

/-- Derived from R27 to R31 and R71: RESULT, OUTCAP, RSTART, RCOUNT and QSHIFTq are read at their offsets; any value written
to OUTCAP, RSTART or RCOUNT is read back unchanged, a value written to QSHIFTq is read back as its low byte, and nothing else
changes. -/
def Obligations.OperandRegistersReadBack : Prop :=
  ∀ (s : State) (v : Word), s.busy = false →
    hostRead s .w32 0x00C#17 = .ok s.result ∧ hostRead s .w32 0x010#17 = .ok s.outcap ∧
    hostRead s .w32 0x014#17 = .ok s.rstart ∧ hostRead s .w32 0x018#17 = .ok s.rcount ∧
    (∀ q : Fin 10, hostRead s .w32 (BitVec.ofNat 17 (0x020 + 4 * q.val)) = .ok (s.qshift[q].setWidth 32)) ∧
    (∃ t, hostWrite s .w32 0x010#17 v = .ok t ∧ t = { s with outcap := v } ∧ hostRead t .w32 0x010#17 = .ok v) ∧
      (∃ t, hostWrite s .w32 0x014#17 v = .ok t ∧ t = { s with rstart := v } ∧ hostRead t .w32 0x014#17 = .ok v) ∧
      (∃ t, hostWrite s .w32 0x018#17 v = .ok t ∧ t = { s with rcount := v } ∧ hostRead t .w32 0x018#17 = .ok v) ∧
      ∀ q : Fin 10, ∃ t, hostWrite s .w32 (BitVec.ofNat 17 (0x020 + 4 * q.val)) v = .ok t ∧
        t = { s with qshift := s.qshift.set q (v.setWidth 8) } ∧
        hostRead t .w32 (BitVec.ofNat 17 (0x020 + 4 * q.val)) = .ok (v &&& 0xFF#32)

/-- Derived from R26 and R253: CAP reads its level in bits 1:0 (0 scalar, 1 level-2, 2 level-4.1, never 3), the other bits
0, and no step changes what it reads. -/
def Obligations.CapabilityNeverChanges : Prop :=
  (∀ s : State, s.busy = false → ∃ w : Word, hostRead s .w32 0x008#17 = .ok w ∧ w.extractLsb' 2 30 = 0#30 ∧
    w.extractLsb' 0 2 = (match s.params.capLevel with | .scalar => 0#2 | .level2 => 1#2 | .level41 => 2#2) ∧
    w.extractLsb' 0 2 ≠ 3#2) ∧
  ∀ s t : State, step s = .next t → t.params = s.params ∧ capWord t = capWord s

/-! ### The host bus -/

/-- R62: an access that touches a byte of an unmapped range is a host bus fault, and answers neither a value nor a state.
Which of the fault names it carries when it meets other cases too is the model's choice (log entry 9); an aligned access
that lies in unmapped ranges with BUSY = 0 meets no other, and carries that of case 1 of R227. -/
def Obligations.UnmappedAccessFaults : Prop :=
  ∀ (s : State) (w : Width) (a : Address) (v : Word),
    let unmapped := fun x : Nat => (0x04000 ≤ x ∧ x ≤ 0x0FFFF) ∨ (0x10000 + s.params.outBytes ≤ x ∧ x ≤ 0x1FFFF)
    ((∃ i < byteCount w, unmapped (a.toNat + i)) → ∃ f g, hostRead s w a = .error f ∧ hostWrite s w a v = .error g) ∧
      ((∀ i < byteCount w, unmapped (a.toNat + i)) → a.toNat % byteCount w = 0 → s.busy = false →
        hostRead s w a = .error .unmappedAddress ∧ hostWrite s w a v = .error .unmappedAddress)

/-- R67: an access at an address that is no multiple of its width is a host bus fault, never split, and answers neither a
value nor a state. Which of the fault names it carries when it meets other cases too is the model's choice (log entry 9); a
write inside storage with BUSY = 0 meets no other, and carries the name of a misaligned access. -/
def Obligations.MisalignedAccessFaults : Prop :=
  ∀ (s : State) (w : Width) (a : Address) (v : Word), a.toNat % byteCount w ≠ 0 →
    (∃ f g, hostRead s w a = .error f ∧ hostWrite s w a v = .error g) ∧
      ((∀ i < byteCount w, inStorage s.params.outBytes (a.toNat + i) = true) → s.busy = false →
        hostWrite s w a v = .error .misalignedAccess)

/-- R66: the register window takes 4-byte accesses and no others; PIX, COEF and OUT take 1, 2 and 4 bytes; a 4-byte COEF access
moves two elements; an access whose bytes span two regions is a host bus fault. -/
def Obligations.WindowsTakeTheirWidths : Prop :=
  (∀ (s : State) (w : Width) (a : Address) (v : Word), a.toNat < 0x1000 → w ≠ .w32 →
    ∃ f g, hostRead s w a = .error f ∧ hostWrite s w a v = .error g) ∧
  (∀ (s : State) (a : Address) (v : Word), s.busy = false → a.toNat < 0x1000 → a.toNat % 4 = 0 →
    ∃ u t, hostRead s .w32 a = .ok u ∧ hostWrite s .w32 a v = .ok t) ∧
  (∀ (s : State) (w : Width) (a : Address) (v : Word), s.busy = false → a.toNat % byteCount w = 0 →
    (∀ i < byteCount w, inStorage s.params.outBytes (a.toNat + i) = true) →
    (∃ t, hostWrite s w a v = .ok t) ∧
      ((∀ i < byteCount w, (lookup s.mem (a.toNat + i)).isSome) → Memory.wf s.mem → ∃ u, hostRead s w a = .ok u)) ∧
  (∀ (s : State) (m : Nat) (v : Word), s.busy = false → m < 2048 →
    ∃ t, hostWrite s .w32 (BitVec.ofNat 17 (0x02000 + 4 * m)) v = .ok t ∧
      coefAt t (2 * m) = some (v.extractLsb' 0 16) ∧ coefAt t (2 * m + 1) = some (v.extractLsb' 16 16)) ∧
  (∀ (s : State) (m : Nat) (x y : HalfWord), s.busy = false → m < 2048 → Memory.wf s.mem →
    coefAt s (2 * m) = some x → coefAt s (2 * m + 1) = some y →
    hostRead s .w32 (BitVec.ofNat 17 (0x02000 + 4 * m)) = .ok (y ++ x)) ∧
  (∀ (s : State) (w : Width) (a : Address) (v : Word) (i j : Nat), i < byteCount w → j < byteCount w →
    regionOf s.params.outBytes (a.toNat + i) ≠ regionOf s.params.outBytes (a.toNat + j) →
    ∃ f g, hostRead s w a = .error f ∧ hostWrite s w a v = .error g)

/-- R76: while BUSY = 1 every host access but a read of STATUS is a host fault, and that read gives STATUS. -/
def Obligations.BusyBlockAnswersOnlyStatusReads : Prop :=
  ∀ s : State, s.busy = true →
    (∀ (w : Width) (a : Address) (v : Word), ∃ f, hostWrite s w a v = .error f) ∧
      (∀ (w : Width) (a : Address), ¬ (w = .w32 ∧ a = 0x004#17) → ∃ f, hostRead s w a = .error f) ∧
      hostRead s .w32 0x004#17 = .ok (statusWord s)

/-- Derived from R63 to R65: a write to storage is read back little-endian and zero-extended, marks its bytes, and
changes no other byte and no register. -/
def Obligations.StorageReadsBackWhatWasWritten : Prop :=
  ∀ (s t : State) (w : Width) (a : Address) (v : Word), Memory.wf s.mem → 0x1000 ≤ a.toNat →
    hostWrite s w a v = .ok t →
    hostRead t w a = .ok (v &&& (match w with | .w8 => 0xFF#32 | .w16 => 0xFFFF#32 | .w32 => 0xFFFFFFFF#32)) ∧
      (∀ i < byteCount w, lookup t.mem (a.toNat + i) = some (v.extractLsb' (8 * i) 8)) ∧
      MemSameOutside s t a.toNat (byteCount w) ∧ t = { s with mem := t.mem }

/-- Derived from R72: repeating a permitted write other than one to CMD leaves the same state. -/
def Obligations.RepeatedWritesAreIdempotent : Prop :=
  ∀ (s t : State) (w : Width) (a : Address) (v : Word), a ≠ 0x000#17 → hostWrite s w a v = .ok t →
    hostWrite t w a v = .ok t

/-- Derived from R103: for storage, both expansions of `fill8` leave the same state, whose bytes A..A+N-1 are V. -/
def Obligations.FillExpansionsAgree : Prop :=
  ∀ (s : State) (a : Address) (n : Nat) (v : Byte), s.busy = false → Memory.wf s.mem →
    a.toNat % 4 = 0 → n % 4 = 0 → (∀ i < n, inStorage s.params.outBytes (a.toNat + i) = true) →
    a.toNat + n ≤ 0x20000 →
    ∃ t, performWrites s (fillWords a n v) = .ok t ∧ performWrites s (fillBytes a n v) = .ok t ∧
      (∀ i < n, lookup t.mem (a.toNat + i) = some v) ∧ MemSameOutside s t a.toNat n

/-! ### The DWT engine -/

/-- Derived from R126 (marked by the spec as derived from R123 and R124): the two 1D transforms agree on every input. -/
def Obligations.TransformVariantsAgree : Prop :=
  ∀ xs : List HalfWord, xs.length = 64 ∨ xs.length = 33 ∨ xs.length = 17 → tStd xs = tRe xs

/-- Derived from R134's corner case ("For every PIX, COEF after DWT.RE equals COEF after DWT.STD"): where one command
completes, so does the other, with the same storage. -/
def Obligations.DwtCommandsLeaveTheSameCoefficients : Prop :=
  ∀ s t : State,
    (exec .dwtStd s = .next t → ∃ u, exec .dwtRe s = .next u ∧ u.mem = t.mem) ∧
      (exec .dwtRe s = .next t → ∃ u, exec .dwtStd s = .next u ∧ u.mem = t.mem)

/-- Derived from R135 and R136: the vertical pass of every datapath stores what R128 stores, for every number of lanes and
every level input. That the lanes are adjacent columns is the model's choice (log entry 14). -/
def Obligations.VectorDatapathMatchesScalar : Prop :=
  ∀ (c : CapLevel) (lanes : Nat) (t : Variant) (n : Nat) (a : List (List HalfWord)),
    0 < lanes → (n = 64 ∨ n = 33 ∨ n = 17) → a.length = n → (∀ row ∈ a, row.length = n) →
    datapathVerticalPass c lanes t n a = verticalPass t n a

/-- Derived from R127: a high-pass value of int16 samples fits its cell, so storing it loses nothing. -/
def Obligations.HighPassFitsItsCell : Prop :=
  ∀ (x : Nat → HalfWord) (n : Nat), (wrap16 (highPass (fun i => (x i).toInt) n)).toInt = highPass (fun i => (x i).toInt) n

/-- Derived from R133, R134 and R137: with every pixel written, both DWT commands complete; COEF holds the three-level
transform of PIX, ERR is OK, BUSY is clear and RESULT is unchanged. -/
def Obligations.DwtCommandsWriteTheTransform : Prop :=
  ∀ (s : State) (pix : List Byte), Memory.wf s.mem → pix.length = 4096 → (∀ i < 4096, pixAt s i = pix[i]?) →
    (∃ t, exec .dwtStd s = .next t ∧ (∀ i < 4096, coefAt t i = (dwtCoefs .std s.params.dwtScale pix)[i]?) ∧
      (∀ i < 4096, (coefAt t i).isSome) ∧ t.err = .ok ∧ t.busy = false ∧ t.result = s.result) ∧
      (∃ t, exec .dwtRe s = .next t ∧ (∀ i < 4096, coefAt t i = (dwtCoefs .re s.params.dwtScale pix)[i]?) ∧
        (∀ i < 4096, (coefAt t i).isSome) ∧ t.err = .ok ∧ t.busy = false ∧ t.result = s.result)

/-- Derived from R81 and R137, the frame of DWT.STD and DWT.RE: nothing but COEF, SCRATCH, ERR and BUSY changes; every
byte outside the COEF window reads as before. -/
def Obligations.DwtFrame : Prop :=
  ∀ (i : Instr) (s t : State), (i = .dwtStd ∨ i = .dwtRe) → exec i s = .next t →
    OperandsSame s t ∧ t.result = s.result ∧ t.waited = s.waited ∧ MemSameOutside s t (coefAddr 0) 8192

/-- Derived from R133's corner case: a constant block gives LL3 all (p - 128) * DWT_SCALE and every other subband 0. -/
def Obligations.ConstantBlockHasOnlyItsMean : Prop :=
  ∀ (s : State) (p : Byte), Memory.wf s.mem → (∀ i < 4096, pixAt s i = some p) →
    ∀ i, (i = .dwtStd ∨ i = .dwtRe) → ∃ t, exec i s = .next t ∧
      (∀ k < 4015, coefAt t k = some 0#16) ∧
      (∀ k, 4015 ≤ k → k < 4096 → coefAt t k = some (wrap16 (((p.toNat : Int) - 128) * s.params.dwtScale)))

/-! ### QUANT and DIFF -/

/-- Derived from R161 (its ranges marked by the spec as derived from it): both roundings, the ranges of their results, and that the re-application law holds for floor and fails for
half_up (V-QUANT-3's case: 1 shifted by 1 twice, and by 2). -/
def Obligations.QuantizeFollowsItsRounding : Prop :=
  (∀ (v : HalfWord) (k : Nat), k ≤ 15 →
    (quantize .floor v k).toInt = v.toInt >>> k ∧
      -(2 ^ (15 - k) : Int) ≤ (quantize .floor v k).toInt ∧ (quantize .floor v k).toInt ≤ 2 ^ (15 - k) - 1 ∧
      quantize .halfUp v 0 = v ∧
      (1 ≤ k → (quantize .halfUp v k).toInt = (v.toInt + 2 ^ (k - 1)) >>> k ∧ v.toInt + 2 ^ (k - 1) ≤ 32767 + 16384 ∧
        (quantize .halfUp v k).toInt ≤ 24575)) ∧
  (∀ (v : HalfWord) (a b : Nat), a ≤ 15 → b ≤ 15 →
    (quantize .floor (quantize .floor v a) b).toInt = v.toInt >>> (a + b)) ∧
  quantize .halfUp (quantize .halfUp 1#16 1) 1 ≠ quantize .halfUp 1#16 2

/-- R162: a shift above 15 ends QUANT with INVALID_PARAMETER and nothing else changes, whether or not COEF is written. -/
def Obligations.QuantRejectsShiftsAboveFifteen : Prop :=
  ∀ (s : State) (b : Subband), 15 < shiftOf s b →
    exec .quant s = .next { s with err := .invalidParameter, busy := false }

/-- Derived from R160: with legal shifts and COEF written, QUANT completes with OK; every element of every subband is
quantized by that subband's shift; RESULT is unchanged. -/
def Obligations.QuantShiftsEverySubband : Prop :=
  ∀ s : State, Memory.wf s.mem → (∀ b, shiftOf s b ≤ 15) → CoefWritten s 0 4096 →
    ∃ t, exec .quant s = .next t ∧ t.err = .ok ∧ t.busy = false ∧ t.result = s.result ∧
      ∀ b k, k < bandSize b →
        coefAt t (bandOffset b + k) =
          (coefAt s (bandOffset b + k)).map fun v => quantize s.params.quantRounding v (shiftOf s b)

/-- Derived from R163 (marked by the spec as derived from R161): under floor rounding, two QUANT commands with shift sets a
and b leave each coefficient v of subband q equal to v >> (a_q + b_q), which is 0 or -1 when a_q + b_q is at least 15. -/
def Obligations.RepeatedQuantAddsTheShifts : Prop :=
  ∀ (s t u : State) (shifts : Vector Byte 10), Memory.wf s.mem → s.params.quantRounding = .floor →
    (∀ b, shiftOf s b ≤ 15) → (∀ b, shiftOf { s with qshift := shifts } b ≤ 15) →
    exec .quant s = .next t → exec .quant { t with qshift := shifts } = .next u →
    ∀ (b : Subband) (k : Nat) (v : HalfWord), k < bandSize b → coefAt s (bandOffset b + k) = some v →
      ∃ v', coefAt u (bandOffset b + k) = some v' ∧
        v'.toInt = v.toInt >>> (shiftOf s b + shiftOf { s with qshift := shifts } b) ∧
        (15 ≤ shiftOf s b + shiftOf { s with qshift := shifts } b → v'.toInt = if 0 ≤ v.toInt then 0 else -1)

/-- R167: DIFF with SB in 10..15 ends with INVALID_PARAMETER and writes no coefficient, whether or not COEF is written. -/
def Obligations.DiffRejectsSubbandsTenToFifteen : Prop :=
  ∀ (s : State) (sb : Nat), 10 ≤ sb → sb ≤ 15 →
    exec (.diff sb) s = .next { s with err := .invalidParameter, busy := false }

/-- Derived from R164 and R165: with its subband written, DIFF completes with OK; the first coefficient stays, every other
one becomes wrap16 of its difference from the previous original one; RESULT is unchanged. -/
def Obligations.DiffWritesTheDifferences : Prop :=
  ∀ (s : State) (b : Subband), Memory.wf s.mem → CoefWritten s (bandOffset b) (bandSize b) →
    ∃ t, exec (.diff (quantIndex b)) s = .next t ∧ t.err = .ok ∧ t.busy = false ∧ t.result = s.result ∧
      coefAt t (bandOffset b) = coefAt s (bandOffset b) ∧
      ∀ i x y, 1 ≤ i → i < bandSize b → coefAt s (bandOffset b + i) = some x →
        coefAt s (bandOffset b + (i - 1)) = some y →
        coefAt t (bandOffset b + i) = some (wrap16 (x.toInt - y.toInt))

/-- Derived from R166 (marked by the spec as derived from R165): the prefix sum modulo 2^16 of a subband after DIFF is the
subband before it. -/
def Obligations.DiffPrefixSumRestoresTheSubband : Prop :=
  ∀ (s t : State) (b : Subband) (old : List HalfWord), Memory.wf s.mem →
    readCoefs s (bandOffset b) (bandSize b) = some old → exec (.diff (quantIndex b)) s = .next t →
    ∃ new, readCoefs t (bandOffset b) (bandSize b) = some new ∧
      ∀ i v, old[i]? = some v → v = (new.take (i + 1)).foldl (fun acc d => wrap16 (acc.toInt + d.toInt)) 0#16

/-- Derived from R81, R160 and R164, the frame of QUANT and DIFF: nothing but COEF, ERR and BUSY changes; QUANT stores in
the COEF window only, DIFF in its own subband only. -/
def Obligations.QuantAndDiffFrame : Prop :=
  (∀ s t : State, exec .quant s = .next t →
    OperandsSame s t ∧ t.result = s.result ∧ t.scratch = s.scratch ∧ t.oracle = s.oracle ∧ t.waited = s.waited ∧
      MemSameOutside s t (coefAddr 0) 8192) ∧
  (∀ (s t : State) (sb : Nat), exec (.diff sb) s = .next t →
    OperandsSame s t ∧ t.result = s.result ∧ t.scratch = s.scratch ∧ t.oracle = s.oracle ∧ t.waited = s.waited ∧
      (subbandOfIndex sb = none → t.mem = s.mem) ∧
      ∀ b, subbandOfIndex sb = some b → MemSameOutside s t (coefAddr (bandOffset b)) (2 * bandSize b))

/-! ### RLGR -/

/-- R200: an empty range, a range beyond COEF (on the exact sum), or an OUTCAP beyond OUT ends the command with RESULT 0
and INVALID_PARAMETER before any read of COEF, with OUT unchanged; every other range of written coefficients is coded,
whether or not it is one subband. -/
def Obligations.RlgrValidatesItsRange : Prop :=
  ∀ (i : Instr) (s : State), (i = .rlgr1 ∨ i = .rlgr3) →
    ((s.rcount.toNat = 0 ∨ 4096 < s.rstart.toNat + s.rcount.toNat ∨ s.params.outBytes < s.outcap.toNat) →
      exec i s = .next { s with result := 0#32, err := .invalidParameter, busy := false }) ∧
    (¬ (s.rcount.toNat = 0 ∨ 4096 < s.rstart.toNat + s.rcount.toNat ∨ s.params.outBytes < s.outcap.toNat) →
      Memory.wf s.mem → CoefWritten s s.rstart.toNat s.rcount.toNat →
      ∃ t, exec i s = .next t ∧ (t.err = .ok ∨ t.err = .capacityExceeded))

/-- R197, for RLGR1 and RLGR3: with validation passed and the range written, the packed stream of len bytes is stored and
RESULT is len when len is at most OUTCAP, the rest of OUT[0..OUTCAP-1] losing its marks; otherwise RESULT is 0, all of
OUT[0..OUTCAP-1] loses its marks, so that a read of it faults, and ERR is CAPACITY_EXCEEDED. OUT from OUTCAP on is untouched. -/
def Obligations.RlgrStoresAllOrNothing : Prop :=
  ∀ (s : State) (xs : List HalfWord), Memory.wf s.mem → s.rcount.toNat ≠ 0 →
    s.rstart.toNat + s.rcount.toNat ≤ 4096 → s.outcap.toNat ≤ s.params.outBytes → s.params.outBytes ≤ 65536 →
    xs.length = s.rcount.toNat → (∀ k < xs.length, coefAt s (s.rstart.toNat + k) = xs[k]?) →
    ∀ i m p, (i = .rlgr1 ∧ m = .one ∧ p = s.params.rlgr1Profile) ∨ (i = .rlgr3 ∧ m = .three ∧ p = s.params.rlgr3Profile) →
      let stream := packBits (rlgrEncode m p xs)
      ∃ t, exec i s = .next t ∧ t.busy = false ∧
        (∀ j, s.outcap.toNat ≤ j → outAt t j = outAt s j) ∧
        (s.outcap.toNat < stream.length →
          t.result = 0#32 ∧ t.err = .capacityExceeded ∧ (∀ j < s.outcap.toNat, outAt t j = none) ∧
            ∀ j < s.outcap.toNat, hostRead t .w8 (BitVec.ofNat 17 (outAddr j)) = .error .unwrittenRead) ∧
        (stream.length ≤ s.outcap.toNat →
          t.result.toNat = stream.length ∧ t.err = .ok ∧ (∀ j < stream.length, outAt t j = stream[j]?) ∧
            ∀ j, stream.length ≤ j → j < s.outcap.toNat → outAt t j = none)

/-- R82, for every command: OUT[j] with j at or beyond OUTCAP is never written, whatever the outcome. With it, derived from
R199, the frame of RLGR1 and RLGR3: they change no COEF element, nor PIX, QSHIFT, SCRATCH, RSTART, RCOUNT or OUTCAP, and
write only OUT[0..OUTCAP-1], RESULT and STATUS. -/
def Obligations.RlgrFrame : Prop :=
  (∀ (i : Instr) (s t : State), exec i s = .next t → ∀ j, s.outcap.toNat ≤ j → outAt t j = outAt s j) ∧
  ∀ (i : Instr) (s t : State), (i = .rlgr1 ∨ i = .rlgr3) → exec i s = .next t →
    OperandsSame s t ∧ t.scratch = s.scratch ∧ t.oracle = s.oracle ∧ t.waited = s.waited ∧
      (∀ k < 4096, coefAt t k = coefAt s k) ∧ (∀ k < 4096, pixAt t k = pixAt s k) ∧
      MemSameOutside s t outBase s.outcap.toNat

/-- R187: sign folding, its values and its inverse; it maps int16 one-to-one onto 0..65535. -/
def Obligations.SignFoldingIsOneToOne : Prop :=
  (∀ v : HalfWord, ((0 ≤ v.toInt → (twoMs v : Int) = 2 * v.toInt) ∧ (v.toInt < 0 → (twoMs v : Int) = -2 * v.toInt - 1)) ∧
    twoMs v ≤ 65535 ∧ unfoldSign (twoMs v) = v) ∧
  (∀ n : Nat, n ≤ 65535 → twoMs (unfoldSign n) = n ∧
    (n % 2 = 0 → (unfoldSign n).toInt = n / 2) ∧ (n % 2 = 1 → (unfoldSign n).toInt = -((n + 1) / 2 : Nat))) ∧
  twoMs (wrap16 0) = 0 ∧ twoMs (wrap16 (-1)) = 1 ∧ twoMs (wrap16 1) = 2 ∧ twoMs (wrap16 (-32768)) = 65535 ∧
    twoMs (wrap16 32767) = 65534

/-- R188: min_bits is the length of the binary form. -/
def Obligations.MinBitsIsTheBinaryLength : Prop :=
  minBits 0 = 0 ∧ (∀ v : Nat, v ≠ 0 → minBits v = Nat.log2 v + 1 ∧ 2 ^ (minBits v - 1) ≤ v ∧ v < 2 ^ minBits v) ∧
    minBits 1 = 1 ∧ minBits 6 = 3 ∧ minBits 131070 = 17

/-- R190: bit i of B goes to byte i >> 3 at bit position 7 - (i & 7), the last byte is filled with 0 bits, and there are as
many bytes as the bits need; the rule's two examples. -/
def Obligations.PackingPlacesEveryBit : Prop :=
  (∀ bits : List Bool, (packBits bits).length = (bits.length + 7) / 8 ∧
    ∀ i, i < 8 * (packBits bits).length →
      ((packBits bits)[i / 8]?.map fun b => b.getLsbD (7 - i % 8)) = some (bits.getD i false)) ∧
  packBits [true, false, false, false, false] = [0x80#8] ∧
  packBits [true, false, false, true, false, false, true, false, true, false, false, false, false, true, true, false,
    false] = [0x92#8, 0x86#8, 0x00#8]

/-- Derived from R192 ("Every pass through the loop reads at least one element and emits at least one bit"), R189 and
R196: so the stream is never empty, whatever the profile. -/
def Obligations.EveryPassReadsAndEmits : Prop :=
  (∀ (m : RlgrMode) (p : Profile) (st : Adaptive) (xs : List HalfWord), xs ≠ [] →
    (onePass m p st xs).rest.length < xs.length ∧ 1 ≤ (onePass m p st xs).bits.length) ∧
  ∀ (m : RlgrMode) (p : Profile) (xs : List HalfWord), xs ≠ [] → 1 ≤ (packBits (rlgrEncode m p xs)).length

/-- Derived from R39 and R182: with a legal profile the adaptive state starts in 0..KPMAX and every pass keeps it there,
and k and kr never exceed 15. -/
def Obligations.AdaptiveParametersStayInRange : Prop :=
  ∀ p : Profile, p.legal = true →
    ((adaptiveStart p).kp ≤ p.kpmax ∧ (adaptiveStart p).krp ≤ p.kpmax) ∧
    (∀ (m : RlgrMode) (st : Adaptive) (xs : List HalfWord), st.kp ≤ p.kpmax → st.krp ≤ p.kpmax →
      (onePass m p st xs).adapt.kp ≤ p.kpmax ∧ (onePass m p st xs).adapt.krp ≤ p.kpmax) ∧
    ∀ x, x ≤ p.kpmax → runParam p x ≤ 15 ∧ riceParam p x ≤ 15

/-- R191's length sentence ("The code takes vk + 1 + kr bits") and the decoding of R201: derived. A decoder reads back the
coded value, whatever bits follow, and both sides then hold the same parameter. -/
def Obligations.GolombRiceCodeIsDecodable : Prop :=
  ∀ (p : Profile) (krp val : Nat) (rest : List Bool),
    (codeGrBits p krp val).length = (val >>> riceParam p krp) + 1 + riceParam p krp ∧
      decodeGr p krp (codeGrBits p krp val ++ rest) = (val, rest)

/-- Derived from R198 and R201 (both marked by the spec as derived): whatever bits follow, the reference decoder reads back
every input from its stream, but for a last element 0 that run mode consumed, and then it reads that element as 1. -/
def Obligations.DecoderInvertsTheEncoder : Prop :=
  ∀ (m : RlgrMode) (p : Profile) (xs : List HalfWord) (rest : List Bool),
    rlgrDecode m p xs.length (rlgrEncode m p xs ++ rest) =
      if xs.getLast? = some 0#16 ∧ endsInRun m p xs = true then xs.dropLast ++ [1#16] else xs

/-- Derived from R198 (marked by the spec as derived): where run mode is entered with only zeros left, the last zero is
coded as a 1 would be. -/
def Obligations.TrailingZeroIsCodedAsOne : Prop :=
  ∀ (m : RlgrMode) (p : Profile) (st : Adaptive) (n fuel : Nat), runParam p st.kp ≠ 0 →
    encodeLoop m p fuel st (List.replicate (n + 1) 0#16) = encodeLoop m p fuel st (List.replicate n 0#16 ++ [1#16])

/-- Derived from R262 and R199: after CAPACITY_EXCEEDED, the same command with OUTCAP raised to the stream's length or more
stores the same stream. -/
def Obligations.CapacityRetryStoresTheStream : Prop :=
  ∀ (s t : State) (xs : List HalfWord) (cap : Word), Memory.wf s.mem → s.params.outBytes ≤ 65536 →
    rlgrInput s = some xs → cap.toNat ≤ s.params.outBytes →
    ∀ i m p, (i = .rlgr1 ∧ m = .one ∧ p = s.params.rlgr1Profile) ∨ (i = .rlgr3 ∧ m = .three ∧ p = s.params.rlgr3Profile) →
      exec i s = .next t → t.err = .capacityExceeded → (packBits (rlgrEncode m p xs)).length ≤ cap.toNat →
      ∃ u, exec i { t with outcap := cap } = .next u ∧ u.err = .ok ∧
        u.result.toNat = (packBits (rlgrEncode m p xs)).length ∧
        ∀ j < (packBits (rlgrEncode m p xs)).length, outAt u j = (packBits (rlgrEncode m p xs))[j]?

/-! ### All commands, and the whole machine -/

/-- Derived from R42, R64 and R227 case 4, with R225's order: a command that reads an element whose mark is clear has outcome
Fault, whatever OUTCAP is; so has an otherwise permitted host read that touches a byte of storage whose mark is clear. -/
def Obligations.UnwrittenStorageFaultsTheCommand : Prop :=
  (∀ s : State, Memory.wf s.mem → ∀ i < 4096, pixAt s i = none →
    exec .dwtStd s = .fault .unwrittenRead ∧ exec .dwtRe s = .fault .unwrittenRead) ∧
  (∀ s : State, Memory.wf s.mem → (∀ b, shiftOf s b ≤ 15) → ∀ i < 4096, coefAt s i = none →
    exec .quant s = .fault .unwrittenRead) ∧
  (∀ (s : State) (b : Subband), Memory.wf s.mem → ∀ k < bandSize b, coefAt s (bandOffset b + k) = none →
    exec (.diff (quantIndex b)) s = .fault .unwrittenRead) ∧
  (∀ s : State, Memory.wf s.mem → s.rstart.toNat + s.rcount.toNat ≤ 4096 → s.outcap.toNat ≤ s.params.outBytes →
    ∀ k < s.rcount.toNat, coefAt s (s.rstart.toNat + k) = none →
    exec .rlgr1 s = .fault .unwrittenRead ∧ exec .rlgr3 s = .fault .unwrittenRead) ∧
  (∀ (s : State) (w : Width) (a : Address), Memory.wf s.mem → s.busy = false → a.toNat % byteCount w = 0 →
    (∀ i < byteCount w, inStorage s.params.outBytes (a.toNat + i) = true) →
    (∃ i < byteCount w, lookup s.mem (a.toNat + i) = none) → hostRead s w a = .error .unwrittenRead)

/-- Derived from R224 and R220: a completing command clears BUSY, keeps its operands, never reports ILLEGAL_COMMAND, and
when it fails changes only what the table of R224 names. -/
def Obligations.FailedCommandsChangeOnlyTheirStatus : Prop :=
  ∀ (i : Instr) (s t : State), exec i s = .next t →
    t.busy = false ∧ OperandsSame s t ∧ t.err ≠ .illegalCommand ∧
    (t.err = .invalidParameter →
      t.mem = s.mem ∧ t.scratch = s.scratch ∧ i ≠ .dwtStd ∧ i ≠ .dwtRe ∧
        t.result = if i = .rlgr1 ∨ i = .rlgr3 then 0#32 else s.result) ∧
    (t.err = .capacityExceeded →
      (i = .rlgr1 ∨ i = .rlgr3) ∧ t.result = 0#32 ∧ t.scratch = s.scratch ∧
        MemSameOutside s t outBase s.outcap.toNat ∧ ∀ j < s.outcap.toNat, outAt t j = none)

/-- Derived from R81 ("Each command reads and writes only the state in this table"): RLGR results depend on nothing but
the range, the capacity, the coefficients coded and the parameters. -/
def Obligations.RlgrReadsOnlyItsOperands : Prop :=
  ∀ (i : Instr) (s s' t : State), (i = .rlgr1 ∨ i = .rlgr3) → Memory.wf s.mem → Memory.wf s'.mem →
    s'.params = s.params → s'.rstart = s.rstart → s'.rcount = s.rcount → s'.outcap = s.outcap →
    (∀ k < s.rcount.toNat, coefAt s' (s.rstart.toNat + k) = coefAt s (s.rstart.toNat + k)) →
    exec i s = .next t →
    ∃ t', exec i s' = .next t' ∧ t'.err = t.err ∧ t'.result = t.result ∧
      (t.err ≠ .invalidParameter → ∀ j < s.outcap.toNat, outAt t' j = outAt t j)

/-- Derived from R81: a DWT command's coefficients depend on nothing but PIX and DWT_SCALE. -/
def Obligations.DwtReadsOnlyThePixels : Prop :=
  ∀ (i : Instr) (s s' t : State), (i = .dwtStd ∨ i = .dwtRe) → Memory.wf s.mem → Memory.wf s'.mem →
    s'.params.dwtScale = s.params.dwtScale → (∀ k < 4096, pixAt s' k = pixAt s k) → exec i s = .next t →
    ∃ t', exec i s' = .next t' ∧ ∀ k < 4096, coefAt t' k = coefAt t k

/-- Derived: every reset state of legal parameters meets the machine's invariant. -/
def Obligations.ResetMeetsTheInvariant : Prop := ∀ p : Params, p.legal = true → (State.resetWith p).Inv

/-- Derived from R6, R23, R27, R36, R61 and R65: every step, of the engine or of the host, keeps the machine's invariant
(Safety.lean): legal parameters, storage in canonical form and inside the map, SCRATCH of 4096 elements, LASTOP the low
byte of PEND, RESULT at most OUT_BYTES, the host's variables in canonical form. -/
def Obligations.StepKeepsTheInvariant : Prop := ∀ s t : State, s.Inv → step s = .next t → t.Inv
end

