-- ==== Sys2Proof/Laws/Dwt.lean ====
section
/-! SUPPORT. The sizes of the DWT's intermediate results (R125, R129, R130). -/

namespace Sys2Proof.Machine

/-- A list of `h` rows of `w` cells. -/
def IsGrid (rows : List (List HalfWord)) (h w : Nat) : Prop := rows.length = h ∧ ∀ r ∈ rows, r.length = w

theorem IsGrid.flatten_length {rows : List (List HalfWord)} {h w : Nat} (hg : IsGrid rows h w) :
    rows.flatten.length = h * w := by
  obtain ⟨rfl, hw⟩ := hg
  induction rows with
  | nil => simp
  | cons r rest ih =>
    have h1 := hw r (by simp)
    have h2 := ih fun x hx => hw x (by simp [hx])
    simp only [List.flatten_cons, List.length_append, List.length_cons, h1, h2, Nat.succ_mul]
    omega

theorem stdExtension_length (xs : List Int) :
    (stdExtension xs).length = if xs.length % 2 = 0 then xs.length + 3 else xs.length + 2 := by
  unfold stdExtension
  split <;> simp_all

/-- The output counts of one 1D pass (R125), both variants. -/
theorem transform_length (t : Variant) (xs : List HalfWord) (h : 2 ≤ xs.length) :
    (transform t xs).1.length = lowCount xs.length ∧
      (transform t xs).2.length = xs.length - lowCount xs.length := by
  cases t with
  | std =>
    simp only [transform, tStd, List.length_map, List.length_range, stdExtension_length, lowCount]
    split <;> omega
  | re =>
    simp only [transform, tRe, lowCount]
    split <;> simp <;> omega

theorem columns_grid (n : Nat) (rows : List (List HalfWord)) : IsGrid (columns n rows) n rows.length := by
  refine ⟨by simp [columns], fun r hr => ?_⟩
  obtain ⟨c, _, rfl⟩ := List.mem_map.mp hr
  simp [column]

theorem verticalPass_grid (t : Variant) (n : Nat) (a : List (List HalfWord)) : IsGrid (verticalPass t n a) n n := by
  have := columns_grid n ((columns n a).map fun x => (transform t x).1 ++ (transform t x).2)
  rwa [List.length_map, (columns_grid n a).1] at this

/-- The sizes of a level's subbands (R129). -/
theorem dwtLevel_grids (t : Variant) (n : Nat) (a : List (List HalfWord)) (hn : 2 ≤ n) :
    IsGrid (dwtLevel t n a).ll (lowCount n) (lowCount n) ∧
      IsGrid (dwtLevel t n a).hl (lowCount n) (n - lowCount n) ∧
      IsGrid (dwtLevel t n a).lh (n - lowCount n) (lowCount n) ∧
      IsGrid (dwtLevel t n a).hh (n - lowCount n) (n - lowCount n) := by
  have hv := verticalPass_grid t n a
  have hlow : lowCount n ≤ n := by unfold lowCount; omega
  have key : ∀ r ∈ (verticalPass t n a).map (transform t), r.1.length = lowCount n ∧
      r.2.length = n - lowCount n := by
    intro r hr
    obtain ⟨x, hx, rfl⟩ := List.mem_map.mp hr
    have hlen := hv.2 x hx
    have := transform_length t x (by omega)
    rwa [hlen] at this
  have ktake : ∀ r ∈ ((verticalPass t n a).map (transform t)).take (lowCount n),
      r.1.length = lowCount n ∧ r.2.length = n - lowCount n := fun r hr => key r (List.mem_of_mem_take hr)
  have kdrop : ∀ r ∈ ((verticalPass t n a).map (transform t)).drop (lowCount n),
      r.1.length = lowCount n ∧ r.2.length = n - lowCount n := fun r hr => key r (List.mem_of_mem_drop hr)
  simp only [dwtLevel, horizontalPass]
  refine ⟨⟨?_, ?_⟩, ⟨?_, ?_⟩, ⟨?_, ?_⟩, ⟨?_, ?_⟩⟩
  · simp [hv.1, hlow]
  · intro r hr
    obtain ⟨x, hx, rfl⟩ := List.mem_map.mp hr
    exact (ktake x hx).1
  · simp [hv.1, hlow]
  · intro r hr
    obtain ⟨x, hx, rfl⟩ := List.mem_map.mp hr
    exact (ktake x hx).2
  · simp [hv.1]
  · intro r hr
    obtain ⟨x, hx, rfl⟩ := List.mem_map.mp hr
    exact (kdrop x hx).1
  · simp [hv.1]
  · intro r hr
    obtain ⟨x, hx, rfl⟩ := List.mem_map.mp hr
    exact (kdrop x hx).2

/-- A DWT command has a value for every element of COEF (R130, R137). -/
theorem dwtCoefs_length (t : Variant) (scale : Nat) (pix : List Byte) : (dwtCoefs t scale pix).length = 4096 := by
  obtain ⟨_, h1, h2, h3⟩ := dwtLevel_grids t 64 (levelOneInput scale pix) (by omega)
  obtain ⟨_, h4, h5, h6⟩ := dwtLevel_grids t 33 (dwtLevel t 64 (levelOneInput scale pix)).ll (by omega)
  obtain ⟨h0, h7, h8, h9⟩ :=
    dwtLevel_grids t 17 (dwtLevel t 33 (dwtLevel t 64 (levelOneInput scale pix)).ll).ll (by omega)
  simp only [dwtCoefs, List.length_append, h0.flatten_length, h1.flatten_length, h2.flatten_length, h3.flatten_length,
    h4.flatten_length, h5.flatten_length, h6.flatten_length, h7.flatten_length, h8.flatten_length,
    h9.flatten_length, lowCount]

end Sys2Proof.Machine
end

