-- ==== Sys2Proof/Laws/Memory.lean ====
section
/-! SUPPORT. The laws of the association lists storage is held in: what each operation lists afterwards, and that each
keeps the keys strictly rising. -/

namespace Sys2Proof.Machine

variable {β : Type}

theorem lookup_append (m₁ m₂ : List (Nat × β)) (x : Nat) :
    lookup (m₁ ++ m₂) x = (lookup m₁ x).or (lookup m₂ x) := by
  induction m₁ with
  | nil => simp [lookup]
  | cons c rest ih =>
    obtain ⟨k, v⟩ := c
    by_cases h : k = x <;> simp [lookup, h, ih]

/-- A filter on keys keeps what is listed at the keys it lets through. -/
theorem lookup_filter_key (m : List (Nat × β)) (p : Nat → Bool) (x : Nat) :
    lookup (m.filter fun c => p c.1) x = if p x then lookup m x else none := by
  induction m with
  | nil => simp [lookup]
  | cons c rest ih =>
    obtain ⟨k, v⟩ := c
    by_cases hk : p k
    · by_cases h : k = x
      · subst h; simp [lookup, hk]
      · simp [lookup, hk, h, ih]
    · by_cases h : k = x
      · subst h; simp [hk, ih]
      · simp [lookup, hk, h, ih]

theorem lookup_cellsAt (a : Nat) (vs : List β) (x : Nat) :
    lookup (cellsAt a vs) x = if a ≤ x then vs[x - a]? else none := by
  induction vs generalizing a with
  | nil => simp [cellsAt, lookup]
  | cons v rest ih =>
    simp only [cellsAt, lookup, ih]
    by_cases h : a = x
    · subst h; simp
    · by_cases hlt : a ≤ x
      · have h1 : a + 1 ≤ x := by omega
        have h2 : x - a = x - (a + 1) + 1 := by omega
        simp [h, hlt, h1, h2]
      · have h1 : ¬ a + 1 ≤ x := by omega
        simp [h, hlt, h1]

/-- Everything a write of a run lists (R65). -/
theorem lookup_writeRun (m : List (Nat × β)) (a : Nat) (vs : List β) (x : Nat) :
    lookup (writeRun m a vs) x = if a ≤ x ∧ x < a + vs.length then vs[x - a]? else lookup m x := by
  unfold writeRun
  rw [lookup_append, lookup_append, lookup_filter_key m (fun k => decide (k < a)),
    lookup_filter_key m (fun k => decide (a + vs.length ≤ k)), lookup_cellsAt]
  by_cases h1 : x < a
  · have h2 : ¬ a ≤ x := by omega
    have h3 : ¬ a + vs.length ≤ x := by omega
    simp [h1, h2, h3]
  · have h2 : a ≤ x := by omega
    by_cases h3 : x < a + vs.length
    · have h4 : ¬ a + vs.length ≤ x := by omega
      simp [h1, h2, h3, h4]
    · have h4 : a + vs.length ≤ x := by omega
      have h5 : vs.length ≤ x - a := by omega
      simp [h1, h2, h3, h4, h5]

/-- Everything listed after a run is erased. -/
theorem lookup_eraseRun (m : List (Nat × β)) (a n x : Nat) :
    lookup (eraseRun m a n) x = if a ≤ x ∧ x < a + n then none else lookup m x := by
  unfold eraseRun
  rw [lookup_filter_key m (fun k => decide (k < a) || decide (a + n ≤ k))]
  by_cases h1 : x < a
  · have h2 : ¬ a ≤ x := by omega
    simp [h1, h2]
  · by_cases h3 : a + n ≤ x
    · have h4 : ¬ x < a + n := by omega
      simp [h3, h4]
    · have h4 : x < a + n := by omega
      have h2 : a ≤ x := by omega
      simp [h1, h2, h3, h4]

theorem mem_cellsAt_bounds {a : Nat} {vs : List β} {c : Nat × β} (h : c ∈ cellsAt a vs) :
    a ≤ c.1 ∧ c.1 < a + vs.length := by
  induction vs generalizing a with
  | nil => simp [cellsAt] at h
  | cons v rest ih =>
    simp only [cellsAt, List.mem_cons] at h
    rcases h with rfl | h
    · simp
    · have := ih h
      simp only [List.length_cons]
      omega

theorem wf_cellsAt (a : Nat) (vs : List β) : Memory.wf (cellsAt a vs) := by
  induction vs generalizing a with
  | nil => simp [Memory.wf, cellsAt]
  | cons v rest ih =>
    refine List.pairwise_cons.mpr ⟨fun c hc => ?_, ih (a + 1)⟩
    have := mem_cellsAt_bounds hc
    simp only
    omega

/-- A write of a run keeps the canonical form. -/
theorem wf_writeRun {m : List (Nat × β)} (h : Memory.wf m) (a : Nat) (vs : List β) :
    Memory.wf (writeRun m a vs) := by
  have below : ∀ c ∈ m.filter (fun c => decide (c.1 < a)), c.1 < a := fun c hc => by
    simpa using (List.mem_filter.mp hc).2
  have above : ∀ c ∈ m.filter (fun c => decide (a + vs.length ≤ c.1)), a + vs.length ≤ c.1 := fun c hc => by
    simpa using (List.mem_filter.mp hc).2
  refine List.pairwise_append.mpr ⟨List.pairwise_append.mpr
    ⟨h.filter _, wf_cellsAt a vs, fun c hc d hd => ?_⟩, h.filter _, fun c hc d hd => ?_⟩
  · have h1 := below c hc
    have h2 := mem_cellsAt_bounds hd
    omega
  · have h2 := above d hd
    rcases List.mem_append.mp hc with hc | hc
    · have h1 := below c hc
      omega
    · have h1 := mem_cellsAt_bounds hc
      omega

/-- Erasing a run keeps the canonical form. -/
theorem wf_eraseRun {m : List (Nat × β)} (h : Memory.wf m) (a n : Nat) : Memory.wf (eraseRun m a n) :=
  h.filter _

/-- The keys a write of a run lists: those of the run and old ones. -/
theorem mem_writeRun {m : List (Nat × β)} {a : Nat} {vs : List β} {c : Nat × β} (h : c ∈ writeRun m a vs) :
    (a ≤ c.1 ∧ c.1 < a + vs.length) ∨ c ∈ m := by
  unfold writeRun at h
  rcases List.mem_append.mp h with h | h
  · rcases List.mem_append.mp h with h | h
    · exact .inr (List.mem_filter.mp h).1
    · exact .inl (mem_cellsAt_bounds h)
  · exact .inr (List.mem_filter.mp h).1

theorem mem_eraseRun {m : List (Nat × β)} {a n : Nat} {c : Nat × β} (h : c ∈ eraseRun m a n) : c ∈ m :=
  (List.mem_filter.mp h).1

theorem lookup_eq_none_of_lt {m : List (Nat × β)} {x : Nat} (h : ∀ c ∈ m, x < c.1) : lookup m x = none := by
  induction m with
  | nil => rfl
  | cons c rest ih =>
    obtain ⟨k, v⟩ := c
    have hk : x < k := h (k, v) (by simp)
    have hne : ¬ k = x := by omega
    simp [lookup, hne, ih fun d hd => h d (by simp [hd])]

/-- What `readRun` answers on a list with rising keys: the values listed at the keys of the run, when all are. -/
theorem readRun_eq_some {m : List (Nat × β)} (h : Memory.wf m) (a n : Nat) (vs : List β) :
    readRun m a n = some vs ↔ vs.length = n ∧ ∀ i < n, lookup m (a + i) = vs[i]? := by
  induction m generalizing a n vs with
  | nil =>
    cases n with
    | zero => cases vs <;> simp [readRun]
    | succ n =>
      have : readRun ([] : List (Nat × β)) a (n + 1) = none := by simp [readRun, List.range'_succ]
      simp only [this, lookup]
      constructor
      · intro h; cases h
      · rintro ⟨h1, h2⟩
        have := h2 0 (by omega)
        cases vs with
        | nil => simp at h1
        | cons v vs => simp at this
  | cons c rest ih =>
    obtain ⟨k, v⟩ := c
    obtain ⟨hhead, htail⟩ := List.pairwise_cons.mp h
    by_cases hlt : k < a
    · have e : readRun ((k, v) :: rest) a n = readRun rest a n := by
        simp [readRun, hlt]
      rw [e, ih htail]
      refine and_congr_right fun _ => forall_congr' fun i => ?_
      have hne : ¬ k = a + i := by omega
      simp [lookup, hne]
    · cases n with
      | zero => cases vs <;> simp [readRun]
      | succ n =>
        by_cases hk : k = a
        · subst hk
          have hdrop : rest.dropWhile (fun c => decide (c.1 < k + 1)) = rest := by
            cases rest with
            | nil => rfl
            | cons d rest' =>
              have : k < d.1 := hhead d (by simp)
              exact List.dropWhile_cons_of_neg (by simpa using this)
          have e : readRun ((k, v) :: rest) k (n + 1) = (readRun rest (k + 1) n).map (v :: ·) := by
            unfold readRun
            rw [hdrop]
            simp only [List.dropWhile_cons, Nat.lt_irrefl, decide_false, Bool.false_eq_true, if_false,
              List.take_succ_cons, List.map_cons, List.range'_succ]
            by_cases hb : ((rest.take n).map (·.1) == List.range' (k + 1) n) = true
            · have : ((k :: (rest.take n).map (·.1)) == (k :: List.range' (k + 1) n)) = true := by
                simpa using hb
              simp only [hb, this, if_true, Option.map_some]
            · have : ¬ ((k :: (rest.take n).map (·.1)) == (k :: List.range' (k + 1) n)) = true := by
                simpa using hb
              simp only [hb, this, if_false, Option.map_none, Bool.false_eq_true]
          rw [e]
          cases vs with
          | nil =>
            constructor
            · intro h; cases hr : readRun rest (k + 1) n <;> simp [hr] at h
            · rintro ⟨h1, _⟩; simp at h1
          | cons w ws =>
            have step : (readRun rest (k + 1) n).map (v :: ·) = some (w :: ws) ↔
                v = w ∧ readRun rest (k + 1) n = some ws := by
              cases readRun rest (k + 1) n <;> simp
            rw [step, ih htail]
            constructor
            · rintro ⟨rfl, h1, h2⟩
              refine ⟨by simp [h1], fun i hi => ?_⟩
              cases i with
              | zero => simp [lookup]
              | succ i =>
                have hne : ¬ k = k + (i + 1) := by omega
                have := h2 i (by omega)
                have e2 : k + 1 + i = k + (i + 1) := by omega
                rw [e2] at this
                simpa [lookup, hne] using this
            · rintro ⟨h1, h2⟩
              refine ⟨?_, by simpa using h1, fun i hi => ?_⟩
              · simpa [lookup] using h2 0 (by omega)
              · have hne : ¬ k = k + (i + 1) := by omega
                have := h2 (i + 1) (by omega)
                have e2 : k + 1 + i = k + (i + 1) := by omega
                rw [e2]
                simpa [lookup, hne] using this
        · have e : readRun ((k, v) :: rest) a (n + 1) = none := by
            simp [readRun, hlt, List.range'_succ, hk]
          have hnone : lookup ((k, v) :: rest) a = none := by
            apply lookup_eq_none_of_lt
            intro c hc
            rcases List.mem_cons.mp hc with rfl | hc
            · show a < k
              omega
            · have := hhead c hc
              omega
          rw [e]
          constructor
          · intro h; cases h
          · rintro ⟨h1, h2⟩
            have := h2 0 (by omega)
            simp only [Nat.add_zero, hnone] at this
            cases vs with
            | nil => simp at h1
            | cons w ws => simp at this

/-- A run with an unlisted key reads as no value. -/
theorem readRun_eq_none {m : List (Nat × β)} (h : Memory.wf m) (a n : Nat) :
    readRun m a n = none ↔ ∃ i < n, lookup m (a + i) = none := by
  constructor
  · intro hn
    by_contra hc
    push Not at hc
    have hs : readRun m a n = some ((List.range n).pmap (fun i hi => (lookup m (a + i)).get hi)
        (fun i hi => by
          have := hc i (List.mem_range.mp hi)
          exact Option.isSome_iff_ne_none.mpr this)) := by
      rw [readRun_eq_some h]
      refine ⟨by simp, fun i hi => ?_⟩
      simp [hi]
    rw [hs] at hn
    cases hn
  · rintro ⟨i, hi, hl⟩
    cases hr : readRun m a n with
    | none => rfl
    | some vs =>
      obtain ⟨h1, h2⟩ := (readRun_eq_some h a n vs).mp hr
      have := h2 i hi
      rw [hl] at this
      have hlt : i < vs.length := by omega
      simp [List.getElem?_eq_getElem hlt] at this

/-- A canonical list is its lookups: two of them that answer alike are equal. -/
theorem wf_ext {m₁ m₂ : List (Nat × β)} (h₁ : Memory.wf m₁) (h₂ : Memory.wf m₂)
    (h : ∀ x, lookup m₁ x = lookup m₂ x) : m₁ = m₂ := by
  induction m₁ generalizing m₂ with
  | nil =>
    cases m₂ with
    | nil => rfl
    | cons c rest => have := h c.1; simp [lookup] at this
  | cons c rest ih =>
    obtain ⟨k, v⟩ := c
    cases m₂ with
    | nil => have := h k; simp [lookup] at this
    | cons d rest' =>
      obtain ⟨k', v'⟩ := d
      obtain ⟨hc, hr⟩ := List.pairwise_cons.mp h₁
      obtain ⟨hd, hr'⟩ := List.pairwise_cons.mp h₂
      have hkk : k = k' := by
        by_contra hne
        rcases Nat.lt_or_gt_of_ne hne with hlt | hgt
        · have := h k
          have e : lookup rest' k = none := lookup_eq_none_of_lt fun c hc' => Nat.lt_trans hlt (hd c hc')
          simp [lookup, e, Ne.symm hne] at this
        · have := h k'
          have e : lookup rest k' = none := lookup_eq_none_of_lt fun c hc' => Nat.lt_trans hgt (hc c hc')
          simp [lookup, e, hne] at this
      subst hkk
      have hv := h k
      simp only [lookup, if_true, Option.some.injEq] at hv
      subst hv
      refine congrArg _ (ih hr hr' fun x => ?_)
      by_cases hx : x = k
      · subst hx
        rw [lookup_eq_none_of_lt hc, lookup_eq_none_of_lt hd]
      · have := h x
        simpa [lookup, Ne.symm hx] using this

/-- Writing the same run again leaves the list as it is. -/
theorem writeRun_writeRun (m : List (Nat × β)) (a : Nat) (vs : List β) :
    writeRun (writeRun m a vs) a vs = writeRun m a vs := by
  have h1 : (cellsAt a vs).filter (fun c => decide (c.1 < a)) = [] :=
    List.filter_eq_nil_iff.mpr fun c hc => by have := mem_cellsAt_bounds hc; simp; omega
  have h2 : (cellsAt a vs).filter (fun c => decide (a + vs.length ≤ c.1)) = [] :=
    List.filter_eq_nil_iff.mpr fun c hc => by have := mem_cellsAt_bounds hc; simp; omega
  have h3 : (m.filter fun c => decide (a + vs.length ≤ c.1)).filter (fun c => decide (c.1 < a)) = [] :=
    List.filter_eq_nil_iff.mpr fun c hc => by have := (List.mem_filter.mp hc).2; simp at this ⊢; omega
  have h4 : (m.filter fun c => decide (c.1 < a)).filter (fun c => decide (a + vs.length ≤ c.1)) = [] :=
    List.filter_eq_nil_iff.mpr fun c hc => by have := (List.mem_filter.mp hc).2; simp at this ⊢; omega
  unfold writeRun
  simp only [List.filter_append, h1, h2, h3, h4, List.append_nil, List.nil_append, List.filter_filter, Bool.and_self]

end Sys2Proof.Machine
end

