-- ==== Sys2Proof/Laws/State.lean ====
section
/-! SUPPORT. One lemma per field and update: what each named update leaves of the state. -/

namespace Sys2Proof.Machine

/-! ### `complete` -/

@[simp] theorem complete_params (s : State) (e : ErrCode) : (complete s e).params = s.params := rfl
@[simp] theorem complete_pend (s : State) (e : ErrCode) : (complete s e).pend = s.pend := rfl
@[simp] theorem complete_busy (s : State) (e : ErrCode) : (complete s e).busy = false := rfl
@[simp] theorem complete_err (s : State) (e : ErrCode) : (complete s e).err = e := rfl
@[simp] theorem complete_lastOp (s : State) (e : ErrCode) : (complete s e).lastOp = s.lastOp := rfl
@[simp] theorem complete_result (s : State) (e : ErrCode) : (complete s e).result = s.result := rfl
@[simp] theorem complete_outcap (s : State) (e : ErrCode) : (complete s e).outcap = s.outcap := rfl
@[simp] theorem complete_rstart (s : State) (e : ErrCode) : (complete s e).rstart = s.rstart := rfl
@[simp] theorem complete_rcount (s : State) (e : ErrCode) : (complete s e).rcount = s.rcount := rfl
@[simp] theorem complete_qshift (s : State) (e : ErrCode) : (complete s e).qshift = s.qshift := rfl
@[simp] theorem complete_mem (s : State) (e : ErrCode) : (complete s e).mem = s.mem := rfl
@[simp] theorem complete_scratch (s : State) (e : ErrCode) : (complete s e).scratch = s.scratch := rfl
@[simp] theorem complete_oracle (s : State) (e : ErrCode) : (complete s e).oracle = s.oracle := rfl
@[simp] theorem complete_waited (s : State) (e : ErrCode) : (complete s e).waited = s.waited := rfl
@[simp] theorem complete_host (s : State) (e : ErrCode) : (complete s e).host = s.host := rfl

/-! ### `latch` -/

@[simp] theorem latch_params (s : State) (w : Word) : (latch s w).params = s.params := rfl
@[simp] theorem latch_pend (s : State) (w : Word) : (latch s w).pend = w := rfl
@[simp] theorem latch_busy (s : State) (w : Word) : (latch s w).busy = true := rfl
@[simp] theorem latch_err (s : State) (w : Word) : (latch s w).err = s.err := rfl
@[simp] theorem latch_lastOp (s : State) (w : Word) : (latch s w).lastOp = w.extractLsb' 0 8 := rfl
@[simp] theorem latch_result (s : State) (w : Word) : (latch s w).result = s.result := rfl
@[simp] theorem latch_outcap (s : State) (w : Word) : (latch s w).outcap = s.outcap := rfl
@[simp] theorem latch_rstart (s : State) (w : Word) : (latch s w).rstart = s.rstart := rfl
@[simp] theorem latch_rcount (s : State) (w : Word) : (latch s w).rcount = s.rcount := rfl
@[simp] theorem latch_qshift (s : State) (w : Word) : (latch s w).qshift = s.qshift := rfl
@[simp] theorem latch_mem (s : State) (w : Word) : (latch s w).mem = s.mem := rfl
@[simp] theorem latch_scratch (s : State) (w : Word) : (latch s w).scratch = s.scratch := rfl
@[simp] theorem latch_oracle (s : State) (w : Word) : (latch s w).oracle = s.oracle + 1 := rfl
@[simp] theorem latch_waited (s : State) (w : Word) : (latch s w).waited = 0 := rfl
@[simp] theorem latch_host (s : State) (w : Word) : (latch s w).host = s.host := rfl

/-! ### `draw` -/

@[simp] theorem draw_params (s : State) : (draw s).params = s.params := rfl
@[simp] theorem draw_pend (s : State) : (draw s).pend = s.pend := rfl
@[simp] theorem draw_busy (s : State) : (draw s).busy = s.busy := rfl
@[simp] theorem draw_err (s : State) : (draw s).err = s.err := rfl
@[simp] theorem draw_lastOp (s : State) : (draw s).lastOp = s.lastOp := rfl
@[simp] theorem draw_result (s : State) : (draw s).result = s.result := rfl
@[simp] theorem draw_outcap (s : State) : (draw s).outcap = s.outcap := rfl
@[simp] theorem draw_rstart (s : State) : (draw s).rstart = s.rstart := rfl
@[simp] theorem draw_rcount (s : State) : (draw s).rcount = s.rcount := rfl
@[simp] theorem draw_qshift (s : State) : (draw s).qshift = s.qshift := rfl
@[simp] theorem draw_mem (s : State) : (draw s).mem = s.mem := rfl
@[simp] theorem draw_scratch (s : State) : (draw s).scratch = s.scratch := rfl
@[simp] theorem draw_oracle (s : State) : (draw s).oracle = s.oracle + 1 := rfl
@[simp] theorem draw_waited (s : State) : (draw s).waited = s.waited := rfl
@[simp] theorem draw_host (s : State) : (draw s).host = s.host := rfl

/-! ### `scrambleScratch` -/

@[simp] theorem scrambleScratch_params (s : State) : (scrambleScratch s).params = s.params := rfl
@[simp] theorem scrambleScratch_pend (s : State) : (scrambleScratch s).pend = s.pend := rfl
@[simp] theorem scrambleScratch_busy (s : State) : (scrambleScratch s).busy = s.busy := rfl
@[simp] theorem scrambleScratch_err (s : State) : (scrambleScratch s).err = s.err := rfl
@[simp] theorem scrambleScratch_lastOp (s : State) : (scrambleScratch s).lastOp = s.lastOp := rfl
@[simp] theorem scrambleScratch_result (s : State) : (scrambleScratch s).result = s.result := rfl
@[simp] theorem scrambleScratch_outcap (s : State) : (scrambleScratch s).outcap = s.outcap := rfl
@[simp] theorem scrambleScratch_rstart (s : State) : (scrambleScratch s).rstart = s.rstart := rfl
@[simp] theorem scrambleScratch_rcount (s : State) : (scrambleScratch s).rcount = s.rcount := rfl
@[simp] theorem scrambleScratch_qshift (s : State) : (scrambleScratch s).qshift = s.qshift := rfl
@[simp] theorem scrambleScratch_mem (s : State) : (scrambleScratch s).mem = s.mem := rfl
@[simp] theorem scrambleScratch_scratch (s : State) : (scrambleScratch s).scratch = unspecifiedScratch s.oracle := rfl
@[simp] theorem scrambleScratch_oracle (s : State) : (scrambleScratch s).oracle = s.oracle + 1 := rfl
@[simp] theorem scrambleScratch_waited (s : State) : (scrambleScratch s).waited = s.waited := rfl
@[simp] theorem scrambleScratch_host (s : State) : (scrambleScratch s).host = s.host := rfl

/-! ### `writeCoefs` -/

@[simp] theorem writeCoefs_params (s : State) (start : Nat) (vs : List HalfWord) : (writeCoefs s start vs).params = s.params := rfl
@[simp] theorem writeCoefs_pend (s : State) (start : Nat) (vs : List HalfWord) : (writeCoefs s start vs).pend = s.pend := rfl
@[simp] theorem writeCoefs_busy (s : State) (start : Nat) (vs : List HalfWord) : (writeCoefs s start vs).busy = s.busy := rfl
@[simp] theorem writeCoefs_err (s : State) (start : Nat) (vs : List HalfWord) : (writeCoefs s start vs).err = s.err := rfl
@[simp] theorem writeCoefs_lastOp (s : State) (start : Nat) (vs : List HalfWord) : (writeCoefs s start vs).lastOp = s.lastOp := rfl
@[simp] theorem writeCoefs_result (s : State) (start : Nat) (vs : List HalfWord) : (writeCoefs s start vs).result = s.result := rfl
@[simp] theorem writeCoefs_outcap (s : State) (start : Nat) (vs : List HalfWord) : (writeCoefs s start vs).outcap = s.outcap := rfl
@[simp] theorem writeCoefs_rstart (s : State) (start : Nat) (vs : List HalfWord) : (writeCoefs s start vs).rstart = s.rstart := rfl
@[simp] theorem writeCoefs_rcount (s : State) (start : Nat) (vs : List HalfWord) : (writeCoefs s start vs).rcount = s.rcount := rfl
@[simp] theorem writeCoefs_qshift (s : State) (start : Nat) (vs : List HalfWord) : (writeCoefs s start vs).qshift = s.qshift := rfl
@[simp] theorem writeCoefs_mem (s : State) (start : Nat) (vs : List HalfWord) : (writeCoefs s start vs).mem = writeRun s.mem (coefAddr start) (halvesToBytes vs) := rfl
@[simp] theorem writeCoefs_scratch (s : State) (start : Nat) (vs : List HalfWord) : (writeCoefs s start vs).scratch = s.scratch := rfl
@[simp] theorem writeCoefs_oracle (s : State) (start : Nat) (vs : List HalfWord) : (writeCoefs s start vs).oracle = s.oracle := rfl
@[simp] theorem writeCoefs_waited (s : State) (start : Nat) (vs : List HalfWord) : (writeCoefs s start vs).waited = s.waited := rfl
@[simp] theorem writeCoefs_host (s : State) (start : Nat) (vs : List HalfWord) : (writeCoefs s start vs).host = s.host := rfl

/-! ### `clearOut` -/

@[simp] theorem clearOut_params (s : State) (n : Nat) : (clearOut s n).params = s.params := rfl
@[simp] theorem clearOut_pend (s : State) (n : Nat) : (clearOut s n).pend = s.pend := rfl
@[simp] theorem clearOut_busy (s : State) (n : Nat) : (clearOut s n).busy = s.busy := rfl
@[simp] theorem clearOut_err (s : State) (n : Nat) : (clearOut s n).err = s.err := rfl
@[simp] theorem clearOut_lastOp (s : State) (n : Nat) : (clearOut s n).lastOp = s.lastOp := rfl
@[simp] theorem clearOut_result (s : State) (n : Nat) : (clearOut s n).result = s.result := rfl
@[simp] theorem clearOut_outcap (s : State) (n : Nat) : (clearOut s n).outcap = s.outcap := rfl
@[simp] theorem clearOut_rstart (s : State) (n : Nat) : (clearOut s n).rstart = s.rstart := rfl
@[simp] theorem clearOut_rcount (s : State) (n : Nat) : (clearOut s n).rcount = s.rcount := rfl
@[simp] theorem clearOut_qshift (s : State) (n : Nat) : (clearOut s n).qshift = s.qshift := rfl
@[simp] theorem clearOut_mem (s : State) (n : Nat) : (clearOut s n).mem = eraseRun s.mem outBase n := rfl
@[simp] theorem clearOut_scratch (s : State) (n : Nat) : (clearOut s n).scratch = s.scratch := rfl
@[simp] theorem clearOut_oracle (s : State) (n : Nat) : (clearOut s n).oracle = s.oracle := rfl
@[simp] theorem clearOut_waited (s : State) (n : Nat) : (clearOut s n).waited = s.waited := rfl
@[simp] theorem clearOut_host (s : State) (n : Nat) : (clearOut s n).host = s.host := rfl

/-! ### `writeOut` -/

@[simp] theorem writeOut_params (s : State) (bytes : List Byte) : (writeOut s bytes).params = s.params := rfl
@[simp] theorem writeOut_pend (s : State) (bytes : List Byte) : (writeOut s bytes).pend = s.pend := rfl
@[simp] theorem writeOut_busy (s : State) (bytes : List Byte) : (writeOut s bytes).busy = s.busy := rfl
@[simp] theorem writeOut_err (s : State) (bytes : List Byte) : (writeOut s bytes).err = s.err := rfl
@[simp] theorem writeOut_lastOp (s : State) (bytes : List Byte) : (writeOut s bytes).lastOp = s.lastOp := rfl
@[simp] theorem writeOut_result (s : State) (bytes : List Byte) : (writeOut s bytes).result = s.result := rfl
@[simp] theorem writeOut_outcap (s : State) (bytes : List Byte) : (writeOut s bytes).outcap = s.outcap := rfl
@[simp] theorem writeOut_rstart (s : State) (bytes : List Byte) : (writeOut s bytes).rstart = s.rstart := rfl
@[simp] theorem writeOut_rcount (s : State) (bytes : List Byte) : (writeOut s bytes).rcount = s.rcount := rfl
@[simp] theorem writeOut_qshift (s : State) (bytes : List Byte) : (writeOut s bytes).qshift = s.qshift := rfl
@[simp] theorem writeOut_mem (s : State) (bytes : List Byte) : (writeOut s bytes).mem = writeRun s.mem outBase bytes := rfl
@[simp] theorem writeOut_scratch (s : State) (bytes : List Byte) : (writeOut s bytes).scratch = s.scratch := rfl
@[simp] theorem writeOut_oracle (s : State) (bytes : List Byte) : (writeOut s bytes).oracle = s.oracle := rfl
@[simp] theorem writeOut_waited (s : State) (bytes : List Byte) : (writeOut s bytes).waited = s.waited := rfl
@[simp] theorem writeOut_host (s : State) (bytes : List Byte) : (writeOut s bytes).host = s.host := rfl

/-! ### `hostGoto` -/

@[simp] theorem hostGoto_params (s : State) (pos : Nat) : (hostGoto s pos).params = s.params := rfl
@[simp] theorem hostGoto_pend (s : State) (pos : Nat) : (hostGoto s pos).pend = s.pend := rfl
@[simp] theorem hostGoto_busy (s : State) (pos : Nat) : (hostGoto s pos).busy = s.busy := rfl
@[simp] theorem hostGoto_err (s : State) (pos : Nat) : (hostGoto s pos).err = s.err := rfl
@[simp] theorem hostGoto_lastOp (s : State) (pos : Nat) : (hostGoto s pos).lastOp = s.lastOp := rfl
@[simp] theorem hostGoto_result (s : State) (pos : Nat) : (hostGoto s pos).result = s.result := rfl
@[simp] theorem hostGoto_outcap (s : State) (pos : Nat) : (hostGoto s pos).outcap = s.outcap := rfl
@[simp] theorem hostGoto_rstart (s : State) (pos : Nat) : (hostGoto s pos).rstart = s.rstart := rfl
@[simp] theorem hostGoto_rcount (s : State) (pos : Nat) : (hostGoto s pos).rcount = s.rcount := rfl
@[simp] theorem hostGoto_qshift (s : State) (pos : Nat) : (hostGoto s pos).qshift = s.qshift := rfl
@[simp] theorem hostGoto_mem (s : State) (pos : Nat) : (hostGoto s pos).mem = s.mem := rfl
@[simp] theorem hostGoto_scratch (s : State) (pos : Nat) : (hostGoto s pos).scratch = s.scratch := rfl
@[simp] theorem hostGoto_oracle (s : State) (pos : Nat) : (hostGoto s pos).oracle = s.oracle := rfl
@[simp] theorem hostGoto_waited (s : State) (pos : Nat) : (hostGoto s pos).waited = s.waited := rfl
@[simp] theorem hostGoto_host (s : State) (pos : Nat) : (hostGoto s pos).host = { s.host with pos := pos } := rfl

/-! ### `hostNext` -/

@[simp] theorem hostNext_params (s : State) : (hostNext s).params = s.params := rfl
@[simp] theorem hostNext_pend (s : State) : (hostNext s).pend = s.pend := rfl
@[simp] theorem hostNext_busy (s : State) : (hostNext s).busy = s.busy := rfl
@[simp] theorem hostNext_err (s : State) : (hostNext s).err = s.err := rfl
@[simp] theorem hostNext_lastOp (s : State) : (hostNext s).lastOp = s.lastOp := rfl
@[simp] theorem hostNext_result (s : State) : (hostNext s).result = s.result := rfl
@[simp] theorem hostNext_outcap (s : State) : (hostNext s).outcap = s.outcap := rfl
@[simp] theorem hostNext_rstart (s : State) : (hostNext s).rstart = s.rstart := rfl
@[simp] theorem hostNext_rcount (s : State) : (hostNext s).rcount = s.rcount := rfl
@[simp] theorem hostNext_qshift (s : State) : (hostNext s).qshift = s.qshift := rfl
@[simp] theorem hostNext_mem (s : State) : (hostNext s).mem = s.mem := rfl
@[simp] theorem hostNext_scratch (s : State) : (hostNext s).scratch = s.scratch := rfl
@[simp] theorem hostNext_oracle (s : State) : (hostNext s).oracle = s.oracle := rfl
@[simp] theorem hostNext_waited (s : State) : (hostNext s).waited = s.waited := rfl
@[simp] theorem hostNext_host (s : State) : (hostNext s).host = { s.host with pos := s.host.pos + 1 } := rfl

/-! ### `hostSet` -/

@[simp] theorem hostSet_params (s : State) (t : Nat) (v : Word) : (hostSet s t v).params = s.params := rfl
@[simp] theorem hostSet_pend (s : State) (t : Nat) (v : Word) : (hostSet s t v).pend = s.pend := rfl
@[simp] theorem hostSet_busy (s : State) (t : Nat) (v : Word) : (hostSet s t v).busy = s.busy := rfl
@[simp] theorem hostSet_err (s : State) (t : Nat) (v : Word) : (hostSet s t v).err = s.err := rfl
@[simp] theorem hostSet_lastOp (s : State) (t : Nat) (v : Word) : (hostSet s t v).lastOp = s.lastOp := rfl
@[simp] theorem hostSet_result (s : State) (t : Nat) (v : Word) : (hostSet s t v).result = s.result := rfl
@[simp] theorem hostSet_outcap (s : State) (t : Nat) (v : Word) : (hostSet s t v).outcap = s.outcap := rfl
@[simp] theorem hostSet_rstart (s : State) (t : Nat) (v : Word) : (hostSet s t v).rstart = s.rstart := rfl
@[simp] theorem hostSet_rcount (s : State) (t : Nat) (v : Word) : (hostSet s t v).rcount = s.rcount := rfl
@[simp] theorem hostSet_qshift (s : State) (t : Nat) (v : Word) : (hostSet s t v).qshift = s.qshift := rfl
@[simp] theorem hostSet_mem (s : State) (t : Nat) (v : Word) : (hostSet s t v).mem = s.mem := rfl
@[simp] theorem hostSet_scratch (s : State) (t : Nat) (v : Word) : (hostSet s t v).scratch = s.scratch := rfl
@[simp] theorem hostSet_oracle (s : State) (t : Nat) (v : Word) : (hostSet s t v).oracle = s.oracle := rfl
@[simp] theorem hostSet_waited (s : State) (t : Nat) (v : Word) : (hostSet s t v).waited = s.waited := rfl
@[simp] theorem hostSet_host (s : State) (t : Nat) (v : Word) : (hostSet s t v).host = { s.host with vars := writeRun s.host.vars t [v] } := rfl

/-! ### `assertReset` -/

@[simp] theorem assertReset_params (s : State) : (assertReset s).params = s.params := rfl
@[simp] theorem assertReset_pend (s : State) : (assertReset s).pend = 0#32 := rfl
@[simp] theorem assertReset_busy (s : State) : (assertReset s).busy = false := rfl
@[simp] theorem assertReset_err (s : State) : (assertReset s).err = .ok := rfl
@[simp] theorem assertReset_lastOp (s : State) : (assertReset s).lastOp = 0#8 := rfl
@[simp] theorem assertReset_result (s : State) : (assertReset s).result = 0#32 := rfl
@[simp] theorem assertReset_outcap (s : State) : (assertReset s).outcap = 0#32 := rfl
@[simp] theorem assertReset_rstart (s : State) : (assertReset s).rstart = 0#32 := rfl
@[simp] theorem assertReset_rcount (s : State) : (assertReset s).rcount = 0#32 := rfl
@[simp] theorem assertReset_qshift (s : State) : (assertReset s).qshift = Vector.replicate 10 0#8 := rfl
@[simp] theorem assertReset_mem (s : State) : (assertReset s).mem = [] := rfl
@[simp] theorem assertReset_scratch (s : State) : (assertReset s).scratch = resetScratch := rfl
@[simp] theorem assertReset_oracle (s : State) : (assertReset s).oracle = s.oracle := rfl
@[simp] theorem assertReset_waited (s : State) : (assertReset s).waited = 0 := rfl
@[simp] theorem assertReset_host (s : State) : (assertReset s).host = s.host := rfl

end Sys2Proof.Machine
end

