-- ==== Sys2Proof/Laws/Storage.lean ====
section
/-! SUPPORT. The laws of bytes, coefficients and the storage windows: what the named reads answer and what the named
writes leave. -/

namespace Sys2Proof.Machine

/-! ### Coefficients as bytes -/

@[simp] theorem halvesToBytes_length (vs : List HalfWord) : (halvesToBytes vs).length = 2 * vs.length := by
  induction vs with
  | nil => rfl
  | cons v rest ih => simp only [halvesToBytes, List.length_cons, ih]; omega

theorem halvesToBytes_even (vs : List HalfWord) (i : Nat) :
    (halvesToBytes vs)[2 * i]? = vs[i]?.map fun v => v.extractLsb' 0 8 := by
  induction vs generalizing i with
  | nil => simp [halvesToBytes]
  | cons v rest ih =>
    cases i with
    | zero => simp [halvesToBytes]
    | succ i => simpa [halvesToBytes, Nat.mul_succ] using ih i

theorem halvesToBytes_odd (vs : List HalfWord) (i : Nat) :
    (halvesToBytes vs)[2 * i + 1]? = vs[i]?.map fun v => v.extractLsb' 8 8 := by
  induction vs generalizing i with
  | nil => simp [halvesToBytes]
  | cons v rest ih =>
    cases i with
    | zero => simp [halvesToBytes]
    | succ i => simpa [halvesToBytes, Nat.mul_succ] using ih i

/-- A coefficient is its high byte beside its low byte (R63). -/
@[simp] theorem half_of_bytes (v : HalfWord) : v.extractLsb' 8 8 ++ v.extractLsb' 0 8 = v := by
  ext i hi
  simp only [BitVec.getElem_append, BitVec.getElem_extractLsb']
  by_cases h : i < 8
  · simp only [h, dite_true, Nat.zero_add]
    exact BitVec.getLsbD_eq_getElem hi
  · have e : 8 + (i - 8) = i := by omega
    simp only [h, dite_false, e]
    exact BitVec.getLsbD_eq_getElem hi

theorem low_of_bytes (hi lo : Byte) : (hi ++ lo : HalfWord).extractLsb' 0 8 = lo := by
  ext i h
  rw [BitVec.getElem_extractLsb']
  refine BitVec.getLsbD_append.trans ?_
  simp [h]

theorem high_of_bytes (hi lo : Byte) : (hi ++ lo : HalfWord).extractLsb' 8 8 = hi := by
  ext i h
  rw [BitVec.getElem_extractLsb']
  refine BitVec.getLsbD_append.trans ?_
  simp [h]

theorem bytesToHalves_halvesToBytes (vs : List HalfWord) : bytesToHalves (halvesToBytes vs) = vs := by
  induction vs with
  | nil => rfl
  | cons v rest ih => simp [halvesToBytes, bytesToHalves, ih]

theorem bytesToHalves_length (bs : List Byte) (n : Nat) (h : bs.length = 2 * n) :
    (bytesToHalves bs).length = n := by
  induction n generalizing bs with
  | zero =>
    have : bs = [] := List.length_eq_zero_iff.mp (by omega)
    subst this; rfl
  | succ n ih =>
    obtain ⟨lo, hi, rest, rfl⟩ : ∃ lo hi rest, bs = lo :: hi :: rest := by
      match bs, h with
      | lo :: hi :: rest, _ => exact ⟨lo, hi, rest, rfl⟩
      | [_], h => simp at h; omega
      | [], h => simp at h
    simp only [List.length_cons] at h
    simp [bytesToHalves, ih rest (by omega)]

theorem bytesToHalves_getElem? (bs : List Byte) (i : Nat) :
    (bytesToHalves bs)[i]? = match bs[2 * i]?, bs[2 * i + 1]? with
      | some lo, some hi => some (hi ++ lo)
      | _, _ => none := by
  induction i generalizing bs with
  | zero =>
    match bs with
    | lo :: hi :: rest => simp [bytesToHalves]
    | [b] => simp [bytesToHalves]
    | [] => simp [bytesToHalves]
  | succ i ih =>
    match bs with
    | lo :: hi :: rest => simpa [bytesToHalves, Nat.mul_succ] using ih rest
    | [b] => simp [bytesToHalves, Nat.mul_succ]
    | [] => simp [bytesToHalves]

/-! ### What the named reads answer -/

/-- All of PIX: the pixels, when every mark is set (R34, R42). -/
theorem readPix_eq_some {s : State} (h : Memory.wf s.mem) (pix : List Byte) :
    readPix s = some pix ↔ pix.length = 4096 ∧ ∀ i < 4096, pixAt s i = pix[i]? :=
  readRun_eq_some h pixBase 4096 pix

theorem readPix_eq_none {s : State} (h : Memory.wf s.mem) : readPix s = none ↔ ∃ i < 4096, pixAt s i = none :=
  readRun_eq_none h pixBase 4096

/-- A run of COEF: the coefficients, when every mark is set (R35, R42). -/
theorem readCoefs_eq_some {s : State} (h : Memory.wf s.mem) (start n : Nat) (vs : List HalfWord) :
    readCoefs s start n = some vs ↔ vs.length = n ∧ ∀ i < n, coefAt s (start + i) = vs[i]? := by
  have addr : ∀ i, coefAddr (start + i) = coefAddr start + 2 * i := fun i => by simp only [coefAddr]; omega
  unfold readCoefs
  constructor
  · intro hr
    obtain ⟨bs, hbs, rfl⟩ := Option.map_eq_some_iff.mp hr
    obtain ⟨hlen, hget⟩ := (readRun_eq_some h _ _ _).mp hbs
    refine ⟨bytesToHalves_length bs n hlen, fun i hi => ?_⟩
    rw [bytesToHalves_getElem?, ← hget (2 * i) (by omega), ← hget (2 * i + 1) (by omega)]
    simp only [coefAt, addr, Nat.add_assoc]
    rfl
  · rintro ⟨hlen, hget⟩
    have hbs : readRun s.mem (coefAddr start) (2 * n) = some (halvesToBytes vs) := by
      rw [readRun_eq_some h]
      refine ⟨by simp [hlen], fun j hj => ?_⟩
      have hi := hget (j / 2) (by omega)
      have hlt : j / 2 < vs.length := by omega
      simp only [coefAt, addr, List.getElem?_eq_getElem hlt] at hi
      rcases Nat.mod_two_eq_zero_or_one j with hm | hm
      · have e : j = 2 * (j / 2) := by omega
        rw [e, halvesToBytes_even]
        simp only [List.getElem?_eq_getElem hlt, Option.map_some]
        rw [← e]
        rw [← e] at hi
        split at hi
        · rename_i lo hi' h1 h2
          rw [h1]
          have := Option.some.inj hi
          rw [← this]
          exact congrArg some (low_of_bytes hi' lo).symm
        · cases hi
      · have e : j = 2 * (j / 2) + 1 := by omega
        rw [e, halvesToBytes_odd]
        simp only [List.getElem?_eq_getElem hlt, Option.map_some]
        have e3 : coefAddr start + (2 * (j / 2) + 1) = coefAddr start + 2 * (j / 2) + 1 := by omega
        rw [e3]
        split at hi
        · rename_i lo hi' h1 h2
          rw [h2]
          have := Option.some.inj hi
          rw [← this]
          exact congrArg some (high_of_bytes hi' lo).symm
        · cases hi
    simp [hbs, bytesToHalves_halvesToBytes]

theorem readCoefs_eq_none {s : State} (h : Memory.wf s.mem) (start n : Nat) :
    readCoefs s start n = none ↔ ∃ i < n, coefAt s (start + i) = none := by
  constructor
  · intro hn
    by_contra hc
    push Not at hc
    have hs : readCoefs s start n = some ((List.range n).pmap (fun i hi => (coefAt s (start + i)).get hi)
        (fun i hi => Option.isSome_iff_ne_none.mpr (hc i (List.mem_range.mp hi)))) := by
      rw [readCoefs_eq_some h]
      refine ⟨by simp, fun i hi => ?_⟩
      simp [hi]
    rw [hs] at hn
    cases hn
  · rintro ⟨i, hi, hl⟩
    cases hr : readCoefs s start n with
    | none => rfl
    | some vs =>
      obtain ⟨h1, h2⟩ := (readCoefs_eq_some h start n vs).mp hr
      have := h2 i hi
      rw [hl] at this
      have hlt : i < vs.length := by omega
      simp [List.getElem?_eq_getElem hlt] at this

theorem readCoefs_length {s : State} {start n : Nat} {vs : List HalfWord} (h : readCoefs s start n = some vs) :
    vs.length = n := by
  unfold readCoefs at h
  obtain ⟨bs, hbs, rfl⟩ := Option.map_eq_some_iff.mp h
  unfold readRun at hbs
  split at hbs
  · rename_i he
    obtain rfl := Option.some.inj hbs
    have := congrArg List.length (eq_of_beq he)
    refine bytesToHalves_length _ n ?_
    simpa using this
  · cases hbs

/-! ### What the named writes leave -/

/-- COEF after a run of it is written (R42). -/
theorem coefAt_writeCoefs (s : State) (start : Nat) (vs : List HalfWord) (i : Nat) :
    coefAt (writeCoefs s start vs) i =
      if start ≤ i ∧ i < start + vs.length then vs[i - start]? else coefAt s i := by
  unfold coefAt
  simp only [writeCoefs_mem, lookup_writeRun, halvesToBytes_length, coefAddr]
  by_cases h : start ≤ i ∧ i < start + vs.length
  · have h1 : coefBase + 2 * start ≤ coefBase + 2 * i ∧
        coefBase + 2 * i < coefBase + 2 * start + 2 * vs.length := by omega
    have h2 : coefBase + 2 * start ≤ coefBase + 2 * i + 1 ∧
        coefBase + 2 * i + 1 < coefBase + 2 * start + 2 * vs.length := by omega
    have e1 : coefBase + 2 * i - (coefBase + 2 * start) = 2 * (i - start) := by omega
    have e2 : coefBase + 2 * i + 1 - (coefBase + 2 * start) = 2 * (i - start) + 1 := by omega
    have hlt : i - start < vs.length := by omega
    simp [h, h1, h2, e1, e2, halvesToBytes_even, halvesToBytes_odd, List.getElem?_eq_getElem hlt]
  · have h1 : ¬ (coefBase + 2 * start ≤ coefBase + 2 * i ∧
        coefBase + 2 * i < coefBase + 2 * start + 2 * vs.length) := by omega
    have h2 : ¬ (coefBase + 2 * start ≤ coefBase + 2 * i + 1 ∧
        coefBase + 2 * i + 1 < coefBase + 2 * start + 2 * vs.length) := by omega
    simp only [h, h1, h2, if_false]

/-- Storage outside a run of COEF after it is written. -/
theorem lookup_writeCoefs_outside (s : State) (start : Nat) (vs : List HalfWord) (x : Nat)
    (h : x < coefAddr start ∨ coefAddr start + 2 * vs.length ≤ x) :
    lookup (writeCoefs s start vs).mem x = lookup s.mem x := by
  have : ¬ (coefAddr start ≤ x ∧ x < coefAddr start + 2 * vs.length) := by omega
  simp [lookup_writeRun, this]

/-- OUT after its first bytes are erased and a stream is stored (R197). -/
theorem lookup_storeOut (m : List Host.Cell) (cap : Nat) (stream : List Byte) (x : Nat) :
    lookup (writeRun (eraseRun m outBase cap) outBase stream) x =
      if outBase ≤ x ∧ x < outBase + stream.length then stream[x - outBase]?
      else if outBase ≤ x ∧ x < outBase + cap then none
      else lookup m x := by
  rw [lookup_writeRun, lookup_eraseRun]

end Sys2Proof.Machine
end

