-- ==== Sys2Proof/Laws/Commands.lean ====
section
/-! SUPPORT. One lemma for each shared operation of the commands: everything it can do. -/

namespace Sys2Proof.Machine

/-! ### What each arm runs -/

@[simp] theorem exec_dwtStd (s : State) : exec .dwtStd s = runDwt .std s := rfl
@[simp] theorem exec_dwtRe (s : State) : exec .dwtRe s = runDwt .re s := rfl
@[simp] theorem exec_quant (s : State) : exec .quant s = execQuant s := rfl
@[simp] theorem exec_diff (sb : Nat) (s : State) : exec (.diff sb) s = execDiff sb s := rfl
@[simp] theorem exec_rlgr1 (s : State) : exec .rlgr1 s = runRlgr .one s.params.rlgr1Profile s := rfl
@[simp] theorem exec_rlgr3 (s : State) : exec .rlgr3 s = runRlgr .three s.params.rlgr3Profile s := rfl

/-! ### What each shared operation can do -/

/-- Everything a DWT command can do. -/
theorem runDwt_cases (t : Variant) (s : State) :
    (readPix s = none ∧ runDwt t s = .fault .unwrittenRead) ∨
      ∃ pix, readPix s = some pix ∧
        runDwt t s =
          .next (complete (scrambleScratch (writeCoefs s 0 (dwtCoefs t s.params.dwtScale pix))) .ok) := by
  unfold runDwt
  cases h : readPix s with
  | none => exact .inl ⟨rfl, rfl⟩
  | some pix => exact .inr ⟨pix, rfl, rfl⟩

/-- Everything QUANT can do. -/
theorem execQuant_cases (s : State) :
    (shiftsLegal s = false ∧ execQuant s = .next (complete s .invalidParameter)) ∨
      (shiftsLegal s = true ∧ readCoefs s 0 4096 = none ∧ execQuant s = .fault .unwrittenRead) ∨
      ∃ coefs, shiftsLegal s = true ∧ readCoefs s 0 4096 = some coefs ∧
        execQuant s = .next (complete (writeCoefs s 0 (quantizeAll s coefs)) .ok) := by
  unfold execQuant
  cases hl : shiftsLegal s with
  | false => simp
  | true =>
    cases h : readCoefs s 0 4096 with
    | none => simp
    | some coefs => exact .inr (.inr ⟨coefs, rfl, rfl, rfl⟩)

/-- Everything DIFF can do. -/
theorem execDiff_cases (sb : Nat) (s : State) :
    (subbandOfIndex sb = none ∧ execDiff sb s = .next (complete s .invalidParameter)) ∨
      ∃ b, subbandOfIndex sb = some b ∧
        ((readCoefs s (bandOffset b) (bandSize b) = none ∧ execDiff sb s = .fault .unwrittenRead) ∨
          ∃ old, readCoefs s (bandOffset b) (bandSize b) = some old ∧
            execDiff sb s = .next (complete (writeCoefs s (bandOffset b) (differences old)) .ok)) := by
  unfold execDiff
  cases hb : subbandOfIndex sb with
  | none => exact .inl ⟨rfl, rfl⟩
  | some b =>
    refine .inr ⟨b, rfl, ?_⟩
    cases h : readCoefs s (bandOffset b) (bandSize b) with
    | none => simp [h]
    | some old => simp [h]

/-- Everything an RLGR command can do. -/
theorem runRlgr_cases (m : RlgrMode) (p : Profile) (s : State) :
    (rangeLegal s = false ∧ runRlgr m p s = .next (complete { s with result := 0#32 } .invalidParameter)) ∨
      (rangeLegal s = true ∧ rlgrInput s = none ∧ runRlgr m p s = .fault .unwrittenRead) ∨
      ∃ xs, rangeLegal s = true ∧ rlgrInput s = some xs ∧
        runRlgr m p s = .next (storeStream s (packBits (rlgrEncode m p xs))) := by
  unfold runRlgr
  cases hl : rangeLegal s with
  | false => simp
  | true =>
    cases h : rlgrInput s with
    | none => simp
    | some xs => exact .inr (.inr ⟨xs, rfl, rfl, rfl⟩)

/-- The two outcomes of an encode (R197). -/
theorem storeStream_cases (s : State) (stream : List Byte) :
    (s.outcap.toNat < stream.length ∧ storeStream s stream =
        complete { clearOut s s.outcap.toNat with result := 0#32 } .capacityExceeded) ∨
      (stream.length ≤ s.outcap.toNat ∧ storeStream s stream =
        complete { writeOut (clearOut s s.outcap.toNat) stream with result := BitVec.ofNat 32 stream.length } .ok) := by
  unfold storeStream
  by_cases h : s.outcap.toNat < stream.length
  · exact .inl ⟨h, by simp [h]⟩
  · exact .inr ⟨by omega, by simp [h]⟩

theorem subbandOfIndex_eq_none {q : Nat} : subbandOfIndex q = none ↔ 9 < q := by
  rcases Nat.lt_or_ge 9 q with h | h
  · obtain ⟨k, rfl⟩ : ∃ k, q = k + 10 := ⟨q - 10, by omega⟩
    simp [subbandOfIndex, h]
  · interval_cases q <;> simp [subbandOfIndex]

theorem subbandOfIndex_quantIndex (b : Subband) : subbandOfIndex (quantIndex b) = some b := by
  cases b <;> rfl

/-- Every subband lies in COEF (R130). -/
theorem band_in_coef (b : Subband) : bandOffset b + bandSize b ≤ 4096 := by cases b <;> decide

@[simp] theorem quantizeAll_length (s : State) (coefs : List HalfWord) :
    (quantizeAll s coefs).length = coefs.length := by simp [quantizeAll]

@[simp] theorem differences_length (xs : List HalfWord) : (differences xs).length = xs.length := by
  cases xs <;> simp [differences]

theorem shiftsLegal_iff (s : State) : shiftsLegal s = true ↔ ∀ b, shiftOf s b ≤ 15 := by
  have hall : shiftsLegal s = true ↔ ∀ (i : Nat) (hi : i < 10), s.qshift[i].toNat ≤ 15 := by
    simp [shiftsLegal]
  rw [hall]; simp only [shiftOf]
  constructor
  · intro h b
    exact h (quantIndex b) (quantIndex b).isLt
  · intro h i hi
    have key : ∀ i : Fin 10, s.qshift[i].toNat ≤ 15 := by
      intro i
      fin_cases i
      exacts [h .ll3, h .lh3, h .hl3, h .hh3, h .lh2, h .hl2, h .hh2, h .lh1, h .hl1, h .hh1]
    exact key ⟨i, hi⟩

theorem rangeLegal_iff (s : State) :
    rangeLegal s = true ↔
      s.rcount.toNat ≠ 0 ∧ s.rstart.toNat + s.rcount.toNat ≤ 4096 ∧ s.outcap.toNat ≤ s.params.outBytes := by
  simp only [rangeLegal, Bool.not_eq_true', Bool.or_eq_false_iff, decide_eq_false_iff_not]
  omega

end Sys2Proof.Machine
end

