-- ==== Sys2Proof/Laws/Host.lean ====
section
/-! SUPPORT. What the host's accesses and the agents' moves can do. -/

namespace Sys2Proof.Machine

/-- When an access is permitted: every byte mapped, aligned, a permitted width, and no command pending unless it reads
STATUS (R62, R66, R67, R76). -/
theorem accessFault_eq_none (s : State) (isRead : Bool) (w : Width) (a : Address) :
    accessFault s isRead w a = none ↔
      allMapped s.params a w = true ∧ a.toNat % byteCount w = 0 ∧ (inRegisterWindow a.toNat = true → w = .w32) ∧
        (s.busy = true → isRead = true ∧ a.toNat = statusOffset) := by
  unfold accessFault
  split_ifs with h1 h2 h3 h4 <;> simp_all
  intro hr
  have := h4.2
  simpa [hr] using this

/-- Everything a host read can do. -/
theorem hostRead_cases (s : State) (w : Width) (a : Address) :
    (∃ f, accessFault s true w a = some f ∧ hostRead s w a = .error f) ∨
      (accessFault s true w a = none ∧ inRegisterWindow a.toNat = true ∧
        hostRead s w a = .ok (readRegister s a.toNat)) ∨
      (accessFault s true w a = none ∧ inRegisterWindow a.toNat = false ∧
        readRun s.mem a.toNat (byteCount w) = none ∧ hostRead s w a = .error .unwrittenRead) ∨
      ∃ bytes, accessFault s true w a = none ∧ inRegisterWindow a.toNat = false ∧
        readRun s.mem a.toNat (byteCount w) = some bytes ∧ hostRead s w a = .ok (bytesToWord bytes) := by
  unfold hostRead
  cases hf : accessFault s true w a with
  | some f => simp
  | none =>
    cases hw : inRegisterWindow a.toNat with
    | true => simp
    | false =>
      cases hr : readRun s.mem a.toNat (byteCount w) with
      | none => simp
      | some bytes => simp

/-- Everything a host write can do. -/
theorem hostWrite_cases (s : State) (w : Width) (a : Address) (v : Word) :
    (∃ f, accessFault s false w a = some f ∧ hostWrite s w a v = .error f) ∨
      (accessFault s false w a = none ∧ inRegisterWindow a.toNat = true ∧
        hostWrite s w a v = .ok (writeRegister s a.toNat v)) ∨
      (accessFault s false w a = none ∧ inRegisterWindow a.toNat = false ∧
        hostWrite s w a v = .ok { s with mem := writeRun s.mem a.toNat (wordToBytes (byteCount w) v) }) := by
  unfold hostWrite
  cases hf : accessFault s false w a with
  | some f => simp
  | none =>
    cases hw : inRegisterWindow a.toNat with
    | true => simp
    | false => simp

/-- Everything a register write can do (R23, R28 to R33). -/
theorem writeRegister_cases (s : State) (off : Nat) (v : Word) :
    (off = 0x000 ∧ writeRegister s off v = latch s v) ∨
      (off = 0x010 ∧ writeRegister s off v = { s with outcap := v }) ∨
      (off = 0x014 ∧ writeRegister s off v = { s with rstart := v }) ∨
      (off = 0x018 ∧ writeRegister s off v = { s with rcount := v }) ∨
      (∃ q, qshiftIndex off = some q ∧
        writeRegister s off v = { s with qshift := s.qshift.set q (v.setWidth 8) }) ∨
      (off ≠ 0 ∧ off ≠ 0x010 ∧ off ≠ 0x014 ∧ off ≠ 0x018 ∧ qshiftIndex off = none ∧
        writeRegister s off v = s) := by
  unfold writeRegister
  by_cases h0 : off = 0x000
  · exact .inl ⟨h0, by simp [h0]⟩
  · by_cases h1 : off = 0x010
    · exact .inr (.inl ⟨h1, by simp [h1]⟩)
    · by_cases h2 : off = 0x014
      · exact .inr (.inr (.inl ⟨h2, by simp [h2]⟩))
      · by_cases h3 : off = 0x018
        · exact .inr (.inr (.inr (.inl ⟨h3, by simp [h3]⟩)))
        · cases hq : qshiftIndex off with
          | some q => exact .inr (.inr (.inr (.inr (.inl ⟨q, rfl, by simp [h0, h1, h2, h3]⟩))))
          | none => exact .inr (.inr (.inr (.inr (.inr ⟨h0, h1, h2, h3, rfl, by simp [h0, h1, h2, h3]⟩))))

/-- Everything an operation of the host agent can do. -/
theorem hostExec_next {op : HostOp} {s t : State} (h : hostExec op s = .next t) :
    (∃ w a v u, op = .write w a v ∧ hostWrite s w a v = .ok u ∧ t = hostNext u) ∨
      (∃ w a x v, op = .read w a x ∧ hostRead s w a = .ok v ∧ t = hostNext (hostSet s x v)) ∨
      (∃ x m target v, op = .bnz x m target ∧ lookup s.host.vars x = some v ∧
        t = if v &&& m ≠ 0#32 then hostGoto s target else hostNext s) ∨
      (op = .assertReset ∧ t = hostNext (assertReset s)) := by
  cases op with
  | write w a v =>
    simp only [hostExec] at h
    cases hw : hostWrite s w a v with
    | error f => simp [hw] at h
    | ok u =>
      simp only [hw] at h
      exact .inl ⟨w, a, v, u, rfl, hw, (Host.Outcome.next.inj h).symm⟩
  | read w a x =>
    simp only [hostExec] at h
    cases hr : hostRead s w a with
    | error f => simp [hr] at h
    | ok v =>
      simp only [hr] at h
      exact .inr (.inl ⟨w, a, x, v, rfl, hr, (Host.Outcome.next.inj h).symm⟩)
  | bnz x m target =>
    simp only [hostExec] at h
    cases hv : lookup s.host.vars x with
    | none => simp [hv] at h
    | some v =>
      simp only [hv] at h
      exact .inr (.inr (.inl ⟨x, m, target, v, rfl, hv, (Host.Outcome.next.inj h).symm⟩))
  | assertReset => exact .inr (.inr (.inr ⟨rfl, (Host.Outcome.next.inj h).symm⟩))

/-- Which agent moves. -/
theorem agentStep_cases (s : State) :
    (hostOp s = none ∧ s.busy = false ∧ agentStep s = .next s) ∨
      (hostOp s = none ∧ s.busy = true ∧ agentStep s = engineStep s) ∨
      (∃ op, hostOp s = some op ∧ s.busy = false ∧ agentStep s = hostExec op s) ∨
      (∃ op, hostOp s = some op ∧ s.busy = true ∧ s.waited < Config.engineDelay s.oracle ∧
        agentStep s = hostExec op { s with waited := s.waited + 1 }) ∨
      (∃ op, hostOp s = some op ∧ s.busy = true ∧ Config.engineDelay s.oracle ≤ s.waited ∧
        agentStep s = engineStep s) := by
  unfold agentStep
  cases ho : hostOp s with
  | none => cases hb : s.busy <;> simp
  | some op =>
    cases hb : s.busy with
    | false => simp
    | true =>
      by_cases hd : s.waited < Config.engineDelay s.oracle
      · simp [hd]
      · have : Config.engineDelay s.oracle ≤ s.waited := by omega
        simp [hd, this]

end Sys2Proof.Machine
end

