-- ==== Sys2Proof/Laws/Invariant.lean ====
section
/-! SUPPORT. Each named update of the state keeps the machine's invariant. -/

namespace Sys2Proof.Machine

/-- Storage of the map with a run of storage addresses written is storage of the map. -/
theorem inStorage_writeRun {m : List Host.Cell} {n a : Nat} {vs : List Byte}
    (hm : ∀ c ∈ m, inStorage n c.1 = true)
    (hr : ∀ x, a ≤ x → x < a + vs.length → inStorage n x = true) :
    ∀ c ∈ writeRun m a vs, inStorage n c.1 = true := fun c hc =>
  (mem_writeRun hc).elim (fun hb => hr c.1 hb.1 hb.2) (hm c)

theorem inStorage_coef (n x : Nat) (h1 : coefAddr 0 ≤ x) (h2 : x < coefAddr 4096) : inStorage n x = true := by
  simp only [coefAddr, coefBase] at h1 h2
  have h3 : 0x01000 ≤ x := by omega
  have h4 : x < 0x04000 := by omega
  simp [inStorage, pixBase, h3, h4]

theorem inStorage_out (n x : Nat) (h1 : outBase ≤ x) (h2 : x < outBase + n) : inStorage n x = true := by
  simp only [inStorage, Bool.or_eq_true, Bool.and_eq_true, decide_eq_true_eq]
  omega

theorem unspecifiedScratch_length (n : Nat) : (unspecifiedScratch n).length = 4096 := by
  unfold unspecifiedScratch
  exact (List.length_map _).trans List.length_range

theorem resetWith_inv {p : Params} (hp : p.legal = true) (s : State) (h : s = State.resetWith p) : s.Inv := by
  subst h
  refine ⟨hp, List.Pairwise.nil, fun c hc => absurd hc List.not_mem_nil, ?_, rfl, Nat.zero_le _, List.Pairwise.nil⟩
  show resetScratch.length = 4096
  rw [resetScratch, List.length_replicate]

namespace State.Inv

variable {s : State} (h : s.Inv)
include h

theorem complete (e : ErrCode) : (complete s e).Inv := h

theorem draw : (draw s).Inv := h

theorem latch (w : Word) : (latch s w).Inv := ⟨h.1, h.2.1, h.2.2.1, h.2.2.2.1, rfl, h.2.2.2.2.2⟩

theorem waiting (n : Nat) : State.Inv { s with waited := n } := h

theorem scrambleScratch : (scrambleScratch s).Inv :=
  ⟨h.1, h.2.1, h.2.2.1, by rw [scrambleScratch_scratch, unspecifiedScratch_length], h.2.2.2.2.1, h.2.2.2.2.2.1, h.2.2.2.2.2.2⟩

theorem setResult (r : Word) (hr : r.toNat ≤ s.params.outBytes) : State.Inv { s with result := r } :=
  ⟨h.1, h.2.1, h.2.2.1, h.2.2.2.1, h.2.2.2.2.1, hr, h.2.2.2.2.2.2⟩

/-- Storage replaced by canonical storage of the map. -/
theorem setMem (m : List Host.Cell) (hm : Memory.wf m) (hs : ∀ c ∈ m, inStorage s.params.outBytes c.1 = true) :
    State.Inv { s with mem := m } := ⟨h.1, hm, hs, h.2.2.2⟩

theorem writeCoefs (start : Nat) (vs : List HalfWord) (hle : start + vs.length ≤ 4096) :
    (writeCoefs s start vs).Inv :=
  h.setMem _ (wf_writeRun h.2.1 _ _) <| inStorage_writeRun h.2.2.1 fun x h1 h2 => by
    simp only [halvesToBytes_length, coefAddr] at h1 h2
    exact inStorage_coef _ x (by simp only [coefAddr]; omega) (by simp only [coefAddr]; omega)

theorem clearOut (n : Nat) : (clearOut s n).Inv :=
  h.setMem _ (wf_eraseRun h.2.1 _ _) fun c hc => h.2.2.1 c (mem_eraseRun hc)

theorem writeOut (bytes : List Byte) (hle : bytes.length ≤ s.params.outBytes) : (writeOut s bytes).Inv :=
  h.setMem _ (wf_writeRun h.2.1 _ _) <| inStorage_writeRun h.2.2.1 fun x h1 h2 =>
    inStorage_out _ x h1 (by omega)

theorem storeStream (stream : List Byte) (hcap : s.outcap.toNat ≤ s.params.outBytes) :
    (storeStream s stream).Inv := by
  rcases storeStream_cases s stream with ⟨_, e⟩ | ⟨hle, e⟩
  · rw [e]
    exact ((h.clearOut _).setResult 0#32 (Nat.zero_le _)).complete _
  · rw [e]
    refine (((h.clearOut _).writeOut stream ?_).setResult _ ?_).complete _
    · exact Nat.le_trans hle hcap
    · exact Nat.le_trans (Nat.mod_le _ _) (Nat.le_trans hle hcap)

theorem hostGoto (pos : Nat) : (hostGoto s pos).Inv := h

theorem hostNext : (hostNext s).Inv := h

theorem hostSet (t : Nat) (v : Word) : (hostSet s t v).Inv :=
  ⟨h.1, h.2.1, h.2.2.1, h.2.2.2.1, h.2.2.2.2.1, h.2.2.2.2.2.1, wf_writeRun h.2.2.2.2.2.2 _ _⟩

theorem assertReset : (assertReset s).Inv := by
  obtain ⟨_, _, _, h4, h5, h6, _⟩ := resetWith_inv h.1 _ rfl
  exact ⟨h.1, List.Pairwise.nil, fun c hc => absurd hc List.not_mem_nil, h4, h5, h6, h.2.2.2.2.2.2⟩

theorem writeRegister (off : Nat) (v : Word) : (writeRegister s off v).Inv := by
  rcases writeRegister_cases s off v with ⟨_, e⟩ | ⟨_, e⟩ | ⟨_, e⟩ | ⟨_, e⟩ | ⟨q, _, e⟩ | ⟨_, _, _, _, _, e⟩
  · rw [e]; exact h.latch v
  all_goals rw [e]; exact h

end State.Inv

end Sys2Proof.Machine
end

