-- ==== Sys2Proof/Laws/PerInstr.lean ====
section
/-! SUPPORT. The per-instruction family TableRow: the word a well-formed command assembles to belongs to its own row of
the opcode table, and to no other row. -/

namespace Sys2Proof.Laws.TableRow

/-- The word of a well-formed command belongs to its own row of spec/opcode_table.json and to no other. -/
def Statement (i : Instr) : Prop :=
  i.wellFormed = true → ∀ r ∈ opcodeTable, r.covers (encode i) = decide (r = opcodeRow i)

theorem dwtStd : Statement .dwtStd := by intro _; decide

theorem dwtRe : Statement .dwtRe := by intro _; decide

theorem quant : Statement .quant := by intro _; decide

theorem diff (sb : Nat) : Statement (.diff sb) := by
  intro h
  have hsb : sb < 16 := by simpa [Instr.wellFormed] using h
  revert h
  interval_cases sb <;> intro _ <;> decide

theorem rlgr1 : Statement .rlgr1 := by intro _; decide

theorem rlgr3 : Statement .rlgr3 := by intro _; decide

end Sys2Proof.Laws.TableRow
end

