-- ==== Sys2Proof/Tests/Slice0.lean ====
section
/-! SUPPORT. The model's own tests: ill-formed terms, words written out bit by bit from spec/30_encoding.md, vectors of
spec/95_test_vectors.md on one step, and for every statement with hypotheses a concrete case that meets them. -/

namespace Sys2Proof.Tests

open Sys2Proof Sys2Proof.Machine

/-! ### WellFormed refuses -/

theorem test_diff_15_is_well_formed : (Instr.diff 15).wellFormed = true := by decide
theorem test_diff_16_is_ill_formed : (Instr.diff 16).wellFormed = false := by decide
theorem test_default_profile_is_legal : defaultProfile.legal = true := by decide
theorem test_profile_needs_small_lsgr :
    ({ defaultProfile with k0 := 0, kr0 := 0, lsgr := 9 } : Profile).legal = false := by decide
theorem test_profile_needs_k0_in_range : ({ defaultProfile with k0 := 11 } : Profile).legal = false := by decide
theorem test_profile_needs_kr0_in_range : ({ defaultProfile with kr0 := 11 } : Profile).legal = false := by decide
theorem test_profile_needs_small_kpmax : ({ defaultProfile with kpmax := 128 } : Profile).legal = false := by decide
theorem test_profile_needs_upGr_in_range : ({ defaultProfile with upGr := 81 } : Profile).legal = false := by decide
theorem test_profile_needs_dnGr_in_range : ({ defaultProfile with dnGr := 81 } : Profile).legal = false := by decide
theorem test_profile_needs_uqGr_in_range : ({ defaultProfile with uqGr := 81 } : Profile).legal = false := by decide
theorem test_profile_needs_dqGr_in_range : ({ defaultProfile with dqGr := 81 } : Profile).legal = false := by decide

/-- A parameter record at the two ends of every range (R6). -/
def smallParams : Params := { defaultParams with dwtScale := 1, outBytes := 1, capLevel := .scalar }

theorem test_small_params_are_legal : smallParams.legal = true := by decide
theorem test_params_need_positive_scale : ({ smallParams with dwtScale := 0 } : Params).legal = false := by decide
theorem test_params_need_scale_to_256 : ({ smallParams with dwtScale := 257 } : Params).legal = false := by decide
theorem test_params_need_an_out_byte : ({ smallParams with outBytes := 0 } : Params).legal = false := by decide
theorem test_params_need_out_to_64k : ({ smallParams with outBytes := 65537 } : Params).legal = false := by decide
theorem test_params_need_legal_rlgr1 :
    ({ smallParams with rlgr1Profile := { defaultProfile with lsgr := 9 } } : Params).legal = false := by decide
theorem test_params_need_legal_rlgr3 :
    ({ smallParams with rlgr3Profile := { defaultProfile with lsgr := 9 } } : Params).legal = false := by decide

/-! ### Words written out from R91 and R92: RSV (20 bits), SB (4 bits), OP (8 bits) -/

theorem test_word_dwtStd : decode (0b00000000000000000000#20 ++ 0b0000#4 ++ 0b00000001#8) = .command .dwtStd := by decide
theorem test_word_dwtRe : decode (0b00000000000000000000#20 ++ 0b0000#4 ++ 0b00000010#8) = .command .dwtRe := by decide
theorem test_word_quant : decode (0b00000000000000000000#20 ++ 0b0000#4 ++ 0b00000011#8) = .command .quant := by decide
theorem test_word_diff_ll3 :
    decode (0b00000000000000000000#20 ++ 0b0000#4 ++ 0b00000100#8) = .command (.diff 0) := by decide
theorem test_word_diff_hh1 :
    decode (0b00000000000000000000#20 ++ 0b1001#4 ++ 0b00000100#8) = .command (.diff 9) := by decide
theorem test_word_diff_15 :
    decode (0b00000000000000000000#20 ++ 0b1111#4 ++ 0b00000100#8) = .command (.diff 15) := by decide
theorem test_word_rlgr1 : decode (0b00000000000000000000#20 ++ 0b0000#4 ++ 0b00000101#8) = .command .rlgr1 := by decide
theorem test_word_rlgr3 : decode (0b00000000000000000000#20 ++ 0b0000#4 ++ 0b00000110#8) = .command .rlgr3 := by decide

/-- The illegal words of L2.6. -/
theorem test_illegal_words :
    [0x00000000#32, 0x00000007#32, 0x000000FF#32, 0x00000101#32, 0x00000105#32, 0x00001004#32, 0x80000003#32].map decode =
      [.illegal .reservedOpcode, .illegal .reservedOpcode, .illegal .reservedOpcode, .illegal .subbandBits,
        .illegal .subbandBits, .illegal .reservedBits, .illegal .reservedBits] := by decide

/-- R97's assembled words. -/
theorem test_assembled_words :
    [Instr.dwtStd, .dwtRe, .quant, .diff (quantIndex .ll3), .diff (quantIndex .hl1), .diff (quantIndex .hh1), .diff 12,
        .rlgr1, .rlgr3].map encode =
      [0x00000001#32, 0x00000002#32, 0x00000003#32, 0x00000004#32, 0x00000804#32, 0x00000904#32, 0x00000C04#32,
        0x00000005#32, 0x00000006#32] := by decide

theorem test_decodeTableWord :
    decodeTableWord 32 0x904 = some (.diff 9) ∧ decodeTableWord 32 0x1004 = none ∧ decodeTableWord 8 0x05 = some .rlgr1 := by
  decide

/-! ### Small states -/

/-- Right after reset with the defaults of R6 and the scalar datapath. -/
def base : State := State.resetWith { defaultParams with capLevel := .scalar }

/-- COEF[4015] upward holds the given values (the LL3 subband starts there), RSTART 4015, RCOUNT their number. -/
def ll3State (values : List Int) (cap : Nat) : State :=
  { base with
    mem := cellsAt (coefAddr 4015) (halvesToBytes (values.map wrap16))
    rstart := 4015#32
    rcount := BitVec.ofNat 32 values.length
    outcap := BitVec.ofNat 32 cap }

/-- A completed step's state. -/
def next? (o : Host.Outcome State Fault Refusal) : Option State :=
  match o with
  | .next t => some t
  | .fault _ => none
  | .refused _ => none

/-- What a completed RLGR command leaves: ERR, RESULT and the marked bytes among OUT[0..n-1]. -/
def streamOf (n : Nat) (o : Host.Outcome State Fault Refusal) : Option (ErrCode × Word × List (Option Byte)) :=
  (next? o).map fun t => (t.err, t.result, (List.range n).map (outAt t))

/-! ### The DWT (L2.1, L2.2) -/

/-- V-1D-2, V-1D-3 and V-1D-7's last values, both variants: an impulse, floors on odd sums, and a store that wraps. -/
theorem test_transform_vectors (t : Variant) :
    transform t ([0, 0, 0, 0, 0, 0, 0, 0, 100, 0, 0, 0, 0, 0, 0, 0, 0].map wrap16) =
        ([0, 0, 0, -13, 75, -13, 0, 0, 0].map wrap16, [0, 0, 0, -25, -25, 0, 0, 0].map wrap16) ∧
      transform t ([5, -3, 8, 8, -1, 0, 7, 2, 9, -6, 4, 4, 3, -2, 1, 0, 11].map wrap16) =
        ([0, 6, -1, 4, 4, 1, 2, -2, 8].map wrap16, [-5, 2, -2, -3, -6, 0, -2, -3].map wrap16) ∧
      (transform t ((List.range 64).map fun i => if i % 2 = 0 then wrap16 (-32768) else wrap16 32767)).1.drop 31 =
        [wrap16 (-16385), wrap16 32766] := by
  cases t <;> decide

/-- One level on 17 by 17 samples with 100 in the corner, by hand from R122: the vertical pass leaves 75, -13 and -25 in
column 0, the horizontal pass turns them into (L 56, -10, H -19), (L -10, 1, H 3) and (L -19, 3, H 6). -/
theorem test_level_of_an_impulse (t : Variant) :
    let b := dwtLevel t 17 ((wrap16 100 :: List.replicate 16 0#16) :: List.replicate 16 (List.replicate 17 0#16))
    (b.ll.take 2).map (·.take 3) = [[56, -10, 0].map wrap16, [-10, 1, 0].map wrap16] ∧
      (b.hl.take 2).map (·.take 2) = [[-19, 0].map wrap16, [3, 0].map wrap16] ∧
      (b.lh.take 2).map (·.take 3) = [[-19, 3, 0].map wrap16, [0, 0, 0].map wrap16] ∧
      (b.hh.take 2).map (·.take 2) = [[6, 0].map wrap16, [0, 0].map wrap16] := by
  cases t <;> decide +kernel

/-! ### QUANT and DIFF (L2.3, L2.4) -/

/-- V-QUANT-1 and V-QUANT-2. -/
theorem test_quantize_vectors :
    ([(-1, 1), (-5, 2), (5, 2), (32767, 15), (-32768, 15), (-32768, 0), (100, 3), (-100, 3)].map fun p =>
        (quantize .floor (wrap16 p.1) p.2).toInt) = [-1, -2, 1, 0, -1, -32768, 12, -13] ∧
      ([(32767, 1), (-1, 1), (32767, 15), (-32768, 15), (5, 1), (-5, 1), (-6, 2), (7, 0)].map fun p =>
        (quantize .halfUp (wrap16 p.1) p.2).toInt) = [16384, 0, 1, -1, 3, -2, -1, 7] := by decide

/-- V-QUANT-4: a shift of 16, COEF never written. -/
theorem test_quant_rejects_16 :
    (next? (exec .quant { base with qshift := base.qshift.set 3 16#8 })).map (·.err) = some .invalidParameter := by decide

/-- V-DIFF-2 and V-DIFF-5: the wrap, and the command's scan applied twice. -/
theorem test_differences_vectors :
    differences ([32767, -32768, 0].map wrap16) = [32767, 1, -32768].map wrap16 ∧
      differences ([1, 2, 4, 7].map wrap16) = [1, 1, 2, 3].map wrap16 ∧
      differences (differences ([1, 2, 4, 7].map wrap16)) = [1, 0, 1, 1].map wrap16 := by decide

/-- V-DIFF-1 through the command: LL3 element i is ((37 i) mod 11) - 5. -/
theorem test_diff_ll3 :
    (next? (exec (.diff 0) (ll3State ((List.range 81).map fun i => ((37 * i) % 11 : Nat) - 5) 0))).map (fun t =>
        (List.range 15).map fun i => (coefAt t (4015 + i)).map BitVec.toInt) =
      some ([-5, 4, 4, -7, 4, 4, -7, 4, 4, -7, 4, -7, 4, 4, -7].map some) := by
  decide +kernel

/-! ### RLGR (L2.5) -/

/-- V-RLGR-6 and V-RLGR-28 with OUTCAP 3. -/
theorem test_rlgr1_example :
    streamOf 4 (exec .rlgr1 (ll3State [3, -2, 0, 0, 0, 0, 1] 3)) =
      some (.ok, 3#32, [some 0x92#8, some 0x86#8, some 0x00#8, none]) := by decide

/-- V-RLGR-28 with OUTCAP 2. -/
theorem test_rlgr1_one_byte_short :
    streamOf 3 (exec .rlgr1 (ll3State [3, -2, 0, 0, 0, 0, 1] 2)) = some (.capacityExceeded, 0#32, [none, none, none]) := by
  decide

/-- V-RLGR-7. -/
theorem test_rlgr3_example :
    streamOf 4 (exec .rlgr3 (ll3State [3, -2, 0, 0, 0, 0, 1] 8)) =
      some (.ok, 3#32, [some 0x92#8, some 0xE6#8, some 0x00#8, none]) := by decide

/-- V-RLGR-15. -/
theorem test_rlgr3_ramp :
    streamOf 8 (exec .rlgr3 (ll3State [1, 2, 3, 4, 5, 6, 7, 8] 8)) =
      some (.ok, 8#32, [0x87#8, 0xFE#8, 0x4F#8, 0x48#8, 0xFD#8, 0x33#8, 0x08#8, 0x00#8].map some) := by decide

/-! ### The host bus (L2.7) -/

/-- The state after a permitted write. -/
def written (s : State) (w : Width) (a : Address) (v : Word) : State :=
  match hostWrite s w a v with
  | .ok t => t
  | .error _ => s

/-- The value of a permitted read, or the fault. -/
def readBack (s : State) (w : Width) (a : Address) : Word ⊕ Fault :=
  match hostRead s w a with
  | .ok v => .inl v
  | .error f => .inr f

/-- V-MEM-1. -/
theorem test_coef_byte_order :
    let s := written (written base .w16 0x02000#17 0x8000#32) .w32 0x02004#17 0xFFFE0003#32
    coefAt s 0 = some (wrap16 (-32768)) ∧ coefAt s 2 = some (wrap16 3) ∧ coefAt s 3 = some (wrap16 (-2)) ∧
      readBack s .w8 0x02001#17 = .inl 0x80#32 ∧ readBack s .w16 0x02006#17 = .inl 0xFFFE#32 := by decide

/-- V-MEM-3: one byte of an element written. -/
theorem test_partial_coef_write :
    let s := written base .w8 0x02000#17 0x05#32
    readBack s .w8 0x02000#17 = .inl 0x05#32 ∧ readBack s .w8 0x02001#17 = .inr .unwrittenRead ∧
      readBack s .w16 0x02000#17 = .inr .unwrittenRead ∧ coefAt s 0 = none ∧
      coefAt (written s .w8 0x02001#17 0xFF#32) 0 = some (wrap16 (-251)) := by decide

/-- V-MEM-4. -/
theorem test_host_faults :
    readBack base .w32 0x04000#17 = .inr .unmappedAddress ∧ readBack base .w32 0x02002#17 = .inr .misalignedAccess ∧
      readBack base .w16 0x00004#17 = .inr .forbiddenWidth ∧ readBack base .w8 0x01000#17 = .inr .unwrittenRead ∧
      readBack base .w8 0x1FFFF#17 = .inr .unwrittenRead ∧
      readBack (State.resetWith { base.params with outBytes := 1024 }) .w8 0x10400#17 = .inr .unmappedAddress := by decide

/-- V-MEM-5. -/
theorem test_registers :
    readBack (written base .w32 0x00FFC#17 5#32) .w32 0x00FFC#17 = .inl 0#32 ∧
      readBack (written base .w32 0x00020#17 0x1234#32) .w32 0x00020#17 = .inl 0x34#32 ∧
      readBack (written base .w32 0x00044#17 0xFF#32) .w32 0x00044#17 = .inl 0xFF#32 ∧
      readBack (written base .w32 0x00014#17 0xFFFFFFFF#32) .w32 0x00014#17 = .inl 0xFFFFFFFF#32 ∧
      readBack (written base .w32 0x0000C#17 7#32) .w32 0x0000C#17 = .inl 0#32 := by decide

/-- V-MEM-6: STATUS while a command is pending, and after an illegal word. -/
theorem test_status_words :
    statusWord (latch base 0x00000002#32) = 0x00000201#32 ∧
      (next? (step (base.withFetchWord 32 0x105))).map statusWord = some 0x00000530#32 ∧
      (next? (step (base.withFetchWord 32 0xC04))).map statusWord = some 0x00000420#32 := by decide

/-- P4's first lines: QSHIFT3 and a QUANT, as the host notation expands them (R98 to R100). -/
theorem test_host_program :
    assemble [.write .w32 0x0002C#17 16#32, .run .quant] =
      [.write .w32 0x0002C#17 16#32, .write .w32 0x00000#17 0x00000003#32, .read .w32 0x00004#17 0, .bnz 0 1#32 2] := by
  decide

/-- Lines of P2, P3 and P4 as text: a comment, an address with an offset, a label before an operation, a branch. -/
theorem test_host_text :
    parseHostProgram "run diff #12 ; ERR = 2\nr16 COEF+8030 -> c0\nbnz c0 & 0xF0, grow\ngrow:   w32 OUTCAP, 3" =
      some [.run (.diff 12), .read .w16 0x03F5E#17 (nameNumber "c0".toList),
        .bnz (nameNumber "c0".toList) 0xF0#32 (nameNumber "grow".toList), .label (nameNumber "grow".toList),
        .write .w32 0x00010#17 3#32] := by decide

/-- No program: eleven shifts, a value too wide, a branch to no label, a fill past the address space. -/
theorem test_host_text_refused :
    ["setq 1,2,3,4,5,6,7,8,9,10,11", "w32 CMD, 0x100000000", "bnz t & 1, nowhere", "fill8 0x1FFFC, 8, 1"].map
      parseHostProgram = [none, none, none, none] := by decide

/-! ## Witnesses: for every statement with hypotheses, a concrete case that meets them together -/

/-- PIX and COEF all written with one byte value (12288 bytes from PIX[0] on), in the defaults of R6. -/
def tile (b : Byte) : State := { base with mem := cellsAt pixBase (List.replicate 12288 b) }

theorem tile_wf (b : Byte) : Memory.wf (tile b).mem := wf_cellsAt _ _

theorem tile_lookup (b : Byte) (x : Nat) (h1 : 0x1000 ≤ x) (h2 : x < 0x4000) : lookup (tile b).mem x = some b := by
  show lookup (cellsAt pixBase (List.replicate 12288 b)) x = some b
  have h3 : pixBase ≤ x := h1
  have h4 : x - pixBase < 12288 := by unfold pixBase; omega
  rw [lookup_cellsAt, if_pos h3, List.getElem?_replicate, if_pos h4]

theorem tile_pix (b : Byte) (i : Nat) (h : i < 4096) : pixAt (tile b) i = some b :=
  tile_lookup b _ (by unfold pixAddr pixBase; omega) (by unfold pixAddr pixBase; omega)

theorem tile_coef (b : Byte) (i : Nat) (h : i < 4096) : coefAt (tile b) i = some (b ++ b) := by
  unfold coefAt
  rw [tile_lookup b (coefAddr i) (by unfold coefAddr coefBase; omega) (by unfold coefAddr coefBase; omega),
    tile_lookup b (coefAddr i + 1) (by unfold coefAddr coefBase; omega) (by unfold coefAddr coefBase; omega)]

theorem tile_pixWritten (b : Byte) : PixWritten (tile b) := fun i hi => by rw [tile_pix b i hi]; rfl

theorem tile_coefWritten (b : Byte) (start count : Nat) (h : start + count ≤ 4096) :
    CoefWritten (tile b) start count := fun i hi => by rw [tile_coef b (start + i) (by omega)]; rfl

theorem tile_readPix (b : Byte) : readPix (tile b) = some (List.replicate 4096 b) :=
  (readPix_eq_some (tile_wf b) _).mpr ⟨List.length_replicate, fun i hi => by
    rw [tile_pix b i hi, List.getElem?_replicate, if_pos hi]⟩

theorem tile_readCoefs (b : Byte) (start count : Nat) (h : start + count ≤ 4096) :
    readCoefs (tile b) start count = some (List.replicate count (b ++ b)) :=
  (readCoefs_eq_some (tile_wf b) _ _ _).mpr ⟨List.length_replicate, fun i hi => by
    rw [tile_coef b (start + i) (by omega), List.getElem?_replicate, if_pos hi]⟩

theorem tile_shifts (b : Byte) (q : Subband) : shiftOf (tile b) q ≤ 15 := by
  show shiftOf base q ≤ 15
  cases q <;> decide

/-- The states the six commands leave the tile in, for the statements that assume a completed command. -/
theorem tile_runDwt (t : Variant) (b : Byte) : ∃ u, runDwt t (tile b) = .next u := by
  rcases runDwt_cases t (tile b) with ⟨h, _⟩ | ⟨_, _, h⟩
  · rw [tile_readPix] at h; cases h
  · exact ⟨_, h⟩

theorem tile_quant (b : Byte) : ∃ u, exec .quant (tile b) = .next u := by
  rw [exec_quant]
  rcases execQuant_cases (tile b) with ⟨_, h⟩ | ⟨_, h, _⟩ | ⟨_, _, _, h⟩
  · exact ⟨_, h⟩
  · rw [tile_readCoefs b 0 4096 (by omega)] at h; cases h
  · exact ⟨_, h⟩

theorem tile_diff (b : Byte) (q : Subband) : ∃ u, exec (.diff (quantIndex q)) (tile b) = .next u := by
  rw [exec_diff]
  rcases execDiff_cases (quantIndex q) (tile b) with ⟨_, h⟩ | ⟨q', _, ⟨h, _⟩ | ⟨_, _, h⟩⟩
  · exact ⟨_, h⟩
  · rw [tile_readCoefs b _ _ (band_in_coef q')] at h; cases h
  · exact ⟨_, h⟩

/-- The host program of the wait loop, a command pending. -/
def waiting : State :=
  { latch base 0x00000002#32 with host := { program := expandWait 0, pos := 0, vars := [] } }

/-! ### Command words -/

theorem witness_IllegalWords :
    ((base.withFetchWord 32 0x80000003).busy = true ∧ HostIdle (base.withFetchWord 32 0x80000003) ∧
        decode (base.withFetchWord 32 0x80000003).pend = .illegal .reservedBits) ∧
      ∃ s, s = { waiting with pend := 0x00000105#32, waited := Config.engineDelay waiting.oracle } ∧ s.busy = true ∧
        hostOp s = some (.read .w32 0x004#17 0) ∧ Config.engineDelay s.oracle ≤ s.waited ∧
        decode s.pend = .illegal .subbandBits :=
  ⟨by decide, _, rfl, rfl, rfl, Nat.le_refl _, rfl⟩

theorem witness_DecodeReadsBack : ∀ i ∈ [Instr.dwtStd, .dwtRe, .quant, .diff 0, .diff 15, .rlgr1, .rlgr3],
    i.wellFormed = true := by decide

theorem witness_EncodeReadsBack : decode 0x00000F04#32 = .command (.diff 15) := by decide

theorem witness_LegalWordsMatch : decode 0x00000F04#32 = .command (.diff 15) ∧ decode 0x00001004#32 = .illegal .reservedBits := by
  decide

theorem witness_SubbandsPartition : (0 < bandSize .ll3 ∧ 80 < bandSize .ll3 ∧ 960 < bandSize .hh1) ∧ (0 < 4096 ∧ 4095 < 4096) := by
  decide

theorem witness_DwtPlaces : (8 < bandHeight .ll3 ∧ 8 < bandWidth .ll3) ∧ (32 < bandHeight .hl1 ∧ 30 < bandWidth .hl1) := by
  decide

/-! ### The step -/

/-- Once with no host operation waiting, once with one waiting and the delay over. -/
theorem witness_StepPerforms :
    ((base.withFetchWord 32 4).busy = true ∧ decode (base.withFetchWord 32 4).pend = .command (.diff 0) ∧
        HostIdle (base.withFetchWord 32 4)) ∧
      ∃ s, s = { waiting with waited := Config.engineDelay waiting.oracle } ∧ s.busy = true ∧
        decode s.pend = .command .dwtRe ∧ hostOp s = some (.read .w32 0x004#17 0) ∧
        Config.engineDelay s.oracle ≤ s.waited :=
  ⟨by decide, _, rfl, rfl, rfl, rfl, Nat.le_refl _⟩

theorem witness_PlacedCommand : (Instr.diff 15).wellFormed = true ∧ Instr.rlgr3.wellFormed = true := by decide

theorem witness_IdleBlock : (base.busy = false ∧ HostIdle base) ∧
    ({ waiting with busy := false }.busy = false ∧ hostOp { waiting with busy := false } = some (.read .w32 0x004#17 0)) := by
  decide

/-- A command latched after a reset abandoned one has a delay of its own (R261). -/
theorem test_reset_draws_a_new_delay : (latch (assertReset (latch base 2#32)) 2#32).oracle = 2 ∧
    (latch base 2#32).oracle = 1 ∧
    (latch (resetAfter (base.withFetchWord 32 1) (step (base.withFetchWord 32 1))) 2#32).oracle = 2 := by decide

/-- The wait loop with DIFF #12 pending, which completes. -/
def waitingForDiff : State := { waiting with pend := 0x00000C04#32 }

theorem witness_WaitLoop : waitingForDiff.busy = true ∧ waitingForDiff.host.pos = 0 ∧
    waitingForDiff.host.program[0]? = some (.read .w32 (BitVec.ofNat 17 statusOffset) waitVariable) ∧
    waitingForDiff.host.program[0 + 1]? = some (.bnz waitVariable 1#32 0) ∧
    (next? (engineStep waitingForDiff)).map (·.err) = some .invalidParameter := by decide

/-! ### Reset and registers -/

theorem witness_ResetAbandons : ∃ f, step (base.withFetchWord 32 1) = .fault f := ⟨.unwrittenRead, rfl⟩

theorem witness_CommandWriteLatches : base.busy = false ∧ waiting.busy = true ∧ HostIdle (latch base 0x00000002#32) := by
  decide

theorem witness_StatusHolds : base.busy = false := rfl

theorem witness_ReservedRegisters : base.busy = false ∧ (0x01C#17).toNat % 4 = 0 ∧
    (0x048#17 ≤ 0x048#17 ∧ 0x048#17 ≤ 0xFFC#17 ∧ (0x048#17).toNat % 4 = 0) ∧
    (0x048#17 ≤ 0xFFC#17 ∧ 0xFFC#17 ≤ 0xFFC#17 ∧ (0xFFC#17).toNat % 4 = 0) ∧
    (0x004#17).toNat % 4 = 0 ∧ (0x008#17).toNat % 4 = 0 ∧ (0x00C#17).toNat % 4 = 0 := by decide

theorem witness_OperandRegisters : base.busy = false := rfl

theorem witness_Capability : base.busy = false ∧ step base = .next base := ⟨rfl, rfl⟩

/-! ### The host bus -/

theorem inStorage_of_tile (n x : Nat) (h1 : 0x1000 ≤ x) (h2 : x < 0x4000) : inStorage n x = true := by
  have h3 : pixBase ≤ x := h1
  simp [inStorage, h2, h3]

/-- The first and last address of the hole, an access that straddles the end of an OUT of 1023 bytes, and one past it. -/
theorem witness_Unmapped :
    (∃ i < byteCount .w32, 0x04000 ≤ (0x04000#17).toNat + i ∧ (0x04000#17).toNat + i ≤ 0x0FFFF) ∧
      (∃ i < byteCount .w32, 0x10000 + 1023 ≤ (0x103FC#17).toNat + i ∧ (0x103FC#17).toNat + i ≤ 0x1FFFF) ∧
      ((∀ i < byteCount .w32, 0x04000 ≤ (0x0FFFC#17).toNat + i ∧ (0x0FFFC#17).toNat + i ≤ 0x0FFFF) ∧
        (0x0FFFC#17).toNat % byteCount .w32 = 0 ∧ base.busy = false) ∧
      (∀ i < byteCount .w16, 0x10000 + 1023 ≤ (0x10400#17).toNat + i ∧ (0x10400#17).toNat + i ≤ 0x1FFFF) ∧
        (0x10400#17).toNat % byteCount .w16 = 0 := by decide

theorem witness_Misaligned : (0x1FFFF#17).toNat % byteCount .w16 ≠ 0 ∧ (0x02002#17).toNat % byteCount .w32 ≠ 0 ∧
    (∀ i < byteCount .w32, inStorage base.params.outBytes ((0x02002#17).toNat + i) = true) ∧ base.busy = false := by decide

theorem witness_Windows :
    ((0x000#17).toNat < 0x1000 ∧ (0xFFF#17).toNat < 0x1000 ∧ Width.w8 ≠ Width.w32) ∧
      (base.busy = false ∧ (0xFFC#17).toNat < 0x1000 ∧ (0xFFC#17).toNat % 4 = 0) ∧
      ((tile 5).busy = false ∧ (0x03FFC#17).toNat % byteCount .w32 = 0 ∧
        (∀ i < byteCount .w32, inStorage (tile 5).params.outBytes ((0x03FFC#17).toNat + i) = true) ∧
        (∀ i < byteCount .w32, (lookup (tile 5).mem ((0x03FFC#17).toNat + i)).isSome) ∧ Memory.wf (tile 5).mem) ∧
      ((0 < 2048 ∧ 2047 < 2048) ∧ coefAt (tile 5) (2 * 2047) = some (5#8 ++ 5#8) ∧
        coefAt (tile 5) (2 * 2047 + 1) = some (5#8 ++ 5#8)) ∧
      (0 < byteCount .w32 ∧ 3 < byteCount .w32 ∧
        regionOf 65536 ((0x0FFE#17).toNat + 0) ≠ regionOf 65536 ((0x0FFE#17).toNat + 3) ∧
        regionOf 65536 ((0x1FFE#17).toNat + 0) ≠ regionOf 65536 ((0x1FFE#17).toNat + 3) ∧
        regionOf 1023 ((0x103FC#17).toNat + 0) ≠ regionOf 1023 ((0x103FC#17).toNat + 3)) := by
  refine ⟨by decide, by decide, ⟨rfl, by decide, fun i hi => ?_, fun i hi => ?_, tile_wf 5⟩,
    ⟨by decide, tile_coef 5 _ (by omega), tile_coef 5 _ (by omega)⟩, by decide⟩
  · have hi' : i < 4 := hi
    exact inStorage_of_tile _ _ (by show 0x1000 ≤ 0x3FFC + i; omega) (by show 0x3FFC + i < 0x4000; omega)
  · have hi' : i < 4 := hi
    rw [tile_lookup 5 _ (by show 0x1000 ≤ 0x3FFC + i; omega) (by show 0x3FFC + i < 0x4000; omega)]; rfl

theorem witness_BusyBlock : waiting.busy = true ∧ ¬ (Width.w8 = Width.w32 ∧ 0x004#17 = 0x004#17) ∧
    ¬ (Width.w32 = Width.w32 ∧ 0x000#17 = 0x004#17) := by decide

theorem witness_StorageReadsBack : Memory.wf base.mem ∧ 0x1000 ≤ (0x02000#17).toNat ∧
    (∃ t, hostWrite base .w8 0x02000#17 0x05#32 = .ok t) ∧ (∃ t, hostWrite base .w16 0x03FFE#17 0x8000#32 = .ok t) ∧
    ∃ t, hostWrite base .w32 0x1FFFC#17 0x04030201#32 = .ok t :=
  ⟨by decide, by decide, ⟨_, rfl⟩, ⟨_, rfl⟩, ⟨_, rfl⟩⟩

theorem witness_RepeatedWrites : 0x020#17 ≠ 0x000#17 ∧ 0x01000#17 ≠ 0x000#17 ∧
    (∃ t, hostWrite base .w32 0x020#17 0x1234#32 = .ok t) ∧ ∃ t, hostWrite base .w8 0x01000#17 7#32 = .ok t :=
  ⟨by decide, by decide, ⟨_, rfl⟩, ⟨_, rfl⟩⟩

theorem witness_FillExpansions : base.busy = false ∧ Memory.wf base.mem ∧ (0x01000#17).toNat % 4 = 0 ∧ 4096 % 4 = 0 ∧
    (∀ i < 4096, inStorage base.params.outBytes ((0x01000#17).toNat + i) = true) ∧ (0x01000#17).toNat + 4096 ≤ 0x20000 :=
  ⟨rfl, by decide, by decide, by decide, fun i hi =>
    inStorage_of_tile _ _ (by show 0x1000 ≤ 0x1000 + i; omega) (by show 0x1000 + i < 0x4000; omega), by decide⟩

/-! ### The DWT engine -/

theorem witness_TransformVariants : (List.replicate 64 1#16).length = 64 ∧ (List.replicate 33 1#16).length = 33 ∧
    (List.replicate 17 1#16).length = 17 := by decide

theorem witness_DwtCommandsSame : (∃ u, exec .dwtStd (tile 200#8) = .next u) ∧ ∃ u, exec .dwtRe (tile 200#8) = .next u :=
  ⟨tile_runDwt .std 200#8, tile_runDwt .re 200#8⟩

theorem witness_VectorDatapath : (0 < 8 ∧ 0 < 1) ∧ (List.replicate 33 (List.replicate 33 1#16)).length = 33 ∧
    ∀ row ∈ List.replicate 33 (List.replicate 33 1#16), row.length = 33 := by decide

theorem witness_DwtCommands : Memory.wf (tile 200#8).mem ∧ (List.replicate 4096 200#8).length = 4096 ∧
    ∀ i < 4096, pixAt (tile 200#8) i = (List.replicate 4096 200#8)[i]? :=
  ⟨tile_wf _, List.length_replicate, fun i hi => by rw [tile_pix _ i hi, List.getElem?_replicate, if_pos hi]⟩

theorem witness_DwtFrame : (∃ u, exec .dwtStd (tile 200#8) = .next u) ∧ ∃ u, exec .dwtRe (tile 200#8) = .next u :=
  ⟨tile_runDwt .std 200#8, tile_runDwt .re 200#8⟩

theorem witness_ConstantBlock : Memory.wf (tile 200#8).mem ∧ ∀ i < 4096, pixAt (tile 200#8) i = some 200#8 :=
  ⟨tile_wf _, tile_pix _⟩

/-! ### QUANT and DIFF -/

theorem witness_Quantize : 0 ≤ 15 ∧ 1 ≤ 1 ∧ 1 ≤ 15 ∧ 15 ≤ 15 := by decide

theorem witness_QuantRejects : 15 < shiftOf { base with qshift := base.qshift.set 3 16#8 } .hh3 ∧
    15 < shiftOf { base with qshift := base.qshift.set 9 255#8 } .hh1 := by decide

theorem witness_QuantShifts : Memory.wf (tile 5).mem ∧ (∀ b, shiftOf (tile 5) b ≤ 15) ∧ CoefWritten (tile 5) 0 4096 :=
  ⟨tile_wf _, tile_shifts _, tile_coefWritten _ _ _ (by omega)⟩

/-- Two QUANT commands on a written COEF, the second with every shift 15. -/
theorem witness_RepeatedQuant : ∃ (t u : State) (shifts : Vector Byte 10), Memory.wf (tile 5).mem ∧
    (tile 5).params.quantRounding = .floor ∧ (∀ b, shiftOf (tile 5) b ≤ 15) ∧
    (∀ b, shiftOf { tile 5 with qshift := shifts } b ≤ 15) ∧ exec .quant (tile 5) = .next t ∧
    exec .quant { t with qshift := shifts } = .next u ∧ 0 < bandSize .hh1 ∧
    coefAt (tile 5) (bandOffset .hh1 + 0) = some (5#8 ++ 5#8) := by
  rw [exec_quant]
  rcases execQuant_cases (tile 5) with ⟨h, _⟩ | ⟨_, h, _⟩ | ⟨coefs, _, hr, e⟩
  · rw [(shiftsLegal_iff _).mpr (tile_shifts 5)] at h; cases h
  · rw [tile_readCoefs 5 0 4096 (by omega)] at h; cases h
  · have hlen := readCoefs_length hr
    generalize ht : complete (writeCoefs (tile 5) 0 (quantizeAll (tile 5) coefs)) .ok = t at e
    have hsome : ∀ i < 4096, coefAt { t with qshift := Vector.replicate 10 15#8 } i = (quantizeAll (tile 5) coefs)[i]? := by
      intro i hi
      subst ht
      refine (coefAt_writeCoefs (tile 5) 0 (quantizeAll (tile 5) coefs) i).trans ?_
      rw [quantizeAll_length, hlen, if_pos ⟨Nat.zero_le _, by omega⟩, Nat.sub_zero]
    have hwf : Memory.wf ({ t with qshift := Vector.replicate 10 15#8 } : State).mem := by
      subst ht
      exact wf_writeRun (tile_wf 5) _ _
    have hsh : shiftsLegal { t with qshift := Vector.replicate 10 15#8 } = true :=
      (shiftsLegal_iff _).mpr fun b => by cases b <;> exact (by decide : 15 ≤ 15)
    refine ⟨t, ?_⟩
    rcases execQuant_cases { t with qshift := Vector.replicate 10 15#8 } with ⟨h, _⟩ | ⟨_, h, _⟩ | ⟨coefs', _, _, e'⟩
    · rw [hsh] at h; cases h
    · obtain ⟨i, hi, hn⟩ := (readCoefs_eq_none hwf 0 4096).mp h
      rw [Nat.zero_add, hsome i hi] at hn
      simp only [List.getElem?_eq_none_iff, quantizeAll_length] at hn
      omega
    · exact ⟨_, Vector.replicate 10 15#8, tile_wf 5, rfl, tile_shifts 5,
        fun b => by cases b <;> exact (by decide : 15 ≤ 15), e, e', by decide, tile_coef 5 _ (by decide)⟩

theorem witness_DiffRejects : (10 ≤ 10 ∧ 10 ≤ 15) ∧ (10 ≤ 15 ∧ 15 ≤ 15) := by decide

theorem witness_DiffWrites : Memory.wf (tile 5).mem ∧ CoefWritten (tile 5) (bandOffset .hh1) (bandSize .hh1) ∧
    (1 ≤ 960 ∧ 960 < bandSize .hh1) ∧ coefAt (tile 5) (bandOffset .hh1 + 960) = some (5#8 ++ 5#8) ∧
    coefAt (tile 5) (bandOffset .hh1 + (960 - 1)) = some (5#8 ++ 5#8) :=
  ⟨tile_wf _, tile_coefWritten _ _ _ (band_in_coef _), by decide, tile_coef _ _ (by decide), tile_coef _ _ (by decide)⟩

theorem witness_DiffPrefixSum : Memory.wf (tile 5).mem ∧
    readCoefs (tile 5) (bandOffset .ll3) (bandSize .ll3) = some (List.replicate (bandSize .ll3) (5#8 ++ 5#8)) ∧
    (∃ t, exec (.diff (quantIndex .ll3)) (tile 5) = .next t) ∧
    (List.replicate (bandSize .ll3) (5#8 ++ 5#8 : HalfWord))[80]? = some (5#8 ++ 5#8) :=
  ⟨tile_wf _, tile_readCoefs _ _ _ (band_in_coef _), tile_diff _ _, by decide⟩

theorem witness_QuantAndDiffFrame : (∃ u, exec .quant (tile 5) = .next u) ∧ (∃ u, exec (.diff 0) (tile 5) = .next u) ∧
    (∃ u, exec (.diff 10) (tile 5) = .next u) ∧ subbandOfIndex 10 = none ∧ subbandOfIndex 0 = some .ll3 :=
  ⟨tile_quant 5, tile_diff 5 .ll3, ⟨_, rfl⟩, rfl, rfl⟩

/-! ### RLGR -/

theorem witness_RlgrValidates :
    base.rcount.toNat = 0 ∧
      4096 < ({ base with rstart := 4015#32, rcount := 82#32 } : State).rstart.toNat + (82#32).toNat ∧
      4096 < ({ base with rstart := 0xFFFFFFFF#32, rcount := 1#32 } : State).rstart.toNat + (1#32).toNat ∧
      base.params.outBytes < (65537#32).toNat ∧
      ∀ s ∈ [{ tile 5 with rstart := 4095#32, rcount := 1#32, outcap := 65536#32 },
          { tile 5 with rstart := 0#32, rcount := 4096#32, outcap := 0#32 }],
        ¬ (s.rcount.toNat = 0 ∨ 4096 < s.rstart.toNat + s.rcount.toNat ∨ s.params.outBytes < s.outcap.toNat) ∧
          Memory.wf s.mem ∧ CoefWritten s s.rstart.toNat s.rcount.toNat := by
  refine ⟨by decide, by decide, by decide, by decide, fun s hs => ?_⟩
  simp only [List.mem_cons, List.not_mem_nil, or_false] at hs
  rcases hs with rfl | rfl
  · refine ⟨(by decide : ¬ (1 = 0 ∨ 4096 < 4095 + 1 ∨ 65536 < 65536)), tile_wf 5, fun i hi => ?_⟩
    have hi' : i < 1 := hi
    exact tile_coefWritten 5 4095 1 (by omega) i hi'
  · refine ⟨(by decide : ¬ (4096 = 0 ∨ 4096 < 0 + 4096 ∨ 65536 < 0)), tile_wf 5, fun i hi => ?_⟩
    exact tile_coefWritten 5 0 4096 (by omega) i hi

/-- V-RLGR-28: the stream has three bytes; OUTCAP 2 and 3 meet the two cases. -/
theorem witness_RlgrStores :
    (∀ cap ∈ [2, 3], Memory.wf (ll3State [3, -2, 0, 0, 0, 0, 1] cap).mem) ∧
      (∀ cap ∈ [2, 3], (ll3State [3, -2, 0, 0, 0, 0, 1] cap).rcount.toNat ≠ 0 ∧
        (ll3State [3, -2, 0, 0, 0, 0, 1] cap).rstart.toNat + (ll3State [3, -2, 0, 0, 0, 0, 1] cap).rcount.toNat ≤ 4096 ∧
        (ll3State [3, -2, 0, 0, 0, 0, 1] cap).outcap.toNat ≤ 65536 ∧
        7 = (ll3State [3, -2, 0, 0, 0, 0, 1] cap).rcount.toNat ∧
        (∀ k < 7, coefAt (ll3State [3, -2, 0, 0, 0, 0, 1] cap)
          ((ll3State [3, -2, 0, 0, 0, 0, 1] cap).rstart.toNat + k) = ([3, -2, 0, 0, 0, 0, 1].map wrap16)[k]?)) ∧
      base.params.outBytes = 65536 ∧
      (packBits (rlgrEncode .one defaultProfile ([3, -2, 0, 0, 0, 0, 1].map wrap16))).length = 3 ∧
      (packBits (rlgrEncode .three defaultProfile ([3, -2, 0, 0, 0, 0, 1].map wrap16))).length = 3 := by decide

theorem witness_RlgrFrame : (next? (exec .rlgr1 (ll3State [3, -2] 2))).isSome ∧
    (next? (exec .rlgr3 (ll3State [3, -2] 1))).isSome ∧ (ll3State [3, -2] 1).outcap.toNat ≤ 1 := by decide

theorem witness_SignFolding : (0 ≤ (0x7FFF#16).toInt ∧ (0x8000#16).toInt < 0) ∧ (65535 ≤ 65535 ∧ 65535 % 2 = 1) ∧
    (0 ≤ 65535 ∧ 0 % 2 = 0) := by decide

theorem witness_MinBits : (131070 : Nat) ≠ 0 := by decide

theorem witness_Packing : 0 < 8 * (packBits [true]).length ∧ 7 < 8 * (packBits [true]).length := by decide

theorem witness_EveryPass : [0#16] ≠ [] := by decide

theorem witness_Adaptive : defaultProfile.legal = true ∧ 80 ≤ defaultProfile.kpmax ∧ 0 ≤ defaultProfile.kpmax := by decide

/-- Both cases of the statement: V-RLGR-23 and V-RLGR-24 end in a 0 coded in GR mode, V-RLGR-3 in one run mode consumes. -/
theorem witness_DecoderInverts :
    (∀ m ∈ [RlgrMode.one, .three], endsInRun m defaultProfile ([2, 0].map wrap16) = false ∧
        rlgrDecode m defaultProfile 2 (rlgrEncode m defaultProfile ([2, 0].map wrap16)) = [2, 0].map wrap16) ∧
      (∀ m ∈ [RlgrMode.one, .three], endsInRun m defaultProfile [0#16] = true ∧
        rlgrDecode m defaultProfile 1 (rlgrEncode m defaultProfile [0#16]) = [1#16]) := by decide

theorem witness_TrailingZero : runParam defaultProfile (adaptiveStart defaultProfile).kp ≠ 0 := by decide

theorem witness_CapacityRetry : Memory.wf (ll3State [3, -2, 0, 0, 0, 0, 1] 2).mem ∧
    (ll3State [3, -2, 0, 0, 0, 0, 1] 2).params.outBytes ≤ 65536 ∧
    rlgrInput (ll3State [3, -2, 0, 0, 0, 0, 1] 2) = some ([3, -2, 0, 0, 0, 0, 1].map wrap16) ∧
    (3#32).toNat ≤ (ll3State [3, -2, 0, 0, 0, 0, 1] 2).params.outBytes ∧
    (next? (exec .rlgr1 (ll3State [3, -2, 0, 0, 0, 0, 1] 2))).map (·.err) = some .capacityExceeded ∧
    (next? (exec .rlgr3 (ll3State [3, -2, 0, 0, 0, 0, 1] 2))).map (·.err) = some .capacityExceeded ∧
    (packBits (rlgrEncode .one defaultProfile ([3, -2, 0, 0, 0, 0, 1].map wrap16))).length ≤ (3#32).toNat ∧
    (packBits (rlgrEncode .three defaultProfile ([3, -2, 0, 0, 0, 0, 1].map wrap16))).length ≤ (3#32).toNat := by decide

/-! ### All commands -/

theorem witness_Unwritten : Memory.wf base.mem ∧ (0 < 4096 ∧ 4095 < 4096) ∧ pixAt base 0 = none ∧ pixAt base 4095 = none ∧
    (∀ b ∈ [Subband.ll3, .hh1], shiftOf base b ≤ 15) ∧ coefAt base 4095 = none ∧
    (960 < bandSize .hh1 ∧ coefAt base (bandOffset .hh1 + 960) = none) ∧
    (∃ s, s = { base with rstart := 4095#32, rcount := 1#32, outcap := 1#32 } ∧ Memory.wf s.mem ∧
      s.rstart.toNat + s.rcount.toNat ≤ 4096 ∧ s.outcap.toNat ≤ s.params.outBytes ∧ 0 < s.rcount.toNat ∧
      coefAt s (s.rstart.toNat + 0) = none) ∧
    (base.busy = false ∧ (0x1FFFE#17).toNat % byteCount .w16 = 0 ∧
      (∀ i < byteCount .w16, inStorage base.params.outBytes ((0x1FFFE#17).toNat + i) = true) ∧
      ∃ i < byteCount .w16, lookup base.mem ((0x1FFFE#17).toNat + i) = none) :=
  ⟨by decide, by decide, by decide, by decide, by decide, by decide, by decide,
    ⟨_, rfl, by decide, by decide, by decide, by decide, by decide⟩, by decide⟩

theorem witness_FailedCommands :
    (next? (exec (.diff 10) base)).map (·.err) = some .invalidParameter ∧
      (next? (exec .rlgr3 base)).map (·.err) = some .invalidParameter ∧
      (next? (exec .rlgr1 (ll3State [3, -2] 1))).map (·.err) = some .capacityExceeded := by decide

/-- The second state differs in PIX, QSHIFT and STATUS. -/
theorem witness_RlgrReadsOnly : ∃ s s' : State, s = ll3State [3, -2] 2 ∧
    s' = { s with mem := (0x1000, 7#8) :: s.mem, qshift := Vector.replicate 10 9#8, err := .illegalCommand } ∧
    Memory.wf s.mem ∧ Memory.wf s'.mem ∧ s'.params = s.params ∧ s'.rstart = s.rstart ∧ s'.rcount = s.rcount ∧
    s'.outcap = s.outcap ∧ (∀ k < s.rcount.toNat, coefAt s' (s.rstart.toNat + k) = coefAt s (s.rstart.toNat + k)) ∧
    (next? (exec .rlgr1 s)).map (·.err) = some .ok :=
  ⟨_, _, rfl, rfl, by decide, by decide, rfl, rfl, rfl, rfl, by decide, by decide⟩

/-- The second state differs in QSHIFT and RESULT. -/
theorem witness_DwtReadsOnly : ∃ s' : State, s' = { tile 200#8 with qshift := Vector.replicate 10 9#8, result := 3#32 } ∧
    Memory.wf (tile 200#8).mem ∧ Memory.wf s'.mem ∧ s'.params.dwtScale = (tile 200#8).params.dwtScale ∧
    (∀ k < 4096, pixAt s' k = pixAt (tile 200#8) k) ∧ (∃ u, exec .dwtStd (tile 200#8) = .next u) ∧
    ∃ u, exec .dwtRe (tile 200#8) = .next u :=
  ⟨_, rfl, tile_wf _, tile_wf _, rfl, fun _ _ => rfl, tile_runDwt .std 200#8, tile_runDwt .re 200#8⟩

theorem witness_ResetMeetsTheInvariant : smallParams.legal = true := by decide

theorem witness_StepKeepsTheInvariant : base.Inv ∧ step base = .next base :=
  ⟨resetWith_inv (p := { defaultParams with capLevel := .scalar }) (by decide) _ rfl, rfl⟩

end Sys2Proof.Tests
end

/-! Proofs: the register window as the host sees it, and the register statements of spec/10_state.md. -/

namespace Sys2Proof.Machine

/-! ### The host's way into the register window (R61, R66, R71) -/

theorem inRegisterWindow_iff (x : Nat) : inRegisterWindow x = true ↔ x < 0x1000 := by simp [inRegisterWindow]

/-- An aligned word whose first byte lies in the register window lies there whole (R61, R66). -/
theorem allMapped_register {a : Address} (p : Params) (hwin : a.toNat < 0x1000) (hal : a.toNat % 4 = 0) :
    allMapped p a .w32 = true := by
  have hbyte : ∀ i < 4, isMapped p.outBytes (a.toNat + i) = true := fun i hi => by
    have hin : inRegisterWindow (a.toNat + i) = true := (inRegisterWindow_iff _).mpr (by omega)
    simp [isMapped, hin]
  simpa [allMapped, byteCount] using hbyte

/-- While no command is pending, and for a read of STATUS always, an aligned 4-byte access to the register window is
permitted (R66, R76). -/
theorem accessFault_register {s : State} {isRead : Bool} {a : Address} (hwin : a.toNat < 0x1000)
    (hal : a.toNat % 4 = 0) (hidle : s.busy = true → isRead = true ∧ a.toNat = statusOffset) :
    accessFault s isRead .w32 a = none :=
  (accessFault_eq_none s isRead .w32 a).mpr ⟨allMapped_register s.params hwin hal, hal, fun _ => rfl, hidle⟩

/-- What a permitted register read answers (R71). -/
theorem hostRead_register {s : State} {a : Address} (hwin : a.toNat < 0x1000) (hal : a.toNat % 4 = 0)
    (hidle : s.busy = true → a.toNat = statusOffset) : hostRead s .w32 a = .ok (readRegister s a.toNat) := by
  have hf : accessFault s true .w32 a = none := accessFault_register hwin hal fun hb => ⟨rfl, hidle hb⟩
  simp [hostRead, hf, (inRegisterWindow_iff _).mpr hwin]

/-- What a register write leaves while no command is pending (R71). -/
theorem hostWrite_register {s : State} {a : Address} (v : Word) (hidle : s.busy = false) (hwin : a.toNat < 0x1000)
    (hal : a.toNat % 4 = 0) : hostWrite s .w32 a v = .ok (writeRegister s a.toNat v) := by
  have hf : accessFault s false .w32 a = none := accessFault_register hwin hal (by simp [hidle])
  simp [hostWrite, hf, (inRegisterWindow_iff _).mpr hwin]

/-! ### Offsets without a register, and registers that ignore writes (R32, R33) -/

/-- Exactly the offsets outside 0x020..0x047 hold none of the ten QSHIFT registers (R31). -/
theorem qshiftIndex_eq_none {off : Nat} : qshiftIndex off = none ↔ off < 0x020 ∨ 0x048 ≤ off := by
  simp only [qshiftIndex, dite_eq_right_iff, reduceCtorEq, imp_false]
  omega

/-- A register offset that names no register (R33). -/
def reservedOffset (off : Nat) : Prop := off = 0x01C ∨ 0x048 ≤ off

theorem readRegister_cmd (s : State) : readRegister s 0x000 = 0#32 := rfl

theorem readRegister_reserved (s : State) {off : Nat} (h : reservedOffset off) : readRegister s off = 0#32 := by
  unfold reservedOffset at h
  have hq : qshiftIndex off = none := qshiftIndex_eq_none.mpr (by omega)
  have hne : off ≠ 0x004 ∧ off ≠ 0x008 ∧ off ≠ 0x00C ∧ off ≠ 0x010 ∧ off ≠ 0x014 ∧ off ≠ 0x018 := by omega
  simp [readRegister, hq, hne]

/-- A write changes nothing at STATUS, CAP, RESULT and the reserved offsets (R32, R33). -/
theorem writeRegister_ignored (s : State) {off : Nat} (v : Word)
    (h : off = 0x004 ∨ off = 0x008 ∨ off = 0x00C ∨ reservedOffset off) : writeRegister s off v = s := by
  unfold reservedOffset at h
  have hq : qshiftIndex off = none := qshiftIndex_eq_none.mpr (by omega)
  rcases writeRegister_cases s off v with ⟨rfl, -⟩ | ⟨rfl, -⟩ | ⟨rfl, -⟩ | ⟨rfl, -⟩ | ⟨q, hsome, -⟩ | ⟨-, -, -, -, -, hw⟩
  · omega
  · omega
  · omega
  · omega
  · simp [hq] at hsome
  · exact hw

/-- Settles O17: the host's accesses reach the register file unchanged, and the register file answers 0 and keeps the
state at each offset named. -/
theorem reservedAndReadOnlyRegistersIgnoreWrites : Obligations.ReservedAndReadOnlyRegistersIgnoreWrites := by
  intro s a v hidle hal
  refine ⟨fun ha => ?_, fun ha => ?_, ?_⟩
  · have hwin : a.toNat < 0x1000 := by bv_omega
    have hres : reservedOffset a.toNat := by unfold reservedOffset; bv_omega
    constructor
    · rw [hostRead_register hwin hal (by simp [hidle]), readRegister_reserved s hres]
    · rw [hostWrite_register v hidle hwin hal, writeRegister_ignored s v (by tauto)]
  · rw [hostWrite_register v hidle (by bv_omega) hal, writeRegister_ignored s v (by bv_omega)]
  · rw [hostRead_register (by decide) (by decide) (by simp [hidle])]
    exact congrArg Except.ok (readRegister_cmd s)

/-! ### The registers and marks at reset (R43) -/

theorem statusWord_resetWith (p : Params) : statusWord (State.resetWith p) = 0#32 := by
  simp [statusWord, State.resetWith, errCode]

theorem qshift_resetWith (p : Params) (q : Fin 10) : (State.resetWith p).qshift[q] = 0#8 := by
  simp [State.resetWith]

/-- Storage with no written byte gives no element of PIX, COEF or OUT (R42). -/
theorem storage_eq_none_of_mem_nil {s : State} (h : s.mem = []) :
    (∀ i, pixAt s i = none) ∧ (∀ i, coefAt s i = none) ∧ ∀ j, outAt s j = none := by
  simp [pixAt, coefAt, outAt, h, lookup]

/-- Settles O13: the stored registers are the reset state's fields, CAP and STATUS are read through the register window,
and no byte of storage is listed. -/
theorem resetLeavesTheSpecifiedValues : Obligations.ResetLeavesTheSpecifiedValues := by
  intro p r
  have hcap : hostRead r .w32 0x008#17 = .ok (capWord r) :=
    hostRead_register (s := r) (a := 0x008#17) (by decide) (by decide) nofun
  have hstatus : hostRead r .w32 0x004#17 = .ok 0#32 :=
    (hostRead_register (s := r) (a := 0x004#17) (by decide) (by decide) nofun).trans
      (congrArg Except.ok (statusWord_resetWith p))
  exact ⟨rfl, rfl, rfl, rfl, rfl, hcap, hstatus, rfl, rfl, rfl, rfl, qshift_resetWith p,
    storage_eq_none_of_mem_nil rfl⟩

end Sys2Proof.Machine

/-! Proofs: which host accesses are permitted and what they move, and the frame of the commands in OUT
(spec/20_memory.md). -/

namespace Sys2Proof.Machine

/-! ### The address map (R61, R62) -/

theorem inStorage_iff (n x : Nat) :
    inStorage n x = true ↔ (0x01000 ≤ x ∧ x < 0x04000) ∨ (0x10000 ≤ x ∧ x < 0x10000 + n) := by
  simp only [inStorage, Bool.or_eq_true, Bool.and_eq_true, decide_eq_true_eq]
  exact Iff.rfl

theorem isMapped_iff (n x : Nat) : isMapped n x = true ↔ x < 0x04000 ∨ (0x10000 ≤ x ∧ x < 0x10000 + n) := by
  rw [isMapped, Bool.or_eq_true, inRegisterWindow_iff, inStorage_iff]
  omega

theorem allMapped_iff (p : Params) (a : Address) (w : Width) :
    allMapped p a w = true ↔ ∀ i < byteCount w, isMapped p.outBytes (a.toNat + i) = true := by
  simp [allMapped]

theorem byteCount_pos (w : Width) : 0 < byteCount w := by cases w <;> decide

/-- The bytes of an aligned access lie in one aligned word (R64, R67). -/
theorem aligned_same_word {w : Width} {x i : Nat} (hal : x % byteCount w = 0) (hi : i < byteCount w) :
    (x + i) / 4 = x / 4 := by
  cases w <;> simp only [byteCount] at hal hi <;> omega

/-- Two mapped bytes of one aligned word lie in one region: every region but OUT ends at a multiple of 4, and what
follows OUT is unmapped (R61, R66). -/
theorem regionOf_eq_of_same_word {n x y : Nat} (hx : isMapped n x = true) (hy : isMapped n y = true)
    (hword : x / 4 = y / 4) : regionOf n x = regionOf n y := by
  rw [isMapped_iff] at hx hy
  have hreg : x < 0x01000 ↔ y < 0x01000 := by omega
  have hpix : x < 0x02000 ↔ y < 0x02000 := by omega
  have hcoef : x < 0x04000 ↔ y < 0x04000 := by omega
  have hout : 0x10000 ≤ x ∧ x < 0x10000 + n ↔ 0x10000 ≤ y ∧ y < 0x10000 + n := by omega
  simp only [regionOf, hreg, hpix, hcoef, hout]

/-! ### Refused accesses (R62, R66, R67, R76) -/

theorem hostRead_of_accessFault {s : State} {w : Width} {a : Address} {f : Fault}
    (h : accessFault s true w a = some f) : hostRead s w a = .error f := by simp [hostRead, h]

theorem hostWrite_of_accessFault {s : State} {w : Width} {a : Address} {f : Fault} (v : Word)
    (h : accessFault s false w a = some f) : hostWrite s w a v = .error f := by simp [hostWrite, h]

theorem hostRead_faults {s : State} {w : Width} {a : Address} (h : accessFault s true w a ≠ none) :
    ∃ f, hostRead s w a = .error f :=
  (Option.ne_none_iff_exists'.mp h).imp fun _ => hostRead_of_accessFault

theorem hostWrite_faults {s : State} {w : Width} {a : Address} (v : Word) (h : accessFault s false w a ≠ none) :
    ∃ f, hostWrite s w a v = .error f :=
  (Option.ne_none_iff_exists'.mp h).imp fun _ => hostWrite_of_accessFault v

/-- An access that is permitted in neither direction faults in both. -/
theorem access_faults {s : State} {w : Width} {a : Address} (v : Word)
    (h : ∀ isRead, accessFault s isRead w a ≠ none) :
    ∃ f g, hostRead s w a = .error f ∧ hostWrite s w a v = .error g := by
  obtain ⟨f, hf⟩ := hostRead_faults (h true)
  obtain ⟨g, hg⟩ := hostWrite_faults v (h false)
  exact ⟨f, g, hf, hg⟩

/-- The model looks for an unmapped byte before any other case (log entry 9), so one such byte decides the name. -/
theorem accessFault_unmapped {s : State} {w : Width} {a : Address} {i : Nat} (isRead : Bool) (hi : i < byteCount w)
    (h : isMapped s.params.outBytes (a.toNat + i) = false) : accessFault s isRead w a = some .unmappedAddress := by
  have hall : ¬ allMapped s.params a w = true := fun hm => by simp [(allMapped_iff _ _ _).mp hm i hi] at h
  simp [accessFault, hall]

theorem accessFault_misaligned {s : State} {w : Width} {a : Address} (isRead : Bool)
    (hmap : allMapped s.params a w = true) (hal : a.toNat % byteCount w ≠ 0) :
    accessFault s isRead w a = some .misalignedAccess := by simp [accessFault, hmap, hal]

/-- Settles O20: the unmapped ranges are the complement of the map, and an unmapped byte decides the fault's name. -/
theorem unmappedAccessFaults : Obligations.UnmappedAccessFaults := by
  intro s w a v unmapped
  have names : ∀ i < byteCount w, unmapped (a.toNat + i) →
      hostRead s w a = .error .unmappedAddress ∧ hostWrite s w a v = .error .unmappedAddress := by
    intro i hi hun
    have hmap : isMapped s.params.outBytes (a.toNat + i) = false := by
      rw [Bool.eq_false_iff, ne_eq, isMapped_iff]
      simp only [unmapped] at hun
      omega
    exact ⟨hostRead_of_accessFault (accessFault_unmapped true hi hmap),
      hostWrite_of_accessFault v (accessFault_unmapped false hi hmap)⟩
  constructor
  · rintro ⟨i, hi, hun⟩
    exact ⟨_, _, names i hi hun⟩
  · intro hall _ _
    exact names 0 (byteCount_pos w) (hall 0 (byteCount_pos w))

/-- Storage bytes are mapped, so an access inside storage is mapped (R61). -/
theorem allMapped_storage {p : Params} {w : Width} {a : Address}
    (h : ∀ i < byteCount w, inStorage p.outBytes (a.toNat + i) = true) : allMapped p a w = true :=
  (allMapped_iff p a w).mpr fun i hi => by simp [isMapped, h i hi]

/-- Settles O21: a permitted access is aligned; inside storage no other case comes before misalignment. -/
theorem misalignedAccessFaults : Obligations.MisalignedAccessFaults := by
  intro s w a v hal
  refine ⟨access_faults v fun isRead hperm => ?_, fun hin _ => ?_⟩
  · obtain ⟨-, haligned, -, -⟩ := (accessFault_eq_none s isRead w a).mp hperm
    exact hal haligned
  · exact hostWrite_of_accessFault v (accessFault_misaligned false (allMapped_storage hin) hal)

/-- Settles O23: what is permitted while BUSY = 1 is a read at STATUS's offset, which the register window takes as a word
only. -/
theorem busyBlockAnswersOnlyStatusReads : Obligations.BusyBlockAnswersOnlyStatusReads := by
  intro s hbusy
  refine ⟨fun w a v => hostWrite_faults v fun hperm => ?_, fun w a hother => hostRead_faults fun hperm => ?_, ?_⟩
  · obtain ⟨-, -, -, hstatus⟩ := (accessFault_eq_none s false w a).mp hperm
    exact Bool.false_ne_true (hstatus hbusy).1
  · obtain ⟨-, -, hwidth, hstatus⟩ := (accessFault_eq_none s true w a).mp hperm
    have ha : a.toNat = 0x004 := (hstatus hbusy).2
    exact hother ⟨hwidth ((inRegisterWindow_iff _).mpr (by omega)), BitVec.eq_of_toNat_eq ha⟩
  · exact hostRead_register (by decide) (by decide) fun _ => rfl

/-! ### Permitted accesses to storage (R64, R65, R66) -/

section
variable {s : State} {w : Width} {a : Address} (hidle : s.busy = false) (hal : a.toNat % byteCount w = 0)
  (hin : ∀ i < byteCount w, inStorage s.params.outBytes (a.toNat + i) = true)
include hidle hal hin

/-- While no command is pending, every aligned access inside storage is permitted, and it is none to a register. -/
theorem accessFault_storage (isRead : Bool) :
    accessFault s isRead w a = none ∧ inRegisterWindow a.toNat = false := by
  have hwin : inRegisterWindow a.toNat = false := by
    have h0 := (inStorage_iff _ _).mp (hin 0 (byteCount_pos w))
    rw [Bool.eq_false_iff, ne_eq, inRegisterWindow_iff]
    omega
  exact ⟨(accessFault_eq_none s isRead w a).mpr ⟨allMapped_storage hin, hal, by simp [hwin], by simp [hidle]⟩, hwin⟩

theorem hostWrite_storage (v : Word) :
    hostWrite s w a v = .ok { s with mem := writeRun s.mem a.toNat (wordToBytes (byteCount w) v) } := by
  obtain ⟨hf, hwin⟩ := accessFault_storage hidle hal hin false
  simp [hostWrite, hf, hwin]

theorem hostRead_storage {bytes : List Byte} (hr : readRun s.mem a.toNat (byteCount w) = some bytes) :
    hostRead s w a = .ok (bytesToWord bytes) := by
  obtain ⟨hf, hwin⟩ := accessFault_storage hidle hal hin true
  simp [hostRead, hf, hwin, hr]

end

/-! ### A word of COEF (R63, R66, R69) -/

/-- A coefficient is present exactly when its two bytes are listed, low byte first (R42, R63). -/
theorem coefAt_eq_some {s : State} {i : Nat} {x : HalfWord} :
    coefAt s i = some x ↔ lookup s.mem (coefAddr i) = some (x.extractLsb' 0 8) ∧
      lookup s.mem (coefAddr i + 1) = some (x.extractLsb' 8 8) := by
  unfold coefAt
  constructor
  · intro h
    split at h
    · next lo hi hlo hhi =>
      obtain rfl := Option.some.inj h
      exact ⟨by rw [hlo, low_of_bytes], by rw [hhi, high_of_bytes]⟩
    · cases h
  · rintro ⟨hlo, hhi⟩
    simp [hlo, hhi]

/-- A byte of a half of a word is a byte of the word. -/
theorem extractLsb'_extractLsb'_byte (v : Word) {k : Nat} (i : Nat) (hk : k + 8 ≤ 16) :
    (v.extractLsb' i 16).extractLsb' k 8 = v.extractLsb' (i + k) 8 := by
  ext j hj
  have hin : k + j < 16 := by omega
  simp [hin, Nat.add_assoc]

theorem wordToBytes_eq_halvesToBytes (v : Word) :
    wordToBytes 4 v = halvesToBytes [v.extractLsb' 0 16, v.extractLsb' 16 16] := by
  simp [wordToBytes, halvesToBytes, List.range_succ, extractLsb'_extractLsb'_byte]

/-- The first coefficient of a run of bytes is the low half of the bus value (R63, R64). -/
theorem bytesToWord_half (x : HalfWord) (rest : List Byte) :
    bytesToWord (x.extractLsb' 0 8 :: x.extractLsb' 8 8 :: rest) = x.setWidth 32 ||| (bytesToWord rest <<< 16) := by
  ext i hi
  by_cases hlo : i < 8
  · have h16 : i < 16 := by omega
    simp [bytesToWord, hlo, h16]
  · have hback : 8 + (i - 8) = i := by omega
    by_cases h16 : i < 16
    · have hhi : i - 8 < 8 := by omega
      simp [bytesToWord, hlo, h16, hhi, hback]
    · have hhi : ¬ i - 8 < 8 := by omega
      have hzero : x.getLsbD i = false := BitVec.getLsbD_of_ge x i (by omega)
      simp [bytesToWord, hlo, h16, hhi, hzero, Nat.sub_sub]

theorem bytesToWord_halvesToBytes (x y : HalfWord) : bytesToWord (halvesToBytes [x, y]) = y ++ x := by
  have hword : bytesToWord (halvesToBytes [x, y]) = x.setWidth 32 ||| (y.setWidth 32 <<< 16) := by
    simp only [halvesToBytes, bytesToWord_half]
    simp [bytesToWord]
  rw [hword]
  ext i hi
  have happend : (y ++ x : Word)[i] = if i < 16 then x.getLsbD i else y.getLsbD (i - 16) :=
    BitVec.getElem_append hi
  rw [happend]
  by_cases hlow : i < 16
  · simp [hlow]
  · simp [hlow, BitVec.getLsbD_of_ge x i (by omega)]

/-- The host address of the aligned word at COEF[2m] (R61, R69). -/
def coefWordAddr (m : Nat) : Address := BitVec.ofNat 17 (0x02000 + 4 * m)

section
variable {m : Nat} (hm : m < 2048)
include hm

theorem coefWordAddr_toNat : (coefWordAddr m).toNat = coefAddr (2 * m) := by
  simp only [coefWordAddr, coefAddr, coefBase, BitVec.toNat_ofNat]
  omega

theorem coefWordAddr_aligned : (coefWordAddr m).toNat % byteCount .w32 = 0 := by
  rw [coefWordAddr_toNat hm]
  simp only [coefAddr, coefBase, byteCount]
  omega

theorem coefWordAddr_inStorage (n : Nat) : ∀ i < byteCount .w32, inStorage n ((coefWordAddr m).toNat + i) = true := by
  intro i hi
  rw [coefWordAddr_toNat hm, inStorage_iff]
  simp only [coefAddr, coefBase, byteCount] at hi ⊢
  omega

/-- A word written to COEF stores its two halves, the low one first. -/
theorem hostWrite_coefWord {s : State} (hidle : s.busy = false) (v : Word) :
    hostWrite s .w32 (coefWordAddr m) v = .ok (writeCoefs s (2 * m) [v.extractLsb' 0 16, v.extractLsb' 16 16]) := by
  rw [hostWrite_storage hidle (coefWordAddr_aligned hm) (coefWordAddr_inStorage hm _), coefWordAddr_toNat hm,
    byteCount, wordToBytes_eq_halvesToBytes, writeCoefs]

/-- A word read from COEF has the two elements in its halves, the first in the low one. -/
theorem hostRead_coefWord {s : State} {x y : HalfWord} (hidle : s.busy = false) (hwf : Memory.wf s.mem)
    (hx : coefAt s (2 * m) = some x) (hy : coefAt s (2 * m + 1) = some y) :
    hostRead s .w32 (coefWordAddr m) = .ok (y ++ x) := by
  obtain ⟨hx0, hx1⟩ := coefAt_eq_some.mp hx
  obtain ⟨hy0, hy1⟩ := coefAt_eq_some.mp hy
  have hnext : coefAddr (2 * m + 1) = coefAddr (2 * m) + 2 := by simp only [coefAddr]; omega
  rw [hnext] at hy0 hy1
  have hrun : readRun s.mem (coefWordAddr m).toNat (byteCount .w32) = some (halvesToBytes [x, y]) := by
    rw [coefWordAddr_toNat hm, readRun_eq_some hwf]
    refine ⟨rfl, fun i hi => ?_⟩
    simp only [byteCount] at hi
    interval_cases i
    exacts [hx0, hx1, hy0, hy1]
  rw [hostRead_storage hidle (coefWordAddr_aligned hm) (coefWordAddr_inStorage hm _) hrun,
    bytesToWord_halvesToBytes]

end

/-- Settles O22: each clause from when an access is permitted; the COEF word by the two lemmas before, and a permitted
access lies in one region because its bytes are mapped and lie in one aligned word. -/
theorem windowsTakeTheirWidths : Obligations.WindowsTakeTheirWidths := by
  refine ⟨?narrow, ?register, ?storage, ?coefWrite, ?coefRead, ?spans⟩
  case narrow =>
    intro s w a v hwin hw
    refine access_faults v fun isRead hperm => ?_
    obtain ⟨-, -, hwidth, -⟩ := (accessFault_eq_none s isRead w a).mp hperm
    exact hw (hwidth ((inRegisterWindow_iff _).mpr hwin))
  case register =>
    intro s a v hidle hwin hal
    exact ⟨_, _, hostRead_register hwin hal (by simp [hidle]), hostWrite_register v hidle hwin hal⟩
  case storage =>
    intro s w a v hidle hal hin
    refine ⟨⟨_, hostWrite_storage hidle hal hin v⟩, fun hmarks hwf => ?_⟩
    have hsome : readRun s.mem a.toNat (byteCount w) ≠ none := fun hnone => by
      obtain ⟨i, hi, hclear⟩ := (readRun_eq_none hwf _ _).mp hnone
      simpa [hclear] using hmarks i hi
    obtain ⟨bytes, hr⟩ := Option.ne_none_iff_exists'.mp hsome
    exact ⟨_, hostRead_storage hidle hal hin hr⟩
  case coefWrite =>
    intro s m v hidle hm
    refine ⟨_, hostWrite_coefWord hm hidle v, ?_, ?_⟩ <;> simp [coefAt_writeCoefs]
  case coefRead =>
    intro s m x y hidle hm hwf hx hy
    exact hostRead_coefWord hm hidle hwf hx hy
  case spans =>
    intro s w a v i j hi hj hne
    refine access_faults v fun isRead hperm => hne ?_
    obtain ⟨hall, hal, -, -⟩ := (accessFault_eq_none s isRead w a).mp hperm
    rw [allMapped_iff] at hall
    exact regionOf_eq_of_same_word (hall i hi) (hall j hj)
      ((aligned_same_word hal hi).trans (aligned_same_word hal hj).symm)

/-! ### What the commands leave of OUT (R82, R199) -/

/-- A run inside COEF ends below OUT (R61). -/
theorem outAt_writeCoefs (s : State) {start : Nat} {vs : List HalfWord} (hle : start + vs.length ≤ 4096) (j : Nat) :
    outAt (writeCoefs s start vs) j = outAt s j :=
  lookup_writeCoefs_outside s start vs (outAddr j) (by simp only [coefAddr, coefBase, outAddr, outBase]; omega)

theorem runDwt_outAt {t : Variant} {s u : State} (h : runDwt t s = .next u) (j : Nat) : outAt u j = outAt s j := by
  rcases runDwt_cases t s with ⟨-, e⟩ | ⟨pix, -, e⟩
  · simp [e] at h
  · obtain rfl := Host.Outcome.next.inj (e.symm.trans h)
    exact outAt_writeCoefs s (by simp [dwtCoefs_length]) j

theorem execQuant_outAt {s t : State} (h : execQuant s = .next t) (j : Nat) : outAt t j = outAt s j := by
  rcases execQuant_cases s with ⟨-, e⟩ | ⟨-, -, e⟩ | ⟨coefs, -, hread, e⟩
  · obtain rfl := Host.Outcome.next.inj (e.symm.trans h)
    rfl
  · simp [e] at h
  · obtain rfl := Host.Outcome.next.inj (e.symm.trans h)
    exact outAt_writeCoefs s (by simp [readCoefs_length hread]) j

theorem execDiff_outAt {sb : Nat} {s t : State} (h : execDiff sb s = .next t) (j : Nat) : outAt t j = outAt s j := by
  rcases execDiff_cases sb s with ⟨-, e⟩ | ⟨b, -, ⟨-, e⟩ | ⟨old, hread, e⟩⟩
  · obtain rfl := Host.Outcome.next.inj (e.symm.trans h)
    rfl
  · simp [e] at h
  · obtain rfl := Host.Outcome.next.inj (e.symm.trans h)
    exact outAt_writeCoefs s (by simpa [readCoefs_length hread] using band_in_coef b) j

/-- What one run of an RLGR command may change (R199): OUT below OUTCAP, RESULT, ERR and BUSY. -/
def RlgrWritesOnly (s t : State) : Prop :=
  t = { s with mem := t.mem, result := t.result, err := t.err, busy := t.busy } ∧
    MemSameOutside s t outBase s.outcap.toNat

theorem storeStream_writesOnly (s : State) (stream : List Byte) : RlgrWritesOnly s (storeStream s stream) := by
  rcases storeStream_cases s stream with ⟨-, e⟩ | ⟨hfits, e⟩
  · rw [e]
    refine ⟨rfl, fun x hx => ?_⟩
    have hout : ¬ (outBase ≤ x ∧ x < outBase + s.outcap.toNat) := by omega
    simp [lookup_eraseRun, hout]
  · rw [e]
    refine ⟨rfl, fun x hx => ?_⟩
    have hstream : ¬ (outBase ≤ x ∧ x < outBase + stream.length) := by omega
    have hout : ¬ (outBase ≤ x ∧ x < outBase + s.outcap.toNat) := by omega
    simp [lookup_storeOut, hstream, hout]

theorem runRlgr_writesOnly {m : RlgrMode} {p : Profile} {s t : State} (h : runRlgr m p s = .next t) :
    RlgrWritesOnly s t := by
  rcases runRlgr_cases m p s with ⟨-, e⟩ | ⟨-, -, e⟩ | ⟨xs, -, -, e⟩
  · obtain rfl := Host.Outcome.next.inj (e.symm.trans h)
    exact ⟨rfl, fun _ _ => rfl⟩
  · simp [e] at h
  · obtain rfl := Host.Outcome.next.inj (e.symm.trans h)
    exact storeStream_writesOnly s _

section
variable {s t : State} (h : RlgrWritesOnly s t)
include h

theorem RlgrWritesOnly.operandsSame : OperandsSame s t := by
  rw [h.1]
  exact ⟨rfl, rfl, rfl, rfl, rfl, rfl, rfl, rfl⟩

/-- Storage below OUT is out of an RLGR command's reach (R61). -/
theorem RlgrWritesOnly.lookup_below {x : Nat} (hx : x < outBase) : lookup t.mem x = lookup s.mem x :=
  h.2 x (.inl hx)

theorem RlgrWritesOnly.coefAt_eq {k : Nat} (hk : k < 4096) : coefAt t k = coefAt s k := by
  have hlow : coefAddr k + 1 < outBase := by simp only [coefAddr, coefBase, outBase]; omega
  unfold coefAt
  rw [h.lookup_below (Nat.lt_of_succ_lt hlow), h.lookup_below hlow]

theorem RlgrWritesOnly.pixAt_eq {k : Nat} (hk : k < 4096) : pixAt t k = pixAt s k :=
  h.lookup_below (by simp only [pixAddr, pixBase, outBase]; omega)

theorem RlgrWritesOnly.outAt_eq {j : Nat} (hj : s.outcap.toNat ≤ j) : outAt t j = outAt s j :=
  h.2 (outAddr j) (.inr (Nat.add_le_add_left hj outBase))

end

/-- Settles O44: DWT, QUANT and DIFF write inside COEF only; an RLGR command's whole reach is `RlgrWritesOnly`. -/
theorem rlgrFrame : Obligations.RlgrFrame := by
  constructor
  · intro i s t h j hj
    cases i with
    | dwtStd => exact runDwt_outAt h j
    | dwtRe => exact runDwt_outAt h j
    | quant => exact execQuant_outAt h j
    | diff sb => exact execDiff_outAt h j
    | rlgr1 => exact (runRlgr_writesOnly h).outAt_eq hj
    | rlgr3 => exact (runRlgr_writesOnly h).outAt_eq hj
  · intro i s t hi h
    have hreach : RlgrWritesOnly s t := by
      rcases hi with rfl | rfl
      · exact runRlgr_writesOnly h
      · exact runRlgr_writesOnly h
    refine ⟨hreach.operandsSame, ?_, ?_, ?_, fun k hk => hreach.coefAt_eq hk, fun k hk => hreach.pixAt_eq hk, hreach.2⟩
    all_goals rw [hreach.1]

end Sys2Proof.Machine

/-! Proofs: the command mnemonics of the host notation (spec/30_encoding.md R97). -/

namespace Sys2Proof.Machine

/-! ### Band names are case-insensitive (R97) -/

/-- The capitals, by their code points. -/
theorem charBetween_capitals (c : Char) : charBetween 'A' 'Z' c = true ↔ 65 ≤ c.toNat ∧ c.toNat ≤ 90 := by
  simp [charBetween]

theorem lowerChar_of_not_capital {c : Char} (h : ¬ charBetween 'A' 'Z' c = true) : lowerChar c = c := if_neg h

theorem toNat_lowerChar_of_capital {c : Char} (h : charBetween 'A' 'Z' c = true) :
    (lowerChar c).toNat = c.toNat + 32 := by
  obtain ⟨-, hle⟩ := (charBetween_capitals c).mp h
  have hvalid : (c.toNat + 32).isValidChar := .inl (by omega)
  rw [lowerChar, if_pos h, Char.toNat_ofNat, if_pos hvalid]

theorem lowerChar_not_capital (c : Char) : ¬ charBetween 'A' 'Z' (lowerChar c) = true := by
  by_cases h : charBetween 'A' 'Z' c = true
  · obtain ⟨hlow, -⟩ := (charBetween_capitals c).mp h
    rw [charBetween_capitals, toNat_lowerChar_of_capital h]
    omega
  · rwa [lowerChar_of_not_capital h]

@[simp] theorem lowerChar_lowerChar (c : Char) : lowerChar (lowerChar c) = lowerChar c :=
  lowerChar_of_not_capital (lowerChar_not_capital c)

/-- A name is looked up through its small letters only. -/
theorem subbandOfName_map_lowerChar (name : List Char) : subbandOfName (name.map lowerChar) = subbandOfName name := by
  have hlower : (name.map lowerChar).map lowerChar = name.map lowerChar := by simp
  rw [subbandOfName, hlower, subbandOfName]

/-- Settles O6: R97's table is finite, and each of its lines is read and encoded as it stands; only the clause on band
names is about every name, and rests on `lowerChar` being idempotent. -/
theorem mnemonicsAssembleToTheirWords : Obligations.MnemonicsAssembleToTheirWords := by
  refine ⟨?plain, ?bands, ?numbers, ?sixteen, subbandOfName_map_lowerChar⟩
  case plain => decide
  case bands => decide
  case numbers => decide
  case sixteen => decide

end Sys2Proof.Machine

/-! Proofs: QUANT and DIFF refuse their operands before they touch COEF (spec/41_quant_diff.md R162, R167). -/

namespace Sys2Proof.Machine

/-- QUANT's check comes first (R162): no premise on COEF. -/
theorem execQuant_of_not_shiftsLegal {s : State} (h : shiftsLegal s = false) :
    execQuant s = .next (complete s .invalidParameter) := by
  rcases execQuant_cases s with ⟨-, e⟩ | ⟨hlegal, -, -⟩ | ⟨-, hlegal, -, -⟩
  · exact e
  · simp [h] at hlegal
  · simp [h] at hlegal

/-- An SB that names no subband ends DIFF at once (R167): no premise on COEF. -/
theorem execDiff_of_no_subband {sb : Nat} (s : State) (h : subbandOfIndex sb = none) :
    execDiff sb s = .next (complete s .invalidParameter) := by
  rcases execDiff_cases sb s with ⟨-, e⟩ | ⟨b, hb, -⟩
  · exact e
  · simp [h] at hb

/-- Settles O35: one shift above 15 fails the check on all ten. -/
theorem quantRejectsShiftsAboveFifteen : Obligations.QuantRejectsShiftsAboveFifteen := by
  intro s b hshift
  have hillegal : shiftsLegal s = false := by
    refine Bool.eq_false_iff.mpr fun hlegal => ?_
    exact absurd ((shiftsLegal_iff s).mp hlegal b) (Nat.not_le.mpr hshift)
  exact execQuant_of_not_shiftsLegal hillegal

/-- Settles O38: the ten subbands have the indices 0 to 9, so SB 10 and above names none. -/
theorem diffRejectsSubbandsTenToFifteen : Obligations.DiffRejectsSubbandsTenToFifteen := by
  intro s sb hlow _
  exact execDiff_of_no_subband s (subbandOfIndex_eq_none.mpr hlow)

end Sys2Proof.Machine

/-! Proofs: the primitives of the RLGR coder: sign folding, the binary length and packing (spec/42_rlgr.md R187, R188,
R190). -/

namespace Sys2Proof.Machine

/-! ### Sign folding and its inverse (R187) -/

/-- Storing an exact integer that int16 holds loses nothing (R9). -/
theorem toInt_wrap16_of_int16 {v : Int} (hlow : -32768 ≤ v) (hhigh : v ≤ 32767) : (wrap16 v).toInt = v :=
  BitVec.toInt_ofInt_eq_self (by decide) hlow (Int.lt_add_one_of_le hhigh)

theorem wrap16_toInt (v : HalfWord) : wrap16 v.toInt = v := BitVec.ofInt_toInt

theorem toInt_mem_int16 (v : HalfWord) : -32768 ≤ v.toInt ∧ v.toInt ≤ 32767 :=
  ⟨v.le_toInt, Int.le_of_lt_add_one v.toInt_lt⟩

theorem twoMs_of_nonneg {v : HalfWord} (h : 0 ≤ v.toInt) : (twoMs v : Int) = 2 * v.toInt := by
  rw [twoMs, if_pos h]
  omega

theorem twoMs_of_neg {v : HalfWord} (h : v.toInt < 0) : (twoMs v : Int) = -2 * v.toInt - 1 := by
  rw [twoMs, if_neg (not_le.mpr h)]
  omega

theorem twoMs_le (v : HalfWord) : twoMs v ≤ 65535 := by
  obtain ⟨hlow, hhigh⟩ := toInt_mem_int16 v
  rcases lt_or_ge v.toInt 0 with hneg | hnonneg
  · have := twoMs_of_neg hneg
    omega
  · have := twoMs_of_nonneg hnonneg
    omega

/-- The even numbers fold the nonnegative values, the odd ones the negative values. -/
theorem unfoldSign_twoMs (v : HalfWord) : unfoldSign (twoMs v) = v := by
  rcases lt_or_ge v.toInt 0 with hneg | hnonneg
  · have hfold := twoMs_of_neg hneg
    have hodd : ¬ twoMs v % 2 = 0 := by omega
    have hhalf : (-((twoMs v + 1) / 2 : Nat) : Int) = v.toInt := by omega
    rw [unfoldSign, if_neg hodd, hhalf, wrap16_toInt]
  · have hfold := twoMs_of_nonneg hnonneg
    have heven : twoMs v % 2 = 0 := by omega
    have hhalf : ((twoMs v / 2 : Nat) : Int) = v.toInt := by omega
    rw [unfoldSign, if_pos heven, hhalf, wrap16_toInt]

theorem toInt_unfoldSign_of_even {n : Nat} (hn : n ≤ 65535) (heven : n % 2 = 0) :
    (unfoldSign n).toInt = (n / 2 : Nat) := by
  rw [unfoldSign, if_pos heven, toInt_wrap16_of_int16 (by omega) (by omega)]

theorem toInt_unfoldSign_of_odd {n : Nat} (hn : n ≤ 65535) (hodd : n % 2 = 1) :
    (unfoldSign n).toInt = -((n + 1) / 2 : Nat) := by
  rw [unfoldSign, if_neg (by omega), toInt_wrap16_of_int16 (by omega) (by omega)]

theorem twoMs_unfoldSign {n : Nat} (hn : n ≤ 65535) : twoMs (unfoldSign n) = n := by
  rcases Nat.mod_two_eq_zero_or_one n with heven | hodd
  · have hval := toInt_unfoldSign_of_even hn heven
    have hfold := twoMs_of_nonneg (v := unfoldSign n) (by omega)
    omega
  · have hval := toInt_unfoldSign_of_odd hn hodd
    have hfold := twoMs_of_neg (v := unfoldSign n) (by omega)
    omega

/-- Settles O45: the two halves of int16 go to the even and to the odd numbers, each with its half of the inverse. -/
theorem signFoldingIsOneToOne : Obligations.SignFoldingIsOneToOne := by
  refine ⟨fun v => ⟨⟨twoMs_of_nonneg, twoMs_of_neg⟩, twoMs_le v, unfoldSign_twoMs v⟩,
    fun n hn => ⟨twoMs_unfoldSign hn, fun heven => ?_, toInt_unfoldSign_of_odd hn⟩, ?examples⟩
  case examples => decide
  simpa using toInt_unfoldSign_of_even hn heven

/-! ### The binary length (R188) -/

theorem minBits_of_ne_zero {v : Nat} (h : v ≠ 0) : minBits v = Nat.log2 v + 1 := if_neg h

/-- Settles O46: the two bounds are those of the binary logarithm. -/
theorem minBitsIsTheBinaryLength : Obligations.MinBitsIsTheBinaryLength := by
  refine ⟨rfl, fun v hv => ?_, ?examples⟩
  case examples => decide
  rw [minBits_of_ne_zero hv, Nat.add_sub_cancel]
  exact ⟨rfl, Nat.log2_self_le hv, Nat.lt_log2_self⟩

/-! ### Packing (R190) -/

/-- The k-th bit of a byte in stream order is its bit 7 - k. -/
theorem getLsbD_packByte (bit : Nat → Bool) {k : Nat} (hk : k < 8) :
    (packByte (bit 0) (bit 1) (bit 2) (bit 3) (bit 4) (bit 5) (bit 6) (bit 7)).getLsbD (7 - k) = bit k := by
  -- the byte's width as the sum that `++` gives it
  change BitVec.getLsbD (w := 1 + 1 + 1 + 1 + 1 + 1 + 1 + 1) _ _ = _
  interval_cases k <;> simp only [packByte, BitVec.getLsbD_append] <;> simp

/-- A nonempty bit string packs its first eight bits, 0 bits beyond its end, and then the rest: one equation for the
full and for the last byte. -/
theorem packBits_of_ne_nil {bits : List Bool} (h : bits ≠ []) :
    packBits bits = packByte (bits.getD 0 false) (bits.getD 1 false) (bits.getD 2 false) (bits.getD 3 false)
      (bits.getD 4 false) (bits.getD 5 false) (bits.getD 6 false) (bits.getD 7 false) :: packBits (bits.drop 8) := by
  match bits with
  | [] => exact absurd rfl h
  | [_] | [_, _] | [_, _, _] | [_, _, _, _] | [_, _, _, _, _] | [_, _, _, _, _, _] | [_, _, _, _, _, _, _] => rfl
  | _ :: _ :: _ :: _ :: _ :: _ :: _ :: _ :: _ => rfl

theorem packBits_length (bits : List Bool) : (packBits bits).length = (bits.length + 7) / 8 := by
  by_cases h : bits = []
  · subst h
    rfl
  · have hpos : 0 < bits.length := List.length_pos_iff.mpr h
    rw [packBits_of_ne_nil h, List.length_cons, packBits_length (bits.drop 8), List.length_drop]
    omega
termination_by bits.length

/-- Bit i of the string, 0 beyond its end, stands at byte i / 8, bit position 7 - i % 8. -/
theorem packBits_bit (bits : List Bool) (i : Nat) (hi : i < 8 * (packBits bits).length) :
    ((packBits bits)[i / 8]?.map fun b => b.getLsbD (7 - i % 8)) = some (bits.getD i false) := by
  by_cases h : bits = []
  · simp [h, packBits] at hi
  · have hpos : 0 < bits.length := List.length_pos_iff.mpr h
    rw [packBits_of_ne_nil h] at hi ⊢
    rw [List.length_cons] at hi
    rcases Nat.lt_or_ge i 8 with hfirst | hlater
    · rw [Nat.div_eq_of_lt hfirst, Nat.mod_eq_of_lt hfirst, List.getElem?_cons_zero, Option.map_some,
        getLsbD_packByte (bits.getD · false) hfirst]
    · obtain ⟨k, rfl⟩ := Nat.exists_eq_add_of_le' hlater
      have hrest := packBits_bit (bits.drop 8) k (by omega)
      rw [Nat.add_div_right k (by decide), Nat.add_mod_right, List.getElem?_cons_succ, hrest]
      simp [List.getD_eq_getElem?_getD, Nat.add_comm]
termination_by bits.length

/-- Settles O47: packing goes byte by byte, so both clauses follow the bit string eight bits at a time. -/
theorem packingPlacesEveryBit : Obligations.PackingPlacesEveryBit :=
  ⟨fun bits => ⟨packBits_length bits, packBits_bit bits⟩, by decide, by decide⟩

end Sys2Proof.Machine

/-! Proofs: what the RLGR commands check, answer and store (spec/42_rlgr.md R197, R200). -/

namespace Sys2Proof.Machine

/-! ### The outcome of an RLGR command (R197, R200) -/

/-- Every RLGR command is `runRlgr`, in one mode and with one profile. -/
theorem exec_rlgr_eq {i : Instr} (h : i = .rlgr1 ∨ i = .rlgr3) (s : State) : ∃ m p, exec i s = runRlgr m p s := by
  rcases h with rfl | rfl
  · exact ⟨.one, s.params.rlgr1Profile, exec_rlgr1 s⟩
  · exact ⟨.three, s.params.rlgr3Profile, exec_rlgr3 s⟩

/-- The operand check comes first (R200): no premise on COEF. -/
theorem runRlgr_of_not_rangeLegal (m : RlgrMode) (p : Profile) {s : State} (h : rangeLegal s = false) :
    runRlgr m p s = .next { s with result := 0#32, err := .invalidParameter, busy := false } := by
  rcases runRlgr_cases m p s with ⟨-, e⟩ | ⟨hlegal, -, -⟩ | ⟨xs, hlegal, -, -⟩
  · exact e
  · simp [h] at hlegal
  · simp [h] at hlegal

theorem runRlgr_of_input (m : RlgrMode) (p : Profile) {s : State} {xs : List HalfWord} (hlegal : rangeLegal s = true)
    (hinput : rlgrInput s = some xs) : runRlgr m p s = .next (storeStream s (packBits (rlgrEncode m p xs))) := by
  rcases runRlgr_cases m p s with ⟨hillegal, -⟩ | ⟨-, hnone, -⟩ | ⟨ys, -, hsome, e⟩
  · simp [hlegal] at hillegal
  · simp [hinput] at hnone
  · obtain rfl := Option.some.inj (hinput.symm.trans hsome)
    exact e

/-- A written range is read (R42, R186). -/
theorem rlgrInput_of_coefWritten {s : State} (hwf : Memory.wf s.mem)
    (h : CoefWritten s s.rstart.toNat s.rcount.toNat) : ∃ xs, rlgrInput s = some xs := by
  refine Option.ne_none_iff_exists'.mp fun hnone => ?_
  obtain ⟨k, hk, hclear⟩ := (readCoefs_eq_none hwf _ _).mp hnone
  simpa [hclear] using h k hk

/-- A stream longer than OUTCAP is not stored. -/
theorem storeStream_of_lt {s : State} {stream : List Byte} (h : s.outcap.toNat < stream.length) :
    storeStream s stream = complete { clearOut s s.outcap.toNat with result := 0#32 } .capacityExceeded := if_pos h

/-- A stream that fits OUTCAP is stored. -/
theorem storeStream_of_le {s : State} {stream : List Byte} (h : stream.length ≤ s.outcap.toNat) :
    storeStream s stream =
      complete { writeOut (clearOut s s.outcap.toNat) stream with result := BitVec.ofNat 32 stream.length } .ok :=
  if_neg (Nat.not_lt.mpr h)

theorem storeStream_err (s : State) (stream : List Byte) :
    (storeStream s stream).err = .ok ∨ (storeStream s stream).err = .capacityExceeded := by
  rcases storeStream_cases s stream with ⟨-, e⟩ | ⟨-, e⟩
  · exact .inr (congrArg State.err e)
  · exact .inl (congrArg State.err e)

/-- Settles O42: R200's three conditions are the operand check, and a range that passes it and is written reaches
`storeStream`. -/
theorem rlgrValidatesItsRange : Obligations.RlgrValidatesItsRange := by
  intro i s hi
  obtain ⟨m, p, hexec⟩ := exec_rlgr_eq hi s
  rw [hexec]
  constructor
  · intro hbad
    refine runRlgr_of_not_rangeLegal m p (Bool.eq_false_iff.mpr fun hlegal => ?_)
    have := (rangeLegal_iff s).mp hlegal
    omega
  · intro hgood hwf hwritten
    obtain ⟨xs, hinput⟩ := rlgrInput_of_coefWritten hwf hwritten
    have hlegal : rangeLegal s = true := (rangeLegal_iff s).mpr (by omega)
    exact ⟨_, runRlgr_of_input m p hlegal hinput, storeStream_err s _⟩

/-! ### What the host finds in OUT (R42, R197) -/

theorem storeStream_busy (s : State) (stream : List Byte) : (storeStream s stream).busy = false := by
  rcases storeStream_cases s stream with ⟨-, e⟩ | ⟨-, e⟩
  · exact congrArg State.busy e
  · exact congrArg State.busy e

theorem storeStream_params (s : State) (stream : List Byte) : (storeStream s stream).params = s.params := by
  rw [(storeStream_writesOnly s stream).1]

theorem wf_storeStream {s : State} (hwf : Memory.wf s.mem) (stream : List Byte) :
    Memory.wf (storeStream s stream).mem := by
  rcases storeStream_cases s stream with ⟨-, e⟩ | ⟨-, e⟩
  · rw [e]
    exact wf_eraseRun hwf _ _
  · rw [e]
    exact wf_writeRun (wf_eraseRun hwf _ _) _ _

/-- A stream longer than OUTCAP leaves no byte of OUT[0..OUTCAP-1] marked. -/
theorem outAt_storeStream_of_lt {s : State} {stream : List Byte} (h : s.outcap.toNat < stream.length) {j : Nat}
    (hj : j < s.outcap.toNat) : outAt (storeStream s stream) j = none := by
  simp [storeStream_of_lt h, outAt, lookup_eraseRun, outAddr, hj]

/-- A stream that fits OUTCAP is what is marked of OUT[0..OUTCAP-1]. -/
theorem outAt_storeStream_of_le {s : State} {stream : List Byte} (h : stream.length ≤ s.outcap.toNat) {j : Nat}
    (hj : j < s.outcap.toNat) : outAt (storeStream s stream) j = stream[j]? := by
  simp [storeStream_of_le h, outAt, lookup_storeOut, outAddr, hj]

/-- A host read of a byte of OUT whose mark is clear faults. -/
theorem hostRead_out_unmarked {s : State} {j : Nat} (hidle : s.busy = false) (hwf : Memory.wf s.mem)
    (hout : s.params.outBytes ≤ 65536) (hj : j < s.params.outBytes) (hclear : outAt s j = none) :
    hostRead s .w8 (BitVec.ofNat 17 (outAddr j)) = .error .unwrittenRead := by
  have haddr : (BitVec.ofNat 17 (outAddr j)).toNat = outAddr j := by
    simp only [outAddr, outBase, BitVec.toNat_ofNat]
    omega
  have hin : ∀ k < byteCount .w8, inStorage s.params.outBytes ((BitVec.ofNat 17 (outAddr j)).toNat + k) = true := by
    intro k hk
    rw [haddr]
    simp only [byteCount] at hk
    exact inStorage_out _ _ (by simp only [outAddr]; omega) (by simp only [outAddr]; omega)
  have hrun : readRun s.mem (outAddr j) 1 = none := (readRun_eq_none hwf _ _).mpr ⟨0, Nat.one_pos, hclear⟩
  obtain ⟨hf, hwin⟩ := accessFault_storage hidle (Nat.mod_one _) hin true
  rw [haddr] at hwin
  simp [hostRead, hf, haddr, hwin, byteCount, hrun]

/-- Settles O43: the command ends in `storeStream`, whose two outcomes are the two cases of R197. -/
theorem rlgrStoresAllOrNothing : Obligations.RlgrStoresAllOrNothing := by
  intro s xs hwf hcount hrange hcap hout hlen hxs i m p himp stream
  have hinput : rlgrInput s = some xs := (readCoefs_eq_some hwf _ _ _).mpr ⟨hlen, by rwa [← hlen]⟩
  have hrun : runRlgr m p s = .next (storeStream s stream) :=
    runRlgr_of_input m p ((rangeLegal_iff s).mpr ⟨hcount, hrange, hcap⟩) hinput
  have hexec : exec i s = .next (storeStream s stream) := by
    rcases himp with ⟨rfl, rfl, rfl⟩ | ⟨rfl, rfl, rfl⟩
    · rw [exec_rlgr1, hrun]
    · rw [exec_rlgr3, hrun]
  refine ⟨_, hexec, storeStream_busy s stream, fun j hj => (storeStream_writesOnly s stream).outAt_eq hj, ?full, ?fits⟩
  case full =>
    intro hlong
    have hend := storeStream_of_lt hlong
    have hclear : ∀ j < s.outcap.toNat, outAt (storeStream s stream) j = none :=
      fun j hj => outAt_storeStream_of_lt hlong hj
    have hparams : (storeStream s stream).params = s.params := storeStream_params s stream
    refine ⟨congrArg State.result hend, congrArg State.err hend, hclear, fun j hj => ?_⟩
    exact hostRead_out_unmarked (storeStream_busy s stream) (wf_storeStream hwf stream) (by rwa [hparams])
      (by rw [hparams]; omega) (hclear j hj)
  case fits =>
    intro hfits
    have hend := storeStream_of_le hfits
    have hresult : (storeStream s stream).result = BitVec.ofNat 32 stream.length := congrArg State.result hend
    have hword : stream.length < 2 ^ 32 := Nat.lt_of_le_of_lt hfits s.outcap.isLt
    refine ⟨by rw [hresult, BitVec.toNat_ofNat, Nat.mod_eq_of_lt hword], congrArg State.err hend,
      fun j hj => outAt_storeStream_of_le hfits (Nat.lt_of_lt_of_le hj hfits), fun j hj hj' => ?_⟩
    rw [outAt_storeStream_of_le hfits hj', List.getElem?_eq_none hj]

end Sys2Proof.Machine

/-! Proofs: command words, their fields, and the rows of the opcode table (spec/30_encoding.md R90 to R97). -/

namespace Sys2Proof

/-! ### The fields of a word (R91) -/

/-- A word is its three fields side by side. -/
theorem word_eq_fields (w : Word) : w = rsvField w ++ sbField w ++ opField w := by
  ext i hi
  have hsplit : (rsvField w ++ sbField w ++ opField w : Word)[i] =
      if i < 8 then (opField w).getLsbD i else (rsvField w ++ sbField w : BitVec 24).getLsbD (i - 8) :=
    BitVec.getElem_append hi
  have htop : (rsvField w ++ sbField w : BitVec 24).getLsbD (i - 8) =
      if i - 8 < 4 then (sbField w).getLsbD (i - 8) else (rsvField w).getLsbD (i - 8 - 4) := by
    rw [BitVec.getLsbD_append]
  rw [hsplit, htop, ← BitVec.getLsbD_eq_getElem hi]
  by_cases hop : i < 8
  · simp [hop, opField]
  · by_cases hsb : i - 8 < 4
    · have hback : 8 + (i - 8) = i := by omega
      simp [hop, hsb, sbField, hback]
    · have hback : 12 + (i - 8 - 4) = i := by omega
      have hin : i - 8 - 4 < 20 := by omega
      simp [hop, hsb, rsvField, hin, hback]

theorem plainCommand_eq_none {op : BitVec 8} : plainCommand op = none ↔ op = 0x00#8 ∨ op = 0x04#8 ∨ 0x07#8 ≤ op := by
  simp only [plainCommand]
  split_ifs with h1 h2 h3 h5 h6
  case neg =>
    simp only [true_iff]
    bv_omega
  all_goals
    subst op
    decide

theorem plainCommand_eq_some {op : BitVec 8} {i : Instr} (h : plainCommand op = some i) :
    i.wellFormed = true ∧ encode i = 0#20 ++ 0#4 ++ op ∧ 0x00#8 < op ∧ op < 0x07#8 ∧ op ≠ 0x04#8 := by
  simp only [plainCommand] at h
  split_ifs at h with h1 h2 h3 h5 h6
  all_goals
    obtain rfl := Option.some.inj h
    subst op
    decide

theorem encode_diff_toNat (sb : BitVec 4) : encode (.diff sb.toNat) = 0#20 ++ sb ++ 0x04#8 := by
  revert sb
  decide

/-! ### What the decoder answers (R94) -/

/-- Everything the decoder can answer. -/
theorem decode_cases (w : Word) :
    (rsvField w ≠ 0#20 ∧ decode w = .illegal .reservedBits) ∨
      (rsvField w = 0#20 ∧ opField w = 0x04#8 ∧ decode w = .command (.diff (sbField w).toNat)) ∨
      (rsvField w = 0#20 ∧ opField w ≠ 0x04#8 ∧ plainCommand (opField w) = none ∧
        decode w = .illegal .reservedOpcode) ∨
      ∃ i, rsvField w = 0#20 ∧ opField w ≠ 0x04#8 ∧ plainCommand (opField w) = some i ∧
        ((sbField w ≠ 0#4 ∧ decode w = .illegal .subbandBits) ∨ (sbField w = 0#4 ∧ decode w = .command i)) := by
  unfold decode
  by_cases hrsv : rsvField w = 0#20
  · by_cases hop : opField w = 0x04#8
    · simp [hrsv, hop]
    · cases hp : plainCommand (opField w) with
      | none => simp [hrsv, hop]
      | some i => by_cases hsb : sbField w = 0#4 <;> simp [hrsv, hop, hsb]
  · simp [hrsv]

/-- Settles O3: the decoder answers a command only when the reserved bits are 0, and then the word is put together again
from its fields. -/
theorem encodeReadsBackEveryLegalWord : Obligations.EncodeReadsBackEveryLegalWord := by
  intro w i h
  rcases decode_cases w with ⟨-, e⟩ | ⟨hrsv, hop, e⟩ | ⟨-, -, -, e⟩ | ⟨j, hrsv, -, hplain, ⟨-, e⟩ | ⟨hsb, e⟩⟩
  · simp [e] at h
  · obtain rfl := Decoded.command.inj (e.symm.trans h)
    refine ⟨decide_eq_true (sbField w).isLt, ?_⟩
    calc encode (.diff (sbField w).toNat) = 0#20 ++ sbField w ++ 0x04#8 := encode_diff_toNat _
      _ = rsvField w ++ sbField w ++ opField w := by rw [hrsv, hop]
      _ = w := (word_eq_fields w).symm
  · simp [e] at h
  · simp [e] at h
  · obtain rfl := Decoded.command.inj (e.symm.trans h)
    obtain ⟨hwf, henc, -⟩ := plainCommand_eq_some hplain
    refine ⟨hwf, ?_⟩
    rw [word_eq_fields w, hrsv, hsb, henc]

/-- Settles O2: five words, and DIFF's word for the sixteen values of its field. -/
theorem decodeReadsBackEveryEncoding : Obligations.DecodeReadsBackEveryEncoding := by
  intro i hwf
  cases i with
  | diff sb =>
    have hsb : sb < 16 := of_decide_eq_true hwf
    interval_cases sb <;> decide
  | _ => decide

/-- Settles O5: the fifteen words of L2.6 are evaluated. -/
theorem listedWordsDecodeAsListed : Obligations.ListedWordsDecodeAsListed := by
  unfold Obligations.ListedWordsDecodeAsListed
  decide

/-! ### Illegal words (R94) -/

/-- The decoder refuses exactly R94's words. -/
theorem decode_eq_illegal_iff (w : Word) : (∃ why, decode w = .illegal why) ↔
    (opField w = 0x00#8 ∨ 0x07#8 ≤ opField w ∨ rsvField w ≠ 0#20 ∨ (opField w ≠ 0x04#8 ∧ sbField w ≠ 0#4)) := by
  rcases decode_cases w with ⟨hrsv, e⟩ | ⟨hrsv, hop, e⟩ | ⟨hrsv, hop, hplain, e⟩ | ⟨i, hrsv, hop, hplain, h⟩
  · simp [e, hrsv]
  · simp [e, hrsv, hop]
  · have := plainCommand_eq_none.mp hplain
    simp only [e, Decoded.illegal.injEq, exists_eq', true_iff]
    tauto
  · obtain ⟨-, -, hlow, hhigh, -⟩ := plainCommand_eq_some hplain
    have hzero : opField w ≠ 0x00#8 := by bv_omega
    have hseven : ¬ 0x07#8 ≤ opField w := by bv_omega
    rcases h with ⟨hsb, e⟩ | ⟨hsb, e⟩
    · simp [e, hop, hsb]
    · simp [e, hrsv, hsb, hzero, hseven]

/-! ### The rows of the opcode table (L2.6) -/

/-- The word a well-formed command assembles to belongs to its own row only. -/
theorem tableRow (i : Instr) : Laws.TableRow.Statement i :=
  match i with
  | .dwtStd => Laws.TableRow.dwtStd
  | .dwtRe => Laws.TableRow.dwtRe
  | .quant => Laws.TableRow.quant
  | .diff sb => Laws.TableRow.diff sb
  | .rlgr1 => Laws.TableRow.rlgr1
  | .rlgr3 => Laws.TableRow.rlgr3

/-- The table holds each command's row once; the row of DIFF does not depend on its field. -/
theorem filter_eq_opcodeRow (i : Instr) : opcodeTable.filter (fun r => decide (r = opcodeRow i)) = [opcodeRow i] := by
  cases i with
  | diff sb =>
    exact (by decide : opcodeTable.filter (fun r => decide (r = opcodeRow (.diff 0))) = [opcodeRow (.diff 0)])
  | _ => decide

theorem covers_iff_of_full_mask {w pattern : Word} :
    OpcodeRow.covers ⟨pattern, 0xFFFFFFFF#32⟩ w = true ↔ w = pattern := by
  have hmask : w &&& 0xFFFFFFFF#32 = w := BitVec.and_allOnes
  simp [OpcodeRow.covers, hmask]

/-- Clearing SB leaves the word of `diff #0` only of a word whose other fields are DIFF's. -/
theorem decode_of_covers_diff {w : Word} (h : (opcodeRow (.diff 0)).covers w = true) :
    decode w = .command (.diff (sbField w).toNat) := by
  have hmask : w &&& 0xFFFFF0FF#32 = 0x00000004#32 := of_decide_eq_true h
  have hrsv : rsvField w = 0#20 := calc
    rsvField w = rsvField w &&& 0xFFFFF#20 := BitVec.and_allOnes.symm
    _ = rsvField (w &&& 0xFFFFF0FF#32) := by simp [rsvField, BitVec.extractLsb'_and]
    _ = 0#20 := by rw [hmask]; rfl
  have hop : opField w = 0x04#8 := calc
    opField w = opField w &&& 0xFF#8 := BitVec.and_allOnes.symm
    _ = opField (w &&& 0xFFFFF0FF#32) := by simp [opField, BitVec.extractLsb'_and]
    _ = 0x04#8 := by rw [hmask]; rfl
  simp [decode, hrsv, hop]

/-- A word of some row is legal. -/
theorem decode_of_covers {w : Word} {r : OpcodeRow} (hr : r ∈ opcodeTable) (h : r.covers w = true) :
    ∃ i, decode w = .command i := by
  simp only [opcodeTable, List.mem_cons, List.not_mem_nil, or_false] at hr
  rcases hr with rfl | rfl | rfl | rfl | rfl | rfl
  case inr.inr.inr.inl => exact ⟨_, decode_of_covers_diff h⟩
  all_goals
    rw [covers_iff_of_full_mask.mp h]
    exact ⟨_, rfl⟩

/-- Settles O4: a legal word is the word its command assembles to, and a word of any row is legal. -/
theorem legalWordsMatchExactlyOneTableRow : Obligations.LegalWordsMatchExactlyOneTableRow := by
  refine fun w => ⟨fun i h => ?legal, fun why h => ?illegal⟩
  case legal =>
    obtain ⟨hwf, rfl⟩ := encodeReadsBackEveryLegalWord w i h
    rw [List.filter_congr (tableRow i hwf), filter_eq_opcodeRow]
  case illegal =>
    refine List.filter_eq_nil_iff.mpr fun r hr hcov => ?_
    obtain ⟨i, hi⟩ := decode_of_covers hr hcov
    simp [hi] at h

end Sys2Proof

/-! Proofs: what the commands and the steps can do at all, and the machine's invariant (spec/30_encoding.md R95,
spec/70_reset_and_hazards.md R250 to R254). -/

namespace Sys2Proof.Machine

/-! ### Everything a completing command can do (R224) -/

/-- The five ways a command completes, over the shared operations. -/
theorem exec_next {i : Instr} {s t : State} (h : exec i s = .next t) :
    ((i = .dwtStd ∨ i = .dwtRe) ∧
        ∃ cs, cs.length = 4096 ∧ t = complete (scrambleScratch (writeCoefs s 0 cs)) .ok) ∨
      ((i = .quant ∨ ∃ sb, i = .diff sb) ∧
        ∃ start cs, start + cs.length ≤ 4096 ∧ t = complete (writeCoefs s start cs) .ok) ∨
      ((i = .quant ∨ ∃ sb, i = .diff sb) ∧ t = complete s .invalidParameter) ∨
      ((i = .rlgr1 ∨ i = .rlgr3) ∧ t = complete { s with result := 0#32 } .invalidParameter) ∨
      ((i = .rlgr1 ∨ i = .rlgr3) ∧ s.outcap.toNat ≤ s.params.outBytes ∧ ∃ stream, t = storeStream s stream) := by
  have dwt : ∀ v, runDwt v s = .next t →
      ∃ cs, cs.length = 4096 ∧ t = complete (scrambleScratch (writeCoefs s 0 cs)) .ok := fun v hv => by
    rcases runDwt_cases v s with ⟨-, e⟩ | ⟨pix, -, e⟩
    · simp [e] at hv
    · exact ⟨_, dwtCoefs_length _ _ _, (Host.Outcome.next.inj (e.symm.trans hv)).symm⟩
  have rlgr : ∀ m p, runRlgr m p s = .next t → t = complete { s with result := 0#32 } .invalidParameter ∨
      (s.outcap.toNat ≤ s.params.outBytes ∧ ∃ stream, t = storeStream s stream) := fun m p hr => by
    rcases runRlgr_cases m p s with ⟨-, e⟩ | ⟨-, -, e⟩ | ⟨xs, hlegal, -, e⟩
    · exact .inl (Host.Outcome.next.inj (e.symm.trans hr)).symm
    · simp [e] at hr
    · obtain ⟨-, -, hcap⟩ := (rangeLegal_iff s).mp hlegal
      exact .inr ⟨hcap, _, (Host.Outcome.next.inj (e.symm.trans hr)).symm⟩
  cases i with
  | dwtStd => exact .inl ⟨.inl rfl, dwt _ h⟩
  | dwtRe => exact .inl ⟨.inr rfl, dwt _ h⟩
  | quant =>
    rw [exec_quant] at h
    rcases execQuant_cases s with ⟨-, e⟩ | ⟨-, -, e⟩ | ⟨coefs, -, hread, e⟩
    · exact .inr (.inr (.inl ⟨.inl rfl, (Host.Outcome.next.inj (e.symm.trans h)).symm⟩))
    · simp [e] at h
    · exact .inr (.inl ⟨.inl rfl, 0, _, by simp [readCoefs_length hread],
        (Host.Outcome.next.inj (e.symm.trans h)).symm⟩)
  | diff sb =>
    rw [exec_diff] at h
    rcases execDiff_cases sb s with ⟨-, e⟩ | ⟨b, -, ⟨-, e⟩ | ⟨old, hread, e⟩⟩
    · exact .inr (.inr (.inl ⟨.inr ⟨sb, rfl⟩, (Host.Outcome.next.inj (e.symm.trans h)).symm⟩))
    · simp [e] at h
    · exact .inr (.inl ⟨.inr ⟨sb, rfl⟩, _, _, by simpa [readCoefs_length hread] using band_in_coef b,
        (Host.Outcome.next.inj (e.symm.trans h)).symm⟩)
  | rlgr1 =>
    rcases rlgr _ _ h with e | e
    · exact .inr (.inr (.inr (.inl ⟨.inl rfl, e⟩)))
    · exact .inr (.inr (.inr (.inr ⟨.inl rfl, e⟩)))
  | rlgr3 =>
    rcases rlgr _ _ h with e | e
    · exact .inr (.inr (.inr (.inl ⟨.inr rfl, e⟩)))
    · exact .inr (.inr (.inr (.inr ⟨.inr rfl, e⟩)))

/-- No command writes its operands, and every completing one clears BUSY (R95, R224). -/
theorem exec_keeps_operands {i : Instr} {s t : State} (h : exec i s = .next t) :
    OperandsSame s t ∧ t.busy = false := by
  rcases exec_next h with ⟨-, cs, -, rfl⟩ | ⟨-, start, cs, -, rfl⟩ | ⟨-, rfl⟩ | ⟨-, rfl⟩ | ⟨-, -, stream, rfl⟩
  case inr.inr.inr.inr => exact ⟨(storeStream_writesOnly s stream).operandsSame, storeStream_busy s stream⟩
  all_goals exact ⟨⟨rfl, rfl, rfl, rfl, rfl, rfl, rfl, rfl⟩, rfl⟩

/-- Everything the engine's step can do when it completes (R94, R95). -/
theorem engineStep_next {s t : State} (h : engineStep s = .next t) :
    ((∃ why, decode s.pend = .illegal why) ∧ t = complete s .illegalCommand) ∨
      ∃ i, decode s.pend = .command i ∧ exec i s = .next t := by
  unfold engineStep at h
  split at h
  · next why hd => exact .inl ⟨⟨why, hd⟩, (Host.Outcome.next.inj h).symm⟩
  · next i hd => exact .inr ⟨i, hd, h⟩

theorem engineStep_keeps_operands {s t : State} (h : engineStep s = .next t) :
    OperandsSame s t ∧ t.busy = false := by
  rcases engineStep_next h with ⟨-, rfl⟩ | ⟨i, -, hi⟩
  · exact ⟨⟨rfl, rfl, rfl, rfl, rfl, rfl, rfl, rfl⟩, rfl⟩
  · exact exec_keeps_operands hi

theorem engineStep_params {s t : State} (h : engineStep s = .next t) : t.params = s.params := by
  obtain ⟨⟨hparams, -⟩, -⟩ := engineStep_keeps_operands h
  exact hparams

theorem engineStep_of_command {s : State} {i : Instr} (h : decode s.pend = .command i) : engineStep s = exec i s := by
  simp [engineStep, h]

theorem engineStep_of_illegal {s : State} {why : DecodeError} (h : decode s.pend = .illegal why) :
    engineStep s = .next (complete s .illegalCommand) := by simp [engineStep, h]

/-! ### Everything a permitted host write can do (R65, R71) -/

/-- A byte of a mapped access outside the register window is storage (R61). -/
theorem inStorage_of_allMapped {p : Params} {a : Address} {w : Width} (hmap : allMapped p a w = true)
    (hwin : inRegisterWindow a.toNat = false) : ∀ i < byteCount w, inStorage p.outBytes (a.toNat + i) = true := by
  intro i hi
  have hm := (isMapped_iff _ _).mp ((allMapped_iff p a w).mp hmap i hi)
  rw [Bool.eq_false_iff, ne_eq, inRegisterWindow_iff] at hwin
  rw [inStorage_iff]
  omega

/-- A permitted write goes to a register, or to storage whole; none is permitted while a command is pending (R76). -/
theorem hostWrite_ok {s t : State} {w : Width} {a : Address} {v : Word} (h : hostWrite s w a v = .ok t) :
    s.busy = false ∧ a.toNat % byteCount w = 0 ∧
      ((w = .w32 ∧ a.toNat < 0x1000 ∧ t = writeRegister s a.toNat v) ∨
        (0x1000 ≤ a.toNat ∧ (∀ i < byteCount w, inStorage s.params.outBytes (a.toNat + i) = true) ∧
          t = { s with mem := writeRun s.mem a.toNat (wordToBytes (byteCount w) v) })) := by
  have permitted : accessFault s false w a = none →
      s.busy = false ∧ a.toNat % byteCount w = 0 ∧ allMapped s.params a w = true ∧
        (inRegisterWindow a.toNat = true → w = .w32) := fun hf => by
    obtain ⟨hmap, hal, hwidth, hbusy⟩ := (accessFault_eq_none s false w a).mp hf
    exact ⟨by simpa using hbusy, hal, hmap, hwidth⟩
  rcases hostWrite_cases s w a v with ⟨f, -, e⟩ | ⟨hf, hwin, e⟩ | ⟨hf, hwin, e⟩
  · simp [e] at h
  · obtain ⟨hidle, hal, -, hwidth⟩ := permitted hf
    exact ⟨hidle, hal, .inl ⟨hwidth hwin, (inRegisterWindow_iff _).mp hwin, (Except.ok.inj (e.symm.trans h)).symm⟩⟩
  · obtain ⟨hidle, hal, hmap, -⟩ := permitted hf
    have hlow : 0x1000 ≤ a.toNat := by
      rw [Bool.eq_false_iff, ne_eq, inRegisterWindow_iff] at hwin
      omega
    exact ⟨hidle, hal, .inr ⟨hlow, inStorage_of_allMapped hmap hwin, (Except.ok.inj (e.symm.trans h)).symm⟩⟩

@[simp] theorem wordToBytes_length (n : Nat) (v : Word) : (wordToBytes n v).length = n := by simp [wordToBytes]

/-! ### Every step keeps the invariant -/

/-- A completing command keeps the invariant. -/
theorem exec_inv {i : Instr} {s t : State} (hs : s.Inv) (h : exec i s = .next t) : t.Inv := by
  rcases exec_next h with ⟨-, cs, hcs, rfl⟩ | ⟨-, start, cs, hcs, rfl⟩ | ⟨-, rfl⟩ | ⟨-, rfl⟩ | ⟨-, hcap, stream, rfl⟩
  · exact ((hs.writeCoefs 0 cs (by omega)).scrambleScratch).complete _
  · exact (hs.writeCoefs start cs hcs).complete _
  · exact hs.complete _
  · exact (hs.setResult 0#32 (Nat.zero_le _)).complete _
  · exact hs.storeStream stream hcap

theorem engineStep_inv {s t : State} (hs : s.Inv) (h : engineStep s = .next t) : t.Inv := by
  rcases engineStep_next h with ⟨-, rfl⟩ | ⟨i, -, hi⟩
  · exact hs.complete _
  · exact exec_inv hs hi

theorem hostWrite_inv {s t : State} {w : Width} {a : Address} {v : Word} (hs : s.Inv)
    (h : hostWrite s w a v = .ok t) : t.Inv := by
  obtain ⟨-, -, ⟨-, -, rfl⟩ | ⟨-, hin, rfl⟩⟩ := hostWrite_ok h
  · exact hs.writeRegister _ v
  · have ⟨_, hwf, hstorage, _⟩ := hs
    refine hs.setMem _ (wf_writeRun hwf _ _) (inStorage_writeRun hstorage fun x hlow hhigh => ?_)
    obtain ⟨k, rfl⟩ := Nat.exists_eq_add_of_le hlow
    rw [wordToBytes_length] at hhigh
    exact hin k (by omega)

theorem hostExec_inv {op : HostOp} {s t : State} (hs : s.Inv) (h : hostExec op s = .next t) : t.Inv := by
  rcases hostExec_next h with
    ⟨w, a, v, u, -, hw, rfl⟩ | ⟨w, a, x, v, -, -, rfl⟩ | ⟨x, m, target, v, -, -, rfl⟩ | ⟨-, rfl⟩
  · exact (hostWrite_inv hs hw).hostNext
  · exact (hs.hostSet x v).hostNext
  · split
    · exact hs.hostGoto target
    · exact hs.hostNext
  · exact hs.assertReset.hostNext

/-- Settles O59: the invariant goes through whichever agent moves. -/
theorem stepKeepsTheInvariant : Obligations.StepKeepsTheInvariant := by
  intro s t hs h
  change agentStep s = .next t at h
  rcases agentStep_cases s with ⟨-, -, e⟩ | ⟨-, -, e⟩ | ⟨op, -, -, e⟩ | ⟨op, -, -, -, e⟩ | ⟨op, -, -, -, e⟩
  · obtain rfl := Host.Outcome.next.inj (e.symm.trans h)
    exact hs
  · exact engineStep_inv hs (e.symm.trans h)
  · exact hostExec_inv hs (e.symm.trans h)
  · exact hostExec_inv (hs.waiting _) (e.symm.trans h)
  · exact engineStep_inv hs (e.symm.trans h)

/-- Settles O58. -/
theorem resetMeetsTheInvariant : Obligations.ResetMeetsTheInvariant := fun _ hp => resetWith_inv hp _ rfl

/-! ### Which agent moves (R95, R254) -/

/-- The engine moves when a command is pending and no host operation is waiting, or the delay is over. -/
theorem step_eq_engineStep {s : State} (hbusy : s.busy = true)
    (hturn : HostIdle s ∨ Config.engineDelay s.oracle ≤ s.waited) : step s = engineStep s := by
  change agentStep s = _
  rcases agentStep_cases s with
    ⟨-, hidle, -⟩ | ⟨-, -, e⟩ | ⟨op, -, hidle, -⟩ | ⟨op, hop, -, hwait, -⟩ | ⟨op, -, -, -, e⟩
  · simp [hbusy] at hidle
  · exact e
  · simp [hbusy] at hidle
  · rcases hturn with hnone | hover
    · cases hop.symm.trans hnone
    · omega
  · exact e

theorem step_of_idle {s : State} (hbusy : s.busy = false) (hidle : HostIdle s) : step s = .next s := by
  change agentStep s = _
  simp [agentStep, hbusy, hidle]

theorem step_of_host {s : State} {op : HostOp} (hbusy : s.busy = false) (hop : hostOp s = some op) :
    step s = hostExec op s := by
  change agentStep s = _
  simp [agentStep, hbusy, hop]

theorem step_of_waiting {s : State} {op : HostOp} (hbusy : s.busy = true) (hop : hostOp s = some op)
    (hwait : s.waited < Config.engineDelay s.oracle) : step s = hostExec op { s with waited := s.waited + 1 } := by
  change agentStep s = _
  simp [agentStep, hbusy, hop, hwait]

/-- Settles O1: the decoder refuses R94's words, and the engine's step on a refused word is `complete`. -/
theorem illegalWordsCompleteWithIllegalCommand : Obligations.IllegalWordsCompleteWithIllegalCommand :=
  ⟨decode_eq_illegal_iff, fun _ _ hbusy hturn hd => (step_eq_engineStep hbusy hturn).trans (engineStep_of_illegal hd)⟩

/-- Settles O9. -/
theorem stepPerformsTheDecodedCommand : Obligations.StepPerformsTheDecodedCommand :=
  fun _ _ hbusy hd hturn => (step_eq_engineStep hbusy hturn).trans (engineStep_of_command hd)

/-- Settles O10: the placed word is the command's own, and no host operation is left to wait for. -/
theorem placedCommandIsPerformedNext : Obligations.PlacedCommandIsPerformedNext := by
  intro s i hwf
  have hpend : (s.withFetchWord 32 (encode i).toNat).pend = encode i := by
    change BitVec.ofNat 32 ((encode i).toNat % 2 ^ 32) = encode i
    rw [Nat.mod_eq_of_lt (encode i).isLt, BitVec.ofNat_toNat, BitVec.setWidth_eq]
  have hidle : HostIdle (s.withFetchWord 32 (encode i).toNat) := rfl
  exact stepPerformsTheDecodedCommand _ i rfl (by rw [hpend, decodeReadsBackEveryEncoding i hwf]) (.inl hidle)

/-- Settles O11. -/
theorem idleBlockWaitsForTheHost : Obligations.IdleBlockWaitsForTheHost :=
  ⟨fun _ => step_of_idle, fun _ => step_of_idle rfl rfl, fun _ _ => step_of_host⟩

/-- Settles O14: the reset input is one assignment of the reset state, as a host move and after a Fault too. -/
theorem resetAbandonsThePendingCommand : Obligations.ResetAbandonsThePendingCommand :=
  ⟨fun _ => rfl, fun s => ⟨hostNext (assertReset s), rfl, rfl, rfl, rfl, rfl⟩, fun _ _ h => by rw [h]; rfl⟩

end Sys2Proof.Machine

/-! Proofs: the registers through the host's accesses, and what no step changes (spec/10_state.md R23 to R31, R253). -/

namespace Sys2Proof.Machine

/-! ### The register file (R23 to R31) -/

@[simp] theorem qshiftIndex_qshift (q : Fin 10) : qshiftIndex (0x020 + 4 * q.val) = some q := by
  have hrange : 0x020 ≤ 0x020 + 4 * q.val ∧ 0x020 + 4 * q.val < 0x048 := by omega
  simp [qshiftIndex, hrange]

theorem readRegister_qshift (s : State) (q : Fin 10) :
    readRegister s (0x020 + 4 * q.val) = s.qshift[q].setWidth 32 := by
  have hne : 0x020 + 4 * q.val ≠ 0x004 ∧ 0x020 + 4 * q.val ≠ 0x008 ∧ 0x020 + 4 * q.val ≠ 0x00C ∧
      0x020 + 4 * q.val ≠ 0x010 ∧ 0x020 + 4 * q.val ≠ 0x014 ∧ 0x020 + 4 * q.val ≠ 0x018 := by omega
  simp [readRegister, hne]

/-- A write at an offset of a QSHIFT register keeps its low byte (R31). -/
theorem writeRegister_of_qshiftIndex {s : State} {off : Nat} {q : Fin 10} (v : Word) (h : qshiftIndex off = some q) :
    writeRegister s off v = { s with qshift := s.qshift.set q (v.setWidth 8) } := by
  have hrange : ¬ (off < 0x020 ∨ 0x048 ≤ off) := by simp [← qshiftIndex_eq_none, h]
  have hne : off ≠ 0x000 ∧ off ≠ 0x010 ∧ off ≠ 0x014 ∧ off ≠ 0x018 := by omega
  simp [writeRegister, hne, h]

/-- The low byte of a word, zero-extended. -/
theorem setWidth_low_byte (v : Word) : (v.setWidth 8).setWidth 32 = v &&& 0xFF#32 := by
  apply BitVec.eq_of_toNat_eq
  have hmask : v.toNat &&& 255 = v.toNat % 2 ^ 8 := Nat.and_two_pow_sub_one_eq_mod v.toNat 8
  simp only [BitVec.toNat_setWidth, BitVec.toNat_and, BitVec.reduceToNat, hmask]
  omega

theorem qshiftAddr_toNat (q : Fin 10) : (BitVec.ofNat 17 (0x020 + 4 * q.val)).toNat = 0x020 + 4 * q.val := by
  rw [BitVec.toNat_ofNat]
  omega

/-- Settles O15: the write reaches `latch`, whose command the engine performs when no host operation is waiting. -/
theorem commandWriteLatchesTheWord : Obligations.CommandWriteLatchesTheWord := by
  refine ⟨fun s w hidle => ⟨latch s w, hostWrite_register w hidle (by decide) (by decide), rfl, fun hturn => ?_, ?_⟩,
    fun s w hbusy => ?_, fun _ => ⟨rfl, rfl⟩⟩
  · exact step_eq_engineStep (latch_busy s w) (.inl hturn)
  · exact hostRead_register (by decide) (by decide) (by simp [hidle])
  · have hfault : accessFault s false .w32 0x000#17 = some .accessWhileBusy := by
      simp [accessFault, allMapped_register s.params (a := 0x000#17) (by decide) (by decide), hbusy, byteCount]
    exact hostWrite_of_accessFault w hfault

/-! ### STATUS (R24) -/

/-- The fields of STATUS, each where R24 puts it. -/
theorem statusWord_fields (s : State) :
    (statusWord s).extractLsb' 0 1 = BitVec.ofBool s.busy ∧ (statusWord s).extractLsb' 1 3 = 0#3 ∧
      (statusWord s).extractLsb' 4 4 = errCode s.err ∧ (statusWord s).extractLsb' 8 8 = s.lastOp ∧
      (statusWord s).extractLsb' 16 16 = 0#16 := by
  -- the word's width as the sum of its fields' widths
  have hsum : ∀ start len, (statusWord s).extractLsb' start len =
      BitVec.extractLsb' (n := 16 + 8 + 4 + 3 + 1) start len
        (0#16 ++ s.lastOp ++ errCode s.err ++ 0#3 ++ BitVec.ofBool s.busy) := fun _ _ => rfl
  have above : ∀ {v w : Nat} {hi : BitVec v} {lo : BitVec w} {start len : Nat}, w ≤ start →
      BitVec.extractLsb' start len (hi ++ lo) = BitVec.extractLsb' (start - w) len hi :=
    BitVec.extractLsb'_append_eq_of_le
  refine ⟨?_, ?_, ?_, ?_, ?_⟩
  · exact BitVec.extractLsb'_append_eq_right
  · rw [hsum, above (by decide)]
    exact BitVec.extractLsb'_append_eq_right
  · rw [hsum, above (by decide), above (by decide)]
    exact BitVec.extractLsb'_append_eq_right
  · rw [hsum, above (by decide), above (by decide), above (by decide)]
    exact BitVec.extractLsb'_append_eq_right
  · rw [hsum, above (by decide), above (by decide), above (by decide), above (by decide)]
    exact BitVec.extractLsb'_eq_self

/-- The bit of STATUS that the wait loop polls (R24, R99). -/
theorem statusWord_and_one (s : State) : statusWord s &&& 1#32 = (BitVec.ofBool s.busy).setWidth 32 := by
  obtain ⟨hbusy, -⟩ := statusWord_fields s
  rw [← hbusy]
  generalize statusWord s = w
  apply BitVec.eq_of_toNat_eq
  have hmask : w.toNat &&& 1 = w.toNat % 2 ^ 1 := Nat.and_two_pow_sub_one_eq_mod w.toNat 1
  simp only [BitVec.toNat_setWidth, BitVec.toNat_and, BitVec.reduceToNat, hmask, BitVec.extractLsb'_toNat]
  omega

/-- Settles O16: a read of STATUS is permitted in every state and answers its fields. -/
theorem statusHoldsItsFields : Obligations.StatusHoldsItsFields := by
  intro s
  obtain ⟨hbusy, hzero, herr, hop, hhigh⟩ := statusWord_fields s
  refine ⟨statusWord s, ?_, hbusy, hzero, ?_, hop, hhigh, fun hidle v => ?_⟩
  · exact hostRead_register (by decide) (by decide) fun _ => rfl
  · rw [herr]
    cases s.err <;> rfl
  · rw [hostWrite_register v hidle (by decide) (by decide)]
    exact congrArg Except.ok (writeRegister_ignored s v (.inl rfl))

/-! ### The operand registers (R27 to R31) -/

/-- Settles O18: each register is one offset of the register file. -/
theorem operandRegistersReadBack : Obligations.OperandRegistersReadBack := by
  intro s v hidle
  have reads : ∀ (t : State) (a : Address), t.busy = false → a.toNat < 0x1000 → a.toNat % 4 = 0 →
      hostRead t .w32 a = .ok (readRegister t a.toNat) :=
    fun t a ht hwin hal => hostRead_register hwin hal (by simp [ht])
  have writes : ∀ (a : Address) (t : State), a.toNat < 0x1000 → a.toNat % 4 = 0 → writeRegister s a.toNat v = t →
      hostWrite s .w32 a v = .ok t := fun a t hwin hal ht => ht ▸ hostWrite_register v hidle hwin hal
  refine ⟨reads s _ hidle (by decide) (by decide), reads s _ hidle (by decide) (by decide),
    reads s _ hidle (by decide) (by decide), reads s _ hidle (by decide) (by decide), fun q => ?_,
    ⟨{ s with outcap := v }, writes _ _ (by decide) (by decide) rfl, rfl, reads _ _ hidle (by decide) (by decide)⟩,
    ⟨{ s with rstart := v }, writes _ _ (by decide) (by decide) rfl, rfl, reads _ _ hidle (by decide) (by decide)⟩,
    ⟨{ s with rcount := v }, writes _ _ (by decide) (by decide) rfl, rfl, reads _ _ hidle (by decide) (by decide)⟩,
    fun q => ?_⟩
  all_goals
    have haddr := qshiftAddr_toNat q
    have hwin : (BitVec.ofNat 17 (0x020 + 4 * q.val)).toNat < 0x1000 := by omega
    have hal : (BitVec.ofNat 17 (0x020 + 4 * q.val)).toNat % 4 = 0 := by omega
  · rw [reads s _ hidle hwin hal, haddr, readRegister_qshift]
  · refine ⟨{ s with qshift := s.qshift.set q (v.setWidth 8) }, writes _ _ hwin hal ?_, rfl, ?_⟩
    · rw [haddr, writeRegister_of_qshiftIndex v (qshiftIndex_qshift q)]
    · refine (reads { s with qshift := s.qshift.set q (v.setWidth 8) } _ hidle hwin hal).trans (congrArg Except.ok ?_)
      rw [haddr, readRegister_qshift, ← setWidth_low_byte]
      simp

/-! ### CAP and the parameters (R26, R251, R253) -/

theorem writeRegister_params (s : State) (off : Nat) (v : Word) : (writeRegister s off v).params = s.params := by
  rcases writeRegister_cases s off v with ⟨-, e⟩ | ⟨-, e⟩ | ⟨-, e⟩ | ⟨-, e⟩ | ⟨q, -, e⟩ | ⟨-, -, -, -, -, e⟩
  all_goals rw [e]
  exact latch_params s v

theorem hostExec_params {op : HostOp} {s t : State} (h : hostExec op s = .next t) : t.params = s.params := by
  rcases hostExec_next h with
    ⟨w, a, v, u, -, hw, rfl⟩ | ⟨w, a, x, v, -, -, rfl⟩ | ⟨x, m, target, v, -, -, rfl⟩ | ⟨-, rfl⟩
  · obtain ⟨-, -, ⟨-, -, rfl⟩ | ⟨-, -, rfl⟩⟩ := hostWrite_ok hw
    · exact writeRegister_params s _ v
    · rfl
  · rfl
  · split <;> rfl
  · rfl

theorem step_params {s t : State} (h : step s = .next t) : t.params = s.params := by
  change agentStep s = .next t at h
  rcases agentStep_cases s with ⟨-, -, e⟩ | ⟨-, -, e⟩ | ⟨op, -, -, e⟩ | ⟨op, -, -, -, e⟩ | ⟨op, -, -, -, e⟩
  · obtain rfl := Host.Outcome.next.inj (e.symm.trans h)
    rfl
  · exact engineStep_params (e.symm.trans h)
  · exact hostExec_params (e.symm.trans h)
  · exact hostExec_params (s := { s with waited := s.waited + 1 }) (e.symm.trans h)
  · exact engineStep_params (e.symm.trans h)

/-- Settles O19: CAP is a function of the parameters, which no step writes. -/
theorem capabilityNeverChanges : Obligations.CapabilityNeverChanges := by
  refine ⟨fun s hidle => ⟨capWord s, hostRead_register (by decide) (by decide) (by simp [hidle]), ?_⟩, fun s t h => ?_⟩
  · unfold capWord
    cases s.params.capLevel <;> decide
  · have hparams := step_params h
    exact ⟨hparams, by rw [capWord, hparams, capWord]⟩

end Sys2Proof.Machine

/-! Proofs: the wait loop of the host reaches the pending command and ends after it (spec/30_encoding.md R95, R99). -/

namespace Sys2Proof.Machine

/-- The host stands in the wait loop at position `p` (R99): about to read STATUS, or about to branch back on a STATUS
whose BUSY bit it has read set. -/
def InWaitLoop (s : State) (p : Nat) : Prop :=
  s.host.program[p]? = some (.read .w32 (BitVec.ofNat 17 statusOffset) waitVariable) ∧
    s.host.program[p + 1]? = some (.bnz waitVariable 1#32 p) ∧
    (s.host.pos = p ∨
      (s.host.pos = p + 1 ∧ ∃ v, lookup s.host.vars waitVariable = some v ∧ v &&& 1#32 ≠ 0#32))

theorem hostRead_status (s : State) : hostRead s .w32 (BitVec.ofNat 17 statusOffset) = .ok (statusWord s) :=
  hostRead_register (by decide) (by decide) fun _ => rfl

/-- The value the last read of a variable left (R98). -/
theorem lookup_hostSet (s : State) (x : Nat) (v : Word) : lookup (hostSet s x v).host.vars x = some v := by
  simp [lookup_writeRun]

theorem hostExec_read_status (s : State) :
    hostExec (.read .w32 (BitVec.ofNat 17 statusOffset) waitVariable) s =
      .next (hostNext (hostSet s waitVariable (statusWord s))) := by
  simp [hostExec, hostRead_status]

/-- A host whose last read was of `v` branches on `v` (R98). -/
theorem hostExec_bnz {s : State} {x : Nat} {v : Word} (m : Word) (target : Nat) (h : lookup s.host.vars x = some v) :
    hostExec (.bnz x m target) s = .next (if v &&& m ≠ 0#32 then hostGoto s target else hostNext s) := by
  simp [hostExec, h]

/-- While the command is pending, a move of the host in the loop stays in the loop and touches the host only. -/
theorem waitLoop_move {s : State} {p : Nat} (hbusy : s.busy = true) (h : InWaitLoop s p) :
    ∃ op u, hostOp s = some op ∧ (∀ n, hostExec op { s with waited := n } = .next { u with waited := n }) ∧
      u = { s with host := u.host } ∧ InWaitLoop u p := by
  obtain ⟨hread, hbranch, hpos | ⟨hpos, v, hv, hbit⟩⟩ := h
  · refine ⟨_, hostNext (hostSet s waitVariable (statusWord s)), by rw [hostOp, hpos, hread],
      fun n => hostExec_read_status _, rfl, hread, hbranch, .inr ⟨congrArg (· + 1) hpos, statusWord s,
        lookup_hostSet s _ _, ?_⟩⟩
    rw [statusWord_and_one, hbusy]
    decide
  · refine ⟨_, hostGoto s p, by rw [hostOp, hpos, hbranch], fun n => ?_, rfl, hread, hbranch, .inl rfl⟩
    rw [hostExec_bnz (s := { s with waited := n }) 1#32 p hv, if_pos hbit]
    rfl

theorem core_run_succ {M : Host.Core} {s t : M.State} (h : M.step s = .next t) (k : Nat) :
    M.run (k + 1) s = M.run k t := by rw [Host.Core.run, h]

theorem run_succ {s t : State} (h : step s = .next t) (k : Nat) :
    Host.Core.run Sys2Proof.core (k + 1) s = Host.Core.run Sys2Proof.core k t :=
  core_run_succ (M := Sys2Proof.core) h k

/-- The host polls until the delay is over. -/
theorem waitLoop_until_delay {p : Nat} (k : Nat) {s : State} (hbusy : s.busy = true) (h : InWaitLoop s p)
    (hk : Config.engineDelay s.oracle ≤ s.waited + k) :
    ∃ j u, j ≤ k ∧ Host.Core.run Sys2Proof.core j s = .next u ∧ u = { s with host := u.host, waited := u.waited } ∧
      InWaitLoop u p ∧ Config.engineDelay u.oracle ≤ u.waited := by
  induction k generalizing s with
  | zero => exact ⟨0, s, Nat.le_refl _, rfl, rfl, h, hk⟩
  | succ k ih =>
    by_cases hover : Config.engineDelay s.oracle ≤ s.waited
    · exact ⟨0, s, Nat.zero_le _, rfl, rfl, h, hover⟩
    · obtain ⟨op, v, hop, hmove, hv, hin⟩ := waitLoop_move hbusy h
      have hstep : step s = .next { v with waited := s.waited + 1 } :=
        (step_of_waiting hbusy hop (by omega)).trans (hmove _)
      have horacle : v.oracle = s.oracle := by rw [hv]
      obtain ⟨j, u, hj, hrun, hu, hrest⟩ := ih (s := { v with waited := s.waited + 1 })
        (by rw [hv]; exact hbusy) hin (by simp only [horacle]; omega)
      refine ⟨j + 1, u, by omega, (run_succ hstep j).trans hrun, ?_, hrest⟩
      rw [hu, hv]

/-- Once the command is done, the host reads STATUS with BUSY clear and goes on behind the loop. -/
theorem waitLoop_leave_from_start {s : State} {p : Nat} (hidle : s.busy = false) (h : InWaitLoop s p)
    (hpos : s.host.pos = p) :
    ∃ z, Host.Core.run Sys2Proof.core 2 s = .next z ∧ z.host.pos = p + 2 ∧ z = { s with host := z.host } := by
  obtain ⟨hread, hbranch, -⟩ := h
  have hfirst := (step_of_host hidle (by rw [hostOp, hpos, hread])).trans (hostExec_read_status s)
  generalize hu : hostNext (hostSet s waitVariable (statusWord s)) = u at hfirst
  have hvar : lookup u.host.vars waitVariable = some (statusWord s) := hu ▸ lookup_hostSet s _ _
  have hop : hostOp u = some (.bnz waitVariable 1#32 p) := by subst hu; simpa [hostOp, hpos] using hbranch
  have hclear : ¬ statusWord s &&& 1#32 ≠ 0#32 := by rw [statusWord_and_one, hidle]; decide
  have hsecond : step u = .next (hostNext u) := by
    rw [step_of_host (by subst hu; exact hidle) hop, hostExec_bnz 1#32 p hvar, if_neg hclear]
  refine ⟨hostNext u, (run_succ hfirst 1).trans (run_succ hsecond 0), ?_, ?_⟩
  · subst hu; simp [hpos]
  · subst hu; rfl

/-- From either place in the loop the host is behind it after at most three moves. -/
theorem waitLoop_leave {s : State} {p : Nat} (hidle : s.busy = false) (h : InWaitLoop s p) :
    ∃ j z, j ≤ 3 ∧ Host.Core.run Sys2Proof.core j s = .next z ∧ z.host.pos = p + 2 ∧ z = { s with host := z.host } := by
  obtain ⟨hread, hbranch, hpos | ⟨hpos, v, hv, hbit⟩⟩ := id h
  · obtain ⟨z, hz⟩ := waitLoop_leave_from_start hidle h hpos
    exact ⟨2, z, by omega, hz⟩
  · have hback : step s = .next (hostGoto s p) := by
      rw [step_of_host hidle (by rw [hostOp, hpos, hbranch]), hostExec_bnz 1#32 p hv, if_pos hbit]
    obtain ⟨z, hrun, hz, hframe⟩ := waitLoop_leave_from_start (s := hostGoto s p) hidle ⟨hread, hbranch, .inl rfl⟩ rfl
    exact ⟨3, z, by omega, (run_succ hback 2).trans hrun, hz, hframe⟩

/-- Settles O12: the host stays in the loop until the delay is over, and no command writes the host's state. -/
theorem waitLoopReachesTheCommand : Obligations.WaitLoopReachesTheCommand := by
  intro s p hbusy hpos hread hbranch
  obtain ⟨k, u, hk, hrun, hu, hin, hover⟩ :=
    waitLoop_until_delay (Config.engineDelay s.oracle) hbusy ⟨hread, hbranch, .inl hpos⟩ (Nat.le_add_left _ _)
  have hubusy : u.busy = true := by rw [hu]; exact hbusy
  refine ⟨k, u, hk, hrun, hu, step_eq_engineStep hubusy (.inr hover), fun t ht => ?_⟩
  obtain ⟨⟨-, -, -, -, -, -, -, hhost⟩, hidle⟩ := engineStep_keeps_operands ht
  exact waitLoop_leave hidle (by rw [InWaitLoop, hhost]; exact hin)

end Sys2Proof.Machine

/-! Proofs: what a failing command changes (spec/60_exceptions.md R224). -/

namespace Sys2Proof.Machine

theorem storeStream_of_capacityExceeded {s : State} {stream : List Byte}
    (h : (storeStream s stream).err = .capacityExceeded) :
    s.outcap.toNat < stream.length ∧ (storeStream s stream).result = 0#32 := by
  rcases storeStream_cases s stream with ⟨hlong, e⟩ | ⟨-, e⟩
  · exact ⟨hlong, congrArg State.result e⟩
  · simp [e] at h

/-- Settles O55: the table of R224 is read off the five ways a command completes. -/
theorem failedCommandsChangeOnlyTheirStatus : Obligations.FailedCommandsChangeOnlyTheirStatus := by
  intro i s t h
  obtain ⟨hsame, hbusy⟩ := exec_keeps_operands h
  refine ⟨hbusy, hsame, ?_⟩
  rcases exec_next h with ⟨-, cs, -, rfl⟩ | ⟨-, start, cs, -, rfl⟩ | ⟨hi, rfl⟩ | ⟨hi, rfl⟩ | ⟨hi, -, stream, rfl⟩
  · exact ⟨nofun, nofun, nofun⟩
  · exact ⟨nofun, nofun, nofun⟩
  · refine ⟨nofun, fun _ => ⟨rfl, rfl, ?_⟩, nofun⟩
    rcases hi with rfl | ⟨sb, rfl⟩ <;> simp
  · refine ⟨nofun, fun _ => ⟨rfl, rfl, ?_⟩, nofun⟩
    rcases hi with rfl | rfl <;> simp
  · refine ⟨?_, fun herr => ?_, fun herr => ?_⟩
    · rcases storeStream_err s stream with e | e <;> simp [e]
    · rcases storeStream_err s stream with e | e <;> simp [e] at herr
    · obtain ⟨hlong, hresult⟩ := storeStream_of_capacityExceeded herr
      have hreach := storeStream_writesOnly s stream
      exact ⟨hi, hresult, by rw [hreach.1], hreach.2, fun j hj => outAt_storeStream_of_lt hlong hj⟩

end Sys2Proof.Machine

/-! Proofs: what host writes leave in storage (spec/20_memory.md R63 to R65, R72; spec/30_encoding.md R103). -/

namespace Sys2Proof.Machine

/-! ### Bus values and their bytes (R63, R64) -/

theorem wordToBytes_getElem? (n i : Nat) (v : Word) :
    (wordToBytes n v)[i]? = if i < n then some (v.extractLsb' (8 * i) 8) else none := by
  by_cases h : i < n <;> simp [wordToBytes, h]

/-- The low bytes of a word are its remainder (R63, R65). -/
theorem wordToBytes_succ (n : Nat) (v : Word) :
    wordToBytes (n + 1) v = v.extractLsb' 0 8 :: wordToBytes n (v >>> 8) := by
  have hshift : ∀ i, v.extractLsb' (8 * (i + 1)) 8 = (v >>> 8).extractLsb' (8 * i) 8 := fun i => by
    ext j hj
    simp only [BitVec.getElem_extractLsb', BitVec.getLsbD_ushiftRight]
    congr 1
    omega
  simp [wordToBytes, List.range_succ_eq_map, Function.comp_def, hshift]

/-- Reading back the low `n` bytes of a word gives its low `8 * n` bits, zero-extended. -/
theorem bytesToWord_wordToBytes (n : Nat) (v : Word) :
    bytesToWord (wordToBytes n v) = v &&& BitVec.ofNat 32 (2 ^ (8 * n) - 1) := by
  induction n generalizing v with
  | zero => simp [wordToBytes, bytesToWord]
  | succ n ih =>
    rw [wordToBytes_succ, bytesToWord, ih]
    refine BitVec.eq_of_getLsbD_eq fun i hi => ?_
    simp only [BitVec.getLsbD_or, BitVec.getLsbD_and, BitVec.getLsbD_setWidth, BitVec.getLsbD_extractLsb',
      BitVec.getLsbD_shiftLeft, BitVec.getLsbD_ushiftRight, BitVec.getLsbD_ofNat, Nat.testBit_two_pow_sub_one]
    by_cases hlow : i < 8
    · have hmask : i < 8 * (n + 1) := by omega
      simp [hi, hlow, hmask]
    · have hback : 8 + (i - 8) = i := by omega
      have hmask : i - 8 < 8 * n ↔ i < 8 * (n + 1) := by omega
      have hin : i - 8 < 32 := by omega
      simp [hi, hlow, hback, hmask, hin]

/-! ### A write read back (R63 to R65) -/

/-- Settles O24: the run just written is listed whole, so it is read, and its bytes are the value's own. -/
theorem storageReadsBackWhatWasWritten : Obligations.StorageReadsBackWhatWasWritten := by
  intro s t w a v hwf hlow h
  obtain ⟨hidle, hal, ⟨-, hwin, -⟩ | ⟨-, hin, rfl⟩⟩ := hostWrite_ok h
  · omega
  have hbyte : ∀ i < byteCount w, lookup (writeRun s.mem a.toNat (wordToBytes (byteCount w) v)) (a.toNat + i) =
      some (v.extractLsb' (8 * i) 8) := fun i hi => by
    have hrun : a.toNat ≤ a.toNat + i ∧ a.toNat + i < a.toNat + (wordToBytes (byteCount w) v).length := by
      rw [wordToBytes_length]
      omega
    rw [lookup_writeRun, if_pos hrun, Nat.add_sub_cancel_left, wordToBytes_getElem?, if_pos hi]
  refine ⟨?_, hbyte, fun x hx => ?_, rfl⟩
  · have hrun : readRun (writeRun s.mem a.toNat (wordToBytes (byteCount w) v)) a.toNat (byteCount w) =
        some (wordToBytes (byteCount w) v) :=
      (readRun_eq_some (wf_writeRun hwf _ _) _ _ _).mpr ⟨wordToBytes_length _ _, fun i hi => by
        rw [hbyte i hi, wordToBytes_getElem?, if_pos hi]⟩
    refine (hostRead_storage (s := { s with mem := writeRun s.mem a.toNat (wordToBytes (byteCount w) v) })
      hidle hal hin hrun).trans (congrArg Except.ok ?_)
    rw [bytesToWord_wordToBytes]
    cases w <;> rfl
  · have hout : ¬ (a.toNat ≤ x ∧ x < a.toNat + byteCount w) := by omega
    simp [lookup_writeRun, hout]

/-! ### A write repeated (R72) -/

/-- A register but CMD holds the same after the same write again. -/
theorem writeRegister_writeRegister {s : State} {off : Nat} (v : Word) (hcmd : off ≠ 0x000) :
    writeRegister (writeRegister s off v) off v = writeRegister s off v := by
  rcases writeRegister_cases s off v with ⟨rfl, -⟩ | ⟨rfl, -⟩ | ⟨rfl, -⟩ | ⟨rfl, -⟩ | ⟨q, hq, e⟩ | ⟨-, -, -, -, -, e⟩
  · exact absurd rfl hcmd
  · rfl
  · rfl
  · rfl
  · rw [e, writeRegister_of_qshiftIndex v hq]
    simp
  · rw [e, e]

theorem writeRegister_busy {s : State} {off : Nat} (v : Word) (hcmd : off ≠ 0x000) :
    (writeRegister s off v).busy = s.busy := by
  rcases writeRegister_cases s off v with ⟨rfl, -⟩ | ⟨-, e⟩ | ⟨-, e⟩ | ⟨-, e⟩ | ⟨q, -, e⟩ | ⟨-, -, -, -, -, e⟩
  · exact absurd rfl hcmd
  all_goals rw [e]

/-- Settles O25: the write is permitted again, to a register that holds the value or to a run already written. -/
theorem repeatedWritesAreIdempotent : Obligations.RepeatedWritesAreIdempotent := by
  intro s t w a v hcmd h
  obtain ⟨hidle, hal, ⟨rfl, hwin, rfl⟩ | ⟨-, hin, rfl⟩⟩ := hostWrite_ok h
  · have hoff : a.toNat ≠ 0x000 := fun h0 => hcmd (BitVec.eq_of_toNat_eq h0)
    rw [hostWrite_register v ((writeRegister_busy v hoff).trans hidle) hwin hal, writeRegister_writeRegister v hoff]
  · refine (hostWrite_storage (s := { s with mem := writeRun s.mem a.toNat (wordToBytes (byteCount w) v) })
      hidle hal hin v).trans (congrArg Except.ok ?_)
    simp only [writeRun_writeRun]

/-! ### Runs written one after another (R103) -/

theorem writeRun_nil {β : Type} {m : List (Nat × β)} (h : Memory.wf m) (a : Nat) : writeRun m a [] = m :=
  wf_ext (wf_writeRun h a []) h fun x => by
    simp [lookup_writeRun]

/-- Two adjacent runs are one run. -/
theorem writeRun_adjacent {β : Type} {m : List (Nat × β)} (h : Memory.wf m) (a : Nat) (vs ws : List β) :
    writeRun (writeRun m a vs) (a + vs.length) ws = writeRun m a (vs ++ ws) := by
  refine wf_ext (wf_writeRun (wf_writeRun h _ _) _ _) (wf_writeRun h _ _) fun x => ?_
  simp only [lookup_writeRun, List.length_append, List.getElem?_append]
  by_cases h1 : a ≤ x
  · by_cases h2 : x < a + vs.length
    · have h3 : ¬ a + vs.length ≤ x := by omega
      have h4 : x < a + (vs.length + ws.length) := by omega
      have h5 : x - a < vs.length := by omega
      simp [h1, h2, h3, h4, h5]
    · have h3 : a + vs.length ≤ x := by omega
      have h4 : x < a + vs.length + ws.length ↔ x < a + (vs.length + ws.length) := by omega
      have h5 : ¬ x - a < vs.length := by omega
      have h6 : x - (a + vs.length) = x - a - vs.length := by omega
      simp [h1, h2, h3, h4, h5, h6]
  · have h3 : ¬ a + vs.length ≤ x := by omega
    simp [h1, h3]

theorem performWrites_append (s : State) (ops rest : List HostOp) :
    performWrites s (ops ++ rest) = (performWrites s ops).bind fun t => performWrites t rest := by
  induction ops generalizing s with
  | nil => rfl
  | cons op ops ih =>
    cases op with
    | write w a v =>
      simp only [List.cons_append, performWrites]
      cases hostWrite s w a v with
      | error f => rfl
      | ok t => exact ih t
    | _ => exact ih s

/-- Writes of one width that go upward from `a` without a gap, each of the same bytes `V`, fill one run with `V`. -/
theorem performWrites_fill {s : State} {w : Width} {x : Word} {v : Byte} {a : Nat} (k : Nat) {addr : Nat → Address}
    (hidle : s.busy = false) (hwf : Memory.wf s.mem)
    (hbytes : wordToBytes (byteCount w) x = List.replicate (byteCount w) v)
    (haddr : ∀ m < k, (addr m).toNat = a + byteCount w * m) (hal : a % byteCount w = 0)
    (hin : ∀ i < byteCount w * k, inStorage s.params.outBytes (a + i) = true) :
    performWrites s ((List.range k).map fun m => .write w (addr m) x) =
      .ok { s with mem := writeRun s.mem a (List.replicate (byteCount w * k) v) } := by
  induction k with
  | zero => simp [performWrites, writeRun_nil hwf]
  | succ k ih =>
    rw [List.range_succ, List.map_append, performWrites_append,
      ih (fun m hm => haddr m (by omega)) fun i hi => hin i (by rw [Nat.mul_succ]; omega)]
    have hk := haddr k (Nat.lt_succ_self k)
    have hfirst : (addr k).toNat % byteCount w = 0 := by rw [hk, Nat.add_mul_mod_self_left, hal]
    have hmem : ∀ i < byteCount w, inStorage s.params.outBytes ((addr k).toNat + i) = true := fun i hi => by
      rw [hk, Nat.add_assoc]
      exact hin _ (by rw [Nat.mul_succ]; omega)
    have hjoin := writeRun_adjacent hwf a (List.replicate (byteCount w * k) v) (List.replicate (byteCount w) v)
    rw [List.length_replicate, List.replicate_append_replicate] at hjoin
    have hwrite := hostWrite_storage (s := { s with mem := writeRun s.mem a (List.replicate (byteCount w * k) v) })
      hidle hfirst hmem x
    rw [hbytes, hk, hjoin] at hwrite
    simp [Except.bind, performWrites, hwrite, Nat.mul_succ]

theorem wordToBytes_setWidth (v : Byte) : wordToBytes 1 (v.setWidth 32) = [v] := by
  have hbyte : (v.setWidth 32).extractLsb' 0 8 = v := by
    apply BitVec.eq_of_toNat_eq
    simp only [BitVec.extractLsb'_toNat, BitVec.toNat_setWidth, Nat.shiftRight_zero]
    omega
  rw [wordToBytes, List.range_one, List.map_singleton, hbyte]

/-- The word of four equal bytes (R103). -/
theorem wordToBytes_fill (v : Byte) : wordToBytes 4 (v.setWidth 32 * 0x01010101#32) = List.replicate 4 v := by
  have hlt : v.toNat < 256 := v.isLt
  have hword : (v.setWidth 32 * 0x01010101#32).toNat = v.toNat * 0x01010101 := by
    rw [BitVec.toNat_mul, BitVec.toNat_setWidth, BitVec.toNat_ofNat]
    omega
  have hbyte : ∀ i < 4, (v.setWidth 32 * 0x01010101#32).extractLsb' (8 * i) 8 = v := fun i hi => by
    apply BitVec.eq_of_toNat_eq
    rw [BitVec.extractLsb'_toNat, hword, Nat.shiftRight_eq_div_pow]
    have h1 : v.toNat * 0x01010101 / 2 ^ 8 = v.toNat * 0x010101 := by omega
    have h2 : v.toNat * 0x01010101 / 2 ^ 16 = v.toNat * 0x0101 := by omega
    have h3 : v.toNat * 0x01010101 / 2 ^ 24 = v.toNat := by omega
    interval_cases i <;> simp only [Nat.reduceMul, h1, h2, h3] <;> omega
  refine List.ext_getElem? fun i => ?_
  rw [wordToBytes_getElem?, List.getElem?_replicate]
  split
  · next hi => rw [hbyte i hi]
  · rfl

/-- Settles O26: words or bytes, the writes fill one and the same run. -/
theorem fillExpansionsAgree : Obligations.FillExpansionsAgree := by
  intro s a n v hidle hwf hal hn hin hend
  have hoffset : ∀ i < n, (a + BitVec.ofNat 17 i).toNat = a.toNat + i := fun i hi => by
    rw [BitVec.toNat_add, BitVec.toNat_ofNat]
    omega
  have hwords : performWrites s (fillWords a n v) =
      .ok { s with mem := writeRun s.mem a.toNat (List.replicate n v) } := by
    have hlen : 4 * (n / 4) = n := by omega
    have hfill := performWrites_fill (w := .w32) (a := a.toNat) (n / 4) hidle hwf (wordToBytes_fill v)
      (fun m hm => hoffset (4 * m) (by omega)) hal (by simpa [byteCount, hlen] using hin)
    rwa [byteCount, hlen] at hfill
  have hbytes : performWrites s (fillBytes a n v) =
      .ok { s with mem := writeRun s.mem a.toNat (List.replicate n v) } := by
    have hfill := performWrites_fill (w := .w8) (a := a.toNat) n hidle hwf (wordToBytes_setWidth v)
      (fun m hm => by rw [byteCount, Nat.one_mul]; exact hoffset m hm) (Nat.mod_one _) (by simpa [byteCount] using hin)
    rwa [byteCount, Nat.one_mul] at hfill
  refine ⟨_, hwords, hbytes, fun i hi => ?_, fun x hx => ?_⟩
  · simp [lookup_writeRun, hi]
  · have hout : ¬ (a.toNat ≤ x ∧ x < a.toNat + n) := by omega
    simp [lookup_writeRun, hout]

end Sys2Proof.Machine

/-! Proofs: the 1D transforms of the two DWT variants agree, and what they make of constant samples (spec/40_dwt.md
R122 to R127). -/

namespace Sys2Proof.Machine

/-! ### Halving (R8, R122) -/

/-- A shift by one halves, rounding down, whether the count is a natural number or an integer. -/
theorem shiftRight_one (v : Int) : v >>> (1 : Nat) = v / 2 ∧ v >>> (1 : Int) = v / 2 := by
  have hnat : v >>> (1 : Nat) = v / 2 := Int.shiftRight_eq_div_pow v 1
  exact ⟨hnat, (Int.shiftRight_natCast_right v 1).trans hnat⟩

theorem highPass_eq (x : Nat → Int) (n : Nat) :
    highPass x n = (x (2 * n + 1) - (x (2 * n) + x (2 * n + 2)) / 2) / 2 := by
  simp only [highPass, shiftRight_one]

theorem lowPass_zero (x h : Nat → Int) : lowPass x h 0 = x 0 + h 0 := rfl

theorem lowPass_of_ne_zero (x h : Nat → Int) {n : Nat} (hn : n ≠ 0) :
    lowPass x h n = x (2 * n) + (h (n - 1) + h n) / 2 := by
  simp only [lowPass, hn, if_false, shiftRight_one]

/-! ### The extension of the standard variant (R123) -/

section
variable {xs : List Int}

theorem stdExtension_getD_of_lt {i : Nat} (h : i < xs.length) : (stdExtension xs).getD i 0 = xs.getD i 0 := by
  by_cases hpar : xs.length % 2 = 0
  · simp [stdExtension, hpar, List.getElem?_append, h]
  · simp [stdExtension, hpar, List.getElem?_append, h]

/-- Odd lengths: two mirrored samples. -/
theorem stdExtension_getD_of_odd {m : Nat} (h : xs.length = 2 * m + 1) :
    (stdExtension xs).getD (2 * m + 1) 0 = xs.getD (2 * m - 1) 0 ∧
      (stdExtension xs).getD (2 * m + 2) 0 = xs.getD (2 * m - 2) 0 := by
  simp [stdExtension, h]

/-- Even lengths: one extrapolated sample, then two mirrored ones. -/
theorem stdExtension_getD_of_even {m : Nat} (h : xs.length = 2 * m) (hm : 1 ≤ m) :
    (stdExtension xs).getD (2 * m) 0 = 2 * xs.getD (2 * m - 1) 0 - xs.getD (2 * m - 2) 0 ∧
      (stdExtension xs).getD (2 * m + 1) 0 = xs.getD (2 * m - 1) 0 ∧
      (stdExtension xs).getD (2 * m + 2) 0 = xs.getD (2 * m - 2) 0 := by
  have h1 : 2 * m - 1 < 2 * m := by omega
  have h2 : 2 * m - 2 < 2 * m := by omega
  refine ⟨?_, ?_, ?_⟩ <;> simp [stdExtension, h, h1, h2]

end

/-! ### Both variants store the same (R126) -/

/-- A high-pass value depends on three neighbouring samples only. -/
theorem highPass_congr {x y : Nat → Int} {n : Nat} (h : ∀ i, 2 * n ≤ i → i ≤ 2 * n + 2 → x i = y i) :
    highPass x n = highPass y n := by
  rw [highPass_eq, highPass_eq, h (2 * n) (by omega) (by omega), h (2 * n + 1) (by omega) (by omega),
    h (2 * n + 2) (by omega) (by omega)]

/-- A low-pass value, its high-pass values computed from the same samples, depends on the samples up to its right
neighbours. -/
theorem lowPass_congr {x y : Nat → Int} {n : Nat} (h : ∀ i ≤ 2 * n + 2, x i = y i) :
    lowPass x (highPass x) n = lowPass y (highPass y) n := by
  have hcur : highPass x n = highPass y n := highPass_congr fun i _ hi => h i hi
  have hprev : n ≠ 0 → highPass x (n - 1) = highPass y (n - 1) := fun h0 => highPass_congr fun i _ hi => h i (by omega)
  by_cases h0 : n = 0
  · subst h0
    rw [lowPass_zero, lowPass_zero, hcur, h 0 (by omega)]
  · rw [lowPass_of_ne_zero _ _ h0, lowPass_of_ne_zero _ _ h0, hcur, hprev h0, h (2 * n) (by omega)]

/-- The samples of one 1D pass as exact integers (R127). -/
def sampleAt (xs : List HalfWord) (i : Nat) : Int := (xs.map BitVec.toInt).getD i 0

/-- The materialised samples of R123. -/
def extendedAt (xs : List HalfWord) (i : Nat) : Int := (stdExtension (xs.map BitVec.toInt)).getD i 0

theorem extendedAt_of_lt {xs : List HalfWord} {i : Nat} (h : i < xs.length) : extendedAt xs i = sampleAt xs i :=
  stdExtension_getD_of_lt (by rwa [List.length_map])

section
variable {xs : List HalfWord} {m : Nat}

/-- Odd lengths: the last high-pass value of the extension repeats the one before it. -/
theorem highPass_extendedAt_of_odd (h : xs.length = 2 * m + 1) (hm : 1 ≤ m) :
    highPass (extendedAt xs) m = highPass (sampleAt xs) (m - 1) := by
  obtain ⟨h1, h2⟩ := stdExtension_getD_of_odd (xs := xs.map BitVec.toInt) (by rwa [List.length_map])
  have e0 : extendedAt xs (2 * m) = sampleAt xs (2 * m) := extendedAt_of_lt (by omega)
  have i0 : 2 * (m - 1) = 2 * m - 2 := by omega
  have i1 : 2 * (m - 1) + 1 = 2 * m - 1 := by omega
  have i2 : 2 * (m - 1) + 2 = 2 * m := by omega
  rw [highPass_eq, highPass_eq, e0, extendedAt, extendedAt, h1, h2, i1, i2, i0, Int.add_comm]
  rfl

/-- Even lengths: the high-pass values over the extrapolated sample are 0. -/
theorem highPass_extendedAt_of_even (h : xs.length = 2 * m) (hm : 1 ≤ m) :
    highPass (extendedAt xs) (m - 1) = 0 ∧ highPass (extendedAt xs) m = 0 := by
  obtain ⟨h0, h1, h2⟩ := stdExtension_getD_of_even (xs := xs.map BitVec.toInt) (by rwa [List.length_map]) hm
  have e1 : extendedAt xs (2 * m - 1) = sampleAt xs (2 * m - 1) := extendedAt_of_lt (by omega)
  have e2 : extendedAt xs (2 * m - 2) = sampleAt xs (2 * m - 2) := extendedAt_of_lt (by omega)
  have i0 : 2 * (m - 1) = 2 * m - 2 := by omega
  have i1 : 2 * (m - 1) + 1 = 2 * m - 1 := by omega
  have i2 : 2 * (m - 1) + 2 = 2 * m := by omega
  constructor
  · rw [highPass_eq, i1, i2, i0, e1, e2, extendedAt, h0]
    simp only [sampleAt]
    omega
  · rw [highPass_eq, extendedAt, extendedAt, extendedAt, h0, h1, h2]
    omega

end

section
variable {xs : List HalfWord} {m : Nat}

theorem tStd_of_odd (h : xs.length = 2 * m + 1) :
    tStd xs = ((List.range (m + 1)).map fun i => wrap16 (lowPass (extendedAt xs) (highPass (extendedAt xs)) i),
      (List.range m).map fun i => wrap16 (highPass (extendedAt xs) i)) := by
  have hlen : (stdExtension (xs.map BitVec.toInt)).length = 2 * m + 3 := by simp [stdExtension_length, h]
  have hodd : ¬ (2 * m + 1) % 2 = 0 := by omega
  have hhalf : (2 * m + 3 - 3) / 2 = m := by omega
  simp only [tStd, hlen, h, hodd, hhalf, if_false]
  rfl

theorem tStd_of_even (h : xs.length = 2 * m) :
    tStd xs = ((List.range (m + 1)).map fun i => wrap16 (lowPass (extendedAt xs) (highPass (extendedAt xs)) i),
      (List.range (m - 1)).map fun i => wrap16 (highPass (extendedAt xs) i)) := by
  have hlen : (stdExtension (xs.map BitVec.toInt)).length = 2 * m + 3 := by simp [stdExtension_length, h]
  have heven : 2 * m % 2 = 0 := by omega
  have hhalf : (2 * m + 3 - 3) / 2 = m := by omega
  simp only [tStd, hlen, h, heven, hhalf, if_true]
  rfl

theorem tRe_of_odd (h : xs.length = 2 * m + 1) :
    tRe xs =
      ((List.range m).map (fun i => wrap16 (lowPass (sampleAt xs) (highPass (sampleAt xs)) i)) ++
          [wrap16 (sampleAt xs (2 * m) + highPass (sampleAt xs) (m - 1))],
        (List.range m).map fun i => wrap16 (highPass (sampleAt xs) i)) := by
  have hodd : (2 * m + 1) % 2 = 1 := by omega
  have hhalf : (2 * m + 1) / 2 = m := by omega
  simp only [tRe, h, hodd, hhalf, if_true]
  rfl

theorem tRe_of_even (h : xs.length = 2 * m) :
    tRe xs =
      ((List.range (m - 1)).map (fun i => wrap16 (lowPass (sampleAt xs) (highPass (sampleAt xs)) i)) ++
          [wrap16 (sampleAt xs (2 * m - 2) + highPass (sampleAt xs) (m - 2) / 2),
            wrap16 (2 * sampleAt xs (2 * m - 1) - sampleAt xs (2 * m - 2))],
        (List.range (m - 1)).map fun i => wrap16 (highPass (sampleAt xs) i)) := by
  have heven : ¬ 2 * m % 2 = 1 := by omega
  have hhalf : 2 * m / 2 = m := by omega
  simp only [tRe, h, heven, hhalf, if_false, shiftRight_one]
  rfl

theorem tStd_eq_tRe_of_odd (h : xs.length = 2 * m + 1) (hm : 1 ≤ m) : tStd xs = tRe xs := by
  have hhigh : ∀ i < m, highPass (extendedAt xs) i = highPass (sampleAt xs) i := fun i hi =>
    highPass_congr fun j _ hj => extendedAt_of_lt (by omega)
  have hlow : ∀ i < m, lowPass (extendedAt xs) (highPass (extendedAt xs)) i =
      lowPass (sampleAt xs) (highPass (sampleAt xs)) i := fun i hi =>
    lowPass_congr fun j hj => extendedAt_of_lt (by omega)
  have hlast : lowPass (extendedAt xs) (highPass (extendedAt xs)) m =
      sampleAt xs (2 * m) + highPass (sampleAt xs) (m - 1) := by
    rw [lowPass_of_ne_zero _ _ (by omega), hhigh (m - 1) (by omega), highPass_extendedAt_of_odd h hm,
      extendedAt_of_lt (by omega)]
    omega
  rw [tStd_of_odd h, tRe_of_odd h, List.range_succ, List.map_append, List.map_singleton, hlast]
  refine Prod.ext (congrArg (· ++ _) ?_) ?_
  · exact List.map_congr_left fun i hi => by rw [hlow i (List.mem_range.mp hi)]
  · exact List.map_congr_left fun i hi => by rw [hhigh i (List.mem_range.mp hi)]

theorem tStd_eq_tRe_of_even (h : xs.length = 2 * m) (hm : 2 ≤ m) : tStd xs = tRe xs := by
  have hhigh : ∀ i < m - 1, highPass (extendedAt xs) i = highPass (sampleAt xs) i := fun i hi =>
    highPass_congr fun j _ hj => extendedAt_of_lt (by omega)
  have hlow : ∀ i < m - 1, lowPass (extendedAt xs) (highPass (extendedAt xs)) i =
      lowPass (sampleAt xs) (highPass (sampleAt xs)) i := fun i hi =>
    lowPass_congr fun j hj => extendedAt_of_lt (by omega)
  obtain ⟨hzero, hzero'⟩ := highPass_extendedAt_of_even h (by omega)
  have hprev : lowPass (extendedAt xs) (highPass (extendedAt xs)) (m - 1) =
      sampleAt xs (2 * m - 2) + highPass (sampleAt xs) (m - 2) / 2 := by
    have e : 2 * (m - 1) = 2 * m - 2 := by omega
    rw [lowPass_of_ne_zero _ _ (by omega), hzero, e, extendedAt_of_lt (by omega), Nat.sub_sub,
      hhigh (m - (1 + 1)) (by omega), Int.add_zero]
  have hlast : lowPass (extendedAt xs) (highPass (extendedAt xs)) m =
      2 * sampleAt xs (2 * m - 1) - sampleAt xs (2 * m - 2) := by
    obtain ⟨hext, -⟩ := stdExtension_getD_of_even (xs := xs.map BitVec.toInt) (by rwa [List.length_map]) (by omega)
    rw [lowPass_of_ne_zero _ _ (by omega), hzero, hzero', extendedAt, hext]
    exact Int.add_zero _
  have hrange : List.range (m + 1) = List.range (m - 1) ++ [m - 1, m] := by
    obtain ⟨k, rfl⟩ := Nat.exists_eq_add_of_le' hm
    simp [List.range_succ]
  rw [tStd_of_even h, tRe_of_even h, hrange, List.map_append, List.map_cons, List.map_singleton, hprev, hlast]
  refine Prod.ext (congrArg (· ++ _) ?_) ?_
  · exact List.map_congr_left fun i hi => by rw [hlow i (List.mem_range.mp hi)]
  · exact List.map_congr_left fun i hi => by rw [hhigh i (List.mem_range.mp hi)]

end

/-- R126 for every length from 3 on. -/
theorem tStd_eq_tRe {xs : List HalfWord} (h : 3 ≤ xs.length) : tStd xs = tRe xs := by
  rcases Nat.even_or_odd' xs.length with ⟨m, hm | hm⟩
  · exact tStd_eq_tRe_of_even hm (by omega)
  · exact tStd_eq_tRe_of_odd hm (by omega)

/-- Settles O27. -/
theorem transformVariantsAgree : Obligations.TransformVariantsAgree := fun _ h => tStd_eq_tRe (by omega)

/-- Settles O30: the mean of two samples is a sample's size, and half the difference of two such fits again. -/
theorem highPassFitsItsCell : Obligations.HighPassFitsItsCell := by
  intro x n
  obtain ⟨hlow0, hhigh0⟩ := toInt_mem_int16 (x (2 * n))
  obtain ⟨hlow1, hhigh1⟩ := toInt_mem_int16 (x (2 * n + 1))
  obtain ⟨hlow2, hhigh2⟩ := toInt_mem_int16 (x (2 * n + 2))
  rw [highPass_eq]
  exact toInt_wrap16_of_int16 (by omega) (by omega)

end Sys2Proof.Machine

/-! Proofs: the subbands' places in COEF, and the commands DWT.STD and DWT.RE (spec/40_dwt.md R128 to R137). -/

namespace Sys2Proof.Machine

/-! ### The layout of COEF (R130, R131) -/

theorem bandContaining_spec {i : Nat} (h : i < 4096) :
    bandOffset (bandContaining i) ≤ i ∧ i < bandOffset (bandContaining i) + bandSize (bandContaining i) := by
  unfold bandContaining
  split_ifs <;> simp only [bandOffset, bandSize, bandWidth, bandHeight] <;> omega

/-- The regions of two subbands do not overlap. -/
theorem eq_of_bands_overlap {b b' : Subband} : bandOffset b < bandOffset b' + bandSize b' →
    bandOffset b' < bandOffset b + bandSize b → b = b' := by
  cases b <;> cases b' <;> decide

theorem bandContaining_of_band {b : Subband} {k : Nat} (h : k < bandSize b) :
    bandContaining (bandOffset b + k) = b := by
  have hin := band_in_coef b
  obtain ⟨hlow, hhigh⟩ := bandContaining_spec (i := bandOffset b + k) (by omega)
  exact eq_of_bands_overlap (by omega) (by omega)

/-- Settles O7: the table is evaluated, and every index lies between its slot's ends. -/
theorem subbandsPartitionTheCoefficientBuffer : Obligations.SubbandsPartitionTheCoefficientBuffer := by
  refine ⟨by decide, fun b k hk => ⟨?_, bandContaining_of_band hk⟩, fun i => bandContaining_spec⟩
  have := band_in_coef b
  omega

/-! ### Rows laid end to end (R130) -/

/-- Element (r, c) of a grid stands at `r * w + c` of its rows laid end to end. -/
theorem IsGrid.flatten_getElem? {rows : List (List HalfWord)} {h w r c : Nat} (hg : IsGrid rows h w) (hr : r < h)
    (hc : c < w) : rows.flatten[r * w + c]? = rows[r]?.bind fun row => row[c]? := by
  obtain ⟨rfl, hw⟩ := hg
  induction rows generalizing r with
  | nil => simp at hr
  | cons row rest ih =>
    have hlen : row.length = w := hw row (by simp)
    cases r with
    | zero => simp [List.getElem?_append, hlen, hc]
    | succ r =>
      have hpast : row.length ≤ (r + 1) * w + c := by rw [hlen, Nat.succ_mul]; omega
      have hback : (r + 1) * w + c - row.length = r * w + c := by rw [hlen, Nat.succ_mul]; omega
      rw [List.flatten_cons, List.getElem?_append_right hpast, hback,
        ih (fun x hx => hw x (by simp [hx])) (by simpa using hr), List.getElem?_cons_succ]

/-- A grid has an element at every place. -/
theorem IsGrid.getElem?_isSome {rows : List (List HalfWord)} {h w r c : Nat} (hg : IsGrid rows h w) (hr : r < h)
    (hc : c < w) : ∃ v, (rows[r]?.bind fun row => row[c]?) = some v := by
  obtain ⟨rfl, hw⟩ := hg
  have hlen := hw rows[r] (List.getElem_mem hr)
  refine ⟨rows[r][c], ?_⟩
  simp [hr, hlen, hc]

/-- A segment of a list that starts behind `front`. -/
theorem getElem?_segment {α : Type} {front seg back : List α} {n i : Nat} (hn : front.length = n)
    (hi : i < seg.length) :
    (front ++ seg ++ back)[n + i]? = seg[i]? := by
  subst hn
  rw [List.append_assoc, List.getElem?_append_right (Nat.le_add_right _ _), Nat.add_sub_cancel_left,
    List.getElem?_append_left hi]

/-- The rows of a subband after the three levels (R129, R130). -/
def bandRows (t : Variant) (scale : Nat) (pix : List Byte) (b : Subband) : List (List HalfWord) :=
  let b1 := dwtLevel t 64 (levelOneInput scale pix)
  let b2 := dwtLevel t 33 b1.ll
  let b3 := dwtLevel t 17 b2.ll
  match b with
  | .hl1 => b1.hl | .lh1 => b1.lh | .hh1 => b1.hh
  | .hl2 => b2.hl | .lh2 => b2.lh | .hh2 => b2.hh
  | .hl3 => b3.hl | .lh3 => b3.lh | .hh3 => b3.hh | .ll3 => b3.ll

/-- Every subband has the height and width of R130's table. -/
theorem bandRows_grid (t : Variant) (scale : Nat) (pix : List Byte) (b : Subband) :
    IsGrid (bandRows t scale pix b) (bandHeight b) (bandWidth b) := by
  obtain ⟨-, hhl1, hlh1, hhh1⟩ := dwtLevel_grids t 64 (levelOneInput scale pix) (by omega)
  obtain ⟨-, hhl2, hlh2, hhh2⟩ := dwtLevel_grids t 33 (dwtLevel t 64 (levelOneInput scale pix)).ll (by omega)
  obtain ⟨hll3, hhl3, hlh3, hhh3⟩ :=
    dwtLevel_grids t 17 (dwtLevel t 33 (dwtLevel t 64 (levelOneInput scale pix)).ll).ll (by omega)
  cases b
  exacts [hll3, hlh3, hhl3, hhh3, hlh2, hhl2, hhh2, hlh1, hhl1, hhh1]

/-- The subbands in slot order (R130). -/
def slotOrder : List Subband := [.hl1, .lh1, .hh1, .hl2, .lh2, .hh2, .hl3, .lh3, .hh3, .ll3]

theorem dwtCoefs_eq_flatMap (t : Variant) (scale : Nat) (pix : List Byte) :
    dwtCoefs t scale pix = slotOrder.flatMap fun b => (bandRows t scale pix b).flatten := by
  simp only [slotOrder, List.flatMap_cons, List.flatMap_nil, List.append_nil, ← List.append_assoc]
  rfl

/-- A subband's offset is the number of elements of the slots before its own. -/
theorem slotOrder_split (b : Subband) : ∃ front back, slotOrder = front ++ b :: back ∧
    (front.map bandSize).sum = bandOffset b := by
  refine ⟨slotOrder.takeWhile (· ≠ b), (slotOrder.dropWhile (· ≠ b)).tail, ?_⟩
  cases b <;> decide

theorem dwtCoefs_getElem? (t : Variant) (scale : Nat) (pix : List Byte) {b : Subband} {k : Nat} (hk : k < bandSize b) :
    (dwtCoefs t scale pix)[bandOffset b + k]? = (bandRows t scale pix b).flatten[k]? := by
  have hsize : ∀ b, (bandRows t scale pix b).flatten.length = bandSize b := fun b => by
    rw [(bandRows_grid t scale pix b).flatten_length, bandSize, Nat.mul_comm]
  obtain ⟨front, back, hsplit, hoffset⟩ := slotOrder_split b
  have hfront : (front.flatMap fun b => (bandRows t scale pix b).flatten).length = bandOffset b := by
    rw [List.length_flatMap, ← hoffset]
    exact congrArg List.sum (List.map_congr_left fun b _ => hsize b)
  rw [dwtCoefs_eq_flatMap, hsplit, List.flatMap_append, List.flatMap_cons, ← List.append_assoc,
    getElem?_segment hfront (by rwa [hsize])]

/-- Settles O8: the element's place in its subband's rows, and the subband's place in slot order. -/
theorem dwtPlacesEverySubbandAtItsOffset : Obligations.DwtPlacesEverySubbandAtItsOffset := by
  intro t scale pix b r c hr hc b1 b2 b3 rows
  have hgrid : IsGrid rows (bandHeight b) (bandWidth b) := bandRows_grid t scale pix b
  obtain ⟨v, hv⟩ := hgrid.getElem?_isSome hr hc
  have hk : r * bandWidth b + c < bandSize b := by
    have hrow : (r + 1) * bandWidth b ≤ bandHeight b * bandWidth b := Nat.mul_le_mul_right _ hr
    rw [Nat.succ_mul] at hrow
    rw [bandSize, Nat.mul_comm (bandWidth b)]
    omega
  refine ⟨v, hv, ?_⟩
  rw [Nat.add_assoc, dwtCoefs_getElem? t scale pix hk, ← hv]
  exact hgrid.flatten_getElem? hr hc

/-! ### Both variants leave the same coefficients (R134) -/

theorem transform_std_eq_re {xs : List HalfWord} (h : 3 ≤ xs.length) : transform .std xs = transform .re xs :=
  tStd_eq_tRe h

theorem dwtLevel_std_eq_re {n : Nat} {a : List (List HalfWord)} (hn : 3 ≤ n) (ha : a.length = n) :
    dwtLevel .std n a = dwtLevel .re n a := by
  have hvert : verticalPass .std n a = verticalPass .re n a := by
    refine congrArg (columns n) (List.map_congr_left fun x hx => ?_)
    have hx := (columns_grid n a).2 x hx
    rw [transform_std_eq_re (by omega)]
  have hhor : (verticalPass .re n a).map (transform .std) = (verticalPass .re n a).map (transform .re) :=
    List.map_congr_left fun x hx => transform_std_eq_re (by rw [(verticalPass_grid .re n a).2 x hx]; exact hn)
  rw [dwtLevel, dwtLevel, hvert, horizontalPass, horizontalPass, hhor]

theorem dwtCoefs_std_eq_re (scale : Nat) (pix : List Byte) : dwtCoefs .std scale pix = dwtCoefs .re scale pix := by
  have h1 : dwtLevel .std 64 (levelOneInput scale pix) = dwtLevel .re 64 (levelOneInput scale pix) :=
    dwtLevel_std_eq_re (by omega) (by simp [levelOneInput])
  obtain ⟨⟨hll1, -⟩, -⟩ := dwtLevel_grids .re 64 (levelOneInput scale pix) (by omega)
  have h2 := dwtLevel_std_eq_re (n := 33) (by omega) hll1
  obtain ⟨⟨hll2, -⟩, -⟩ := dwtLevel_grids .re 33 (dwtLevel .re 64 (levelOneInput scale pix)).ll (by omega)
  have h3 := dwtLevel_std_eq_re (n := 17) (by omega) hll2
  simp only [dwtCoefs, h1, h2, h3]

/-! ### What a DWT command leaves (R133, R137) -/

theorem runDwt_of_pix (t : Variant) {s : State} {pix : List Byte} (h : readPix s = some pix) :
    runDwt t s = .next (complete (scrambleScratch (writeCoefs s 0 (dwtCoefs t s.params.dwtScale pix))) .ok) := by
  rcases runDwt_cases t s with ⟨hnone, -⟩ | ⟨pix', hpix, e⟩
  · cases h.symm.trans hnone
  · obtain rfl := Option.some.inj (h.symm.trans hpix)
    exact e

/-- A DWT command that completes read all of PIX. -/
theorem runDwt_next {v : Variant} {s t : State} (h : runDwt v s = .next t) : ∃ pix, readPix s = some pix ∧
    t = complete (scrambleScratch (writeCoefs s 0 (dwtCoefs v s.params.dwtScale pix))) .ok := by
  rcases runDwt_cases v s with ⟨-, e⟩ | ⟨pix, hpix, e⟩
  · simp [e] at h
  · exact ⟨pix, hpix, (Host.Outcome.next.inj (e.symm.trans h)).symm⟩

/-- All of COEF after all of it is written. -/
theorem coefAt_writeCoefs_all (s : State) {cs : List HalfWord} (hcs : cs.length = 4096) {i : Nat} (hi : i < 4096) :
    coefAt (writeCoefs s 0 cs) i = cs[i]? := by
  rw [coefAt_writeCoefs, if_pos (by omega), Nat.sub_zero]

theorem exec_dwt_eq {i : Instr} (h : i = .dwtStd ∨ i = .dwtRe) : ∃ v, ∀ s, exec i s = runDwt v s := by
  rcases h with rfl | rfl
  · exact ⟨.std, fun _ => rfl⟩
  · exact ⟨.re, fun _ => rfl⟩

/-- Settles O28: the commands read the same pixels, and the two variants store the same values. -/
theorem dwtCommandsLeaveTheSameCoefficients : Obligations.DwtCommandsLeaveTheSameCoefficients := by
  intro s t
  constructor
  · intro h
    obtain ⟨pix, hpix, rfl⟩ := runDwt_next h
    refine ⟨_, runDwt_of_pix .re hpix, ?_⟩
    simp [dwtCoefs_std_eq_re]
  · intro h
    obtain ⟨pix, hpix, rfl⟩ := runDwt_next h
    refine ⟨_, runDwt_of_pix .std hpix, ?_⟩
    simp [dwtCoefs_std_eq_re]

theorem runDwt_writes {v : Variant} {s : State} {pix : List Byte} (hpix : readPix s = some pix) :
    ∃ t, runDwt v s = .next t ∧ (∀ i < 4096, coefAt t i = (dwtCoefs v s.params.dwtScale pix)[i]?) ∧
      (∀ i < 4096, (coefAt t i).isSome) ∧ t.err = .ok ∧ t.busy = false ∧ t.result = s.result := by
  have hlen := dwtCoefs_length v s.params.dwtScale pix
  have hcoef := fun (i : Nat) (hi : i < 4096) => coefAt_writeCoefs_all s hlen hi
  refine ⟨_, runDwt_of_pix v hpix, hcoef, fun i hi => ?_, rfl, rfl, rfl⟩
  refine (congrArg Option.isSome (hcoef i hi)).trans ?_
  simp [hlen, hi]

/-- Settles O31. -/
theorem dwtCommandsWriteTheTransform : Obligations.DwtCommandsWriteTheTransform := by
  intro s pix hwf hlen hpix
  have hread : readPix s = some pix := (readPix_eq_some hwf pix).mpr ⟨hlen, hpix⟩
  exact ⟨runDwt_writes hread, runDwt_writes hread⟩

/-- Settles O32: the run written is the window of COEF. -/
theorem dwtFrame : Obligations.DwtFrame := by
  intro i s t hi h
  obtain ⟨v, hexec⟩ := exec_dwt_eq hi
  obtain ⟨pix, -, rfl⟩ := runDwt_next ((hexec s).symm.trans h)
  refine ⟨(exec_keeps_operands h).1, rfl, rfl, fun x hx => ?_⟩
  exact lookup_writeCoefs_outside s 0 _ x (by rwa [dwtCoefs_length])

/-- Settles O57: the same pixels and the same scale give the same list of coefficients. -/
theorem dwtReadsOnlyThePixels : Obligations.DwtReadsOnlyThePixels := by
  intro i s s' t hi hwf hwf' hscale hpix h
  obtain ⟨v, hexec⟩ := exec_dwt_eq hi
  rw [hexec] at h
  obtain ⟨pix, hread, rfl⟩ := runDwt_next h
  obtain ⟨hlen, hget⟩ := (readPix_eq_some hwf pix).mp hread
  have hread' : readPix s' = some pix :=
    (readPix_eq_some hwf' pix).mpr ⟨hlen, fun k hk => (hpix k hk).trans (hget k hk)⟩
  obtain ⟨u, hu, hcoef, -⟩ := runDwt_writes (v := v) hread
  obtain ⟨u', hu', hcoef', -⟩ := runDwt_writes (v := v) hread'
  obtain rfl := Host.Outcome.next.inj (hu.symm.trans h)
  refine ⟨u', (hexec s').trans hu', fun k hk => ?_⟩
  rw [hcoef k hk, hcoef' k hk, hscale]

end Sys2Proof.Machine

/-! Proofs: a constant block has only its mean (spec/40_dwt.md R133, corner case). -/

namespace Sys2Proof.Machine

/-! ### Constant samples (R122, R123) -/

theorem stdExtension_replicate (n : Nat) (a : Int) :
    stdExtension (List.replicate (n + 3) a) = List.replicate (if (n + 3) % 2 = 0 then n + 6 else n + 5) a := by
  have hextra : 2 * a - a = a := by omega
  by_cases hpar : (n + 3) % 2 = 0
  · simp [stdExtension, hpar, hextra, List.replicate_succ']
  · simp [stdExtension, hpar, List.replicate_succ']

/-- Constant samples have high-pass values 0 and give themselves as low-pass values. -/
theorem highPass_of_const {x : Nat → Int} {a : Int} {n : Nat} (h : ∀ i ≤ 2 * n + 2, x i = a) : highPass x n = 0 := by
  rw [highPass_eq, h (2 * n) (by omega), h (2 * n + 1) (by omega), h (2 * n + 2) (by omega)]
  omega

theorem lowPass_of_const {x : Nat → Int} {a : Int} {n : Nat} (h : ∀ i ≤ 2 * n + 2, x i = a) :
    lowPass x (highPass x) n = a := by
  have hcur : highPass x n = 0 := highPass_of_const h
  by_cases h0 : n = 0
  · subst h0
    rw [lowPass_zero, hcur, h 0 (by omega), Int.add_zero]
  · rw [lowPass_of_ne_zero _ _ h0, hcur, highPass_of_const (n := n - 1) fun i hi => h i (by omega),
      h (2 * n) (by omega)]
    omega

theorem map_const_on_range {α : Type} {f : Nat → α} {a : α} {k : Nat} (h : ∀ i < k, f i = a) :
    (List.range k).map f = List.replicate k a := by
  rw [List.map_congr_left fun i hi => h i (List.mem_range.mp hi), List.map_const', List.length_range]

/-- One pass over constant samples. -/
theorem transform_replicate (t : Variant) {n : Nat} (hn : 3 ≤ n) (v : HalfWord) :
    transform t (List.replicate n v) = (List.replicate (lowCount n) v, List.replicate (n - lowCount n) 0#16) := by
  obtain ⟨k, rfl⟩ := Nat.exists_eq_add_of_le' hn
  have hstd : transform t (List.replicate (k + 3) v) = tStd (List.replicate (k + 3) v) := by
    cases t with
    | std => rfl
    | re => exact (tStd_eq_tRe (by simp)).symm
  have hext : ∀ i < if (k + 3) % 2 = 0 then k + 6 else k + 5, extendedAt (List.replicate (k + 3) v) i = v.toInt :=
    fun i hi => by simp [extendedAt, stdExtension_replicate, hi]
  have hzero : wrap16 0 = 0#16 := rfl
  rw [hstd]
  rcases Nat.even_or_odd' (k + 3) with ⟨m, hm | hm⟩
  · have hpar : (k + 3) % 2 = 0 := by omega
    have hlow : lowCount (k + 3) = m + 1 := by unfold lowCount; omega
    have hhigh : k + 3 - lowCount (k + 3) = m - 1 := by omega
    rw [if_pos hpar] at hext
    rw [tStd_of_even (m := m) (by simp [hm]), hlow, ← hlow, hhigh, hlow]
    refine Prod.ext (map_const_on_range fun i hi => ?_) (map_const_on_range fun i hi => ?_)
    · rw [lowPass_of_const fun j hj => hext j (by omega), wrap16_toInt]
    · rw [highPass_of_const fun j hj => hext j (by omega), hzero]
  · have hpar : ¬ (k + 3) % 2 = 0 := by omega
    have hlow : lowCount (k + 3) = m + 1 := by unfold lowCount; omega
    have hhigh : k + 3 - lowCount (k + 3) = m := by omega
    rw [if_neg hpar] at hext
    rw [tStd_of_odd (m := m) (by simp [hm]), hhigh, hlow]
    refine Prod.ext (map_const_on_range fun i hi => ?_) (map_const_on_range fun i hi => ?_)
    · rw [lowPass_of_const fun j hj => hext j (by omega), wrap16_toInt]
    · rw [highPass_of_const fun j hj => hext j (by omega), hzero]

/-! ### A constant level (R128, R129) -/

/-- The columns of `k` equal rows are their entries, each `k` times. -/
theorem columns_replicate (k : Nat) (row : List HalfWord) :
    columns row.length (List.replicate k row) = row.map (List.replicate k) := by
  refine List.ext_getElem (by simp [columns]) fun i h1 h2 => ?_
  have hi : i < row.length := by simpa using h2
  simp [columns, column, hi]

theorem dwtLevel_replicate (t : Variant) {n : Nat} (hn : 3 ≤ n) (v : HalfWord) :
    dwtLevel t n (List.replicate n (List.replicate n v)) =
      { ll := List.replicate (lowCount n) (List.replicate (lowCount n) v)
        hl := List.replicate (lowCount n) (List.replicate (n - lowCount n) 0#16)
        lh := List.replicate (n - lowCount n) (List.replicate (lowCount n) 0#16)
        hh := List.replicate (n - lowCount n) (List.replicate (n - lowCount n) 0#16) } := by
  have hcount : lowCount n + (n - lowCount n) = n := by unfold lowCount; omega
  have hcols : columns n (List.replicate n (List.replicate n v)) = List.replicate n (List.replicate n v) := by
    have := columns_replicate n (List.replicate n v)
    rwa [List.length_replicate, List.map_replicate] at this
  have hvert : verticalPass t n (List.replicate n (List.replicate n v)) =
      List.replicate (lowCount n) (List.replicate n v) ++ List.replicate (n - lowCount n) (List.replicate n 0#16) := by
    have := columns_replicate n (List.replicate (lowCount n) v ++ List.replicate (n - lowCount n) 0#16)
    rw [List.length_append, List.length_replicate, List.length_replicate, hcount, List.map_append, List.map_replicate,
      List.map_replicate] at this
    rw [verticalPass, hcols, List.map_replicate, transform_replicate t hn]
    exact this
  rw [dwtLevel, horizontalPass, hvert]
  simp [transform_replicate t hn]

theorem levelOneInput_replicate (scale : Nat) (p : Byte) :
    levelOneInput scale (List.replicate 4096 p) =
      List.replicate 64 (List.replicate 64 (wrap16 (((p.toNat : Int) - 128) * scale))) := by
  refine map_const_on_range fun r hr => ?_
  have hmin : min 64 (4096 - r * 64) = 64 := by omega
  rw [List.drop_replicate, List.take_replicate, List.map_replicate, hmin]

/-- COEF of a constant block. -/
theorem dwtCoefs_replicate (t : Variant) (scale : Nat) (p : Byte) :
    dwtCoefs t scale (List.replicate 4096 p) =
      List.replicate 4015 0#16 ++ List.replicate 81 (wrap16 (((p.toNat : Int) - 128) * scale)) := by
  have h1 := dwtLevel_replicate t (n := 64) (by decide)
  have h2 := dwtLevel_replicate t (n := 33) (by decide)
  have h3 := dwtLevel_replicate t (n := 17) (by decide)
  have c1 : lowCount 64 = 33 := rfl
  have c2 : lowCount 33 = 17 := rfl
  have c3 : lowCount 17 = 9 := rfl
  simp only [dwtCoefs, levelOneInput_replicate, h1, h2, h3, c1, c2, c3, List.flatten_replicate_replicate,
    List.replicate_append_replicate]

/-- Settles O33: every level of a constant block is constant again, and its other subbands are 0. -/
theorem constantBlockHasOnlyItsMean : Obligations.ConstantBlockHasOnlyItsMean := by
  intro s p hwf hpix i hi
  have hread : readPix s = some (List.replicate 4096 p) :=
    (readPix_eq_some hwf _).mpr ⟨List.length_replicate, fun k hk => by
      rw [hpix k hk, List.getElem?_replicate, if_pos hk]⟩
  obtain ⟨v, hexec⟩ := exec_dwt_eq hi
  obtain ⟨t, ht, hcoef, -⟩ := runDwt_writes (v := v) hread
  rw [dwtCoefs_replicate] at hcoef
  refine ⟨t, (hexec s).trans ht, fun k hk => ?_, fun k hlow hk => ?_⟩
  · rw [hcoef k (by omega), List.getElem?_append_left (by rwa [List.length_replicate]),
      List.getElem?_replicate, if_pos hk]
  · rw [hcoef k hk, List.getElem?_append_right (by rwa [List.length_replicate]), List.length_replicate,
      List.getElem?_replicate, if_pos (by omega)]

end Sys2Proof.Machine

/-! Proofs: the vertical pass on rows of lanes stores what the scalar one stores (spec/40_dwt.md R128, R135, R136). -/

namespace Sys2Proof.Machine

/-! ### Registers of lanes (R127) -/

/-- The register that holds `f c` in lane `c`. -/
def lanesOf (w : Nat) (f : Nat → Int) : Lanes := (List.range w).map f

section
variable (w : Nat) (f g : Nat → Int)

@[simp] theorem laneAdd_lanesOf : laneAdd (lanesOf w f) (lanesOf w g) = lanesOf w fun c => f c + g c := by
  simp [laneAdd, lanesOf, List.zipWith_map, List.zipWith_self]

@[simp] theorem laneSub_lanesOf : laneSub (lanesOf w f) (lanesOf w g) = lanesOf w fun c => f c - g c := by
  simp [laneSub, lanesOf, List.zipWith_map, List.zipWith_self]

@[simp] theorem laneHalf_lanesOf : laneHalf (lanesOf w f) = lanesOf w fun c => f c / 2 := by
  simp only [laneHalf, lanesOf, List.map_map, Function.comp_def, shiftRight_one]

@[simp] theorem laneStore_lanesOf : laneStore (lanesOf w f) = (List.range w).map fun c => wrap16 (f c) := by
  simp [laneStore, lanesOf]

end

section
variable {w n : Nat} {x : Nat → Lanes} {f : Nat → Nat → Int}

/-- In every lane the vector high-pass value is R122's. -/
theorem laneHigh_lanesOf (h : ∀ i ≤ 2 * n + 2, x i = lanesOf w fun c => f c i) :
    laneHigh x n = lanesOf w fun c => highPass (f c) n := by
  rw [laneHigh, h (2 * n) (by omega), h (2 * n + 1) (by omega), h (2 * n + 2) (by omega)]
  simp [highPass_eq]

theorem laneLow_lanesOf (h : ∀ i ≤ 2 * n + 2, x i = lanesOf w fun c => f c i) :
    laneLow x (laneHigh x) n = lanesOf w fun c => lowPass (f c) (highPass (f c)) n := by
  have hcur := laneHigh_lanesOf h
  by_cases h0 : n = 0
  · subst h0
    rw [laneLow, if_pos rfl, h 0 (by omega), hcur]
    simp [lowPass_zero]
  · have hprev := laneHigh_lanesOf (n := n - 1) fun i hi => h i (by omega)
    rw [laneLow, if_neg h0, h (2 * n) (by omega), hcur, hprev]
    simp [lowPass_of_ne_zero _ _ h0]

/-- The extrapolated sample in every lane (R123, R124). -/
theorem laneExtrapolate_lanesOf (h1 : x (n - 1) = lanesOf w fun c => f c (n - 1))
    (h2 : x (n - 2) = lanesOf w fun c => f c (n - 2)) :
    laneExtrapolate x n = lanesOf w fun c => 2 * f c (n - 1) - f c (n - 2) := by
  rw [laneExtrapolate, h1, h2]
  simp [Int.two_mul]

end

/-! ### Rows of lanes and their columns (R128) -/

/-- `out` are rows of `w` lanes whose lane `c`, read downward, is `col c`: each row is one function of the lane. -/
def LaneRows (w : Nat) (out : List (List HalfWord)) (col : Nat → List HalfWord) : Prop :=
  ∃ fs : List (Nat → HalfWord), out = fs.map (fun f => (List.range w).map f) ∧ ∀ c, col c = fs.map fun f => f c

section
variable {w : Nat} {out out' : List (List HalfWord)} {col col' : Nat → List HalfWord}

theorem LaneRows.append (h : LaneRows w out col) (h' : LaneRows w out' col') :
    LaneRows w (out ++ out') (fun c => col c ++ col' c) := by
  obtain ⟨fs, rfl, hcol⟩ := h
  obtain ⟨fs', rfl, hcol'⟩ := h'
  exact ⟨fs ++ fs', by simp, fun c => by simp [hcol, hcol']⟩

theorem LaneRows.range {k : Nat} {G : Nat → Lanes} {F : Nat → Nat → Int}
    (h : ∀ i < k, G i = lanesOf w fun c => F c i) :
    LaneRows w ((List.range k).map fun i => laneStore (G i)) (fun c => (List.range k).map fun i => wrap16 (F c i)) := by
  refine ⟨(List.range k).map fun i c => wrap16 (F c i), ?_, fun c => by simp [Function.comp_def]⟩
  rw [List.map_map]
  exact List.map_congr_left fun i hi => by rw [h i (List.mem_range.mp hi), laneStore_lanesOf]; rfl

theorem LaneRows.single {G : Lanes} {F : Nat → Int} (h : G = lanesOf w F) :
    LaneRows w [laneStore G] (fun c => [wrap16 (F c)]) :=
  ⟨[fun c => wrap16 (F c)], by simp [h], fun _ => rfl⟩

theorem LaneRows.congr (h : LaneRows w out col) (hc : ∀ c, col' c = col c) : LaneRows w out col' := by
  obtain ⟨fs, hout, hcol⟩ := h
  exact ⟨fs, hout, fun c => (hc c).trans (hcol c)⟩

section
variable {k : Nat} {x : Nat → Lanes} {f : Nat → Nat → Int} (h : ∀ i ≤ 2 * k, x i = lanesOf w fun c => f c i)
include h

theorem LaneRows.lows : LaneRows w ((List.range k).map fun i => laneStore (laneLow x (laneHigh x) i))
    (fun c => (List.range k).map fun i => wrap16 (lowPass (f c) (highPass (f c)) i)) :=
  LaneRows.range fun i hi => laneLow_lanesOf fun j hj => h j (by omega)

theorem LaneRows.highs : LaneRows w ((List.range k).map fun i => laneStore (laneHigh x i))
    (fun c => (List.range k).map fun i => wrap16 (highPass (f c) i)) :=
  LaneRows.range fun i hi => laneHigh_lanesOf fun j hj => h j (by omega)

end

/-- Rows of lanes are the transposed list of their lanes. -/
theorem LaneRows.eq_columns {n : Nat} (h : LaneRows w out col) (hn : ∀ c, (col c).length = n) :
    out = columns n ((List.range w).map col) := by
  obtain ⟨fs, rfl, hcol⟩ := h
  have hlen : fs.length = n := by rw [← hn 0, hcol 0, List.length_map]
  refine List.ext_getElem (by simp [columns, hlen]) fun i h1 h2 => ?_
  have hi : i < fs.length := by simpa using h1
  simp [columns, column, hi, hcol, Function.comp_def]

end

/-! ### One group of lanes (R128, R135) -/

/-- A group of `w` columns of `n` samples, as the lanes see it. -/
structure LaneGroup (rows : List Lanes) (cols : Nat → List HalfWord) (w n : Nat) : Prop where
  length : rows.length = n
  row : ∀ i < n, rows.getD i [] = lanesOf w fun c => sampleAt (cols c) i
  column : ∀ c, (cols c).length = n

/-- The rows of R123 with the virtual samples below them, as `laneStd` builds them. -/
def extendedLanes (rows : List Lanes) : List Lanes :=
  let n := rows.length
  let base := if n % 2 = 0 then rows ++ [laneExtrapolate (fun i => rows.getD i []) n] else rows
  base ++ [base.getD (base.length - 2) [], base.getD (base.length - 3) []]

theorem extendedLanes_of_odd {rows : List Lanes} {m : Nat} (h : rows.length = 2 * m + 1) :
    extendedLanes rows = rows ++ [rows.getD (2 * m - 1) [], rows.getD (2 * m - 2) []] := by
  simp [extendedLanes, h]

theorem extendedLanes_of_even {rows : List Lanes} {m : Nat} (h : rows.length = 2 * m) (hm : 1 ≤ m) :
    extendedLanes rows = rows ++ [laneExtrapolate (fun i => rows.getD i []) (2 * m), rows.getD (2 * m - 1) [],
      rows.getD (2 * m - 2) []] := by
  have h1 : 2 * m - 1 < 2 * m := by omega
  have h2 : 2 * m - 2 < 2 * m := by omega
  simp [extendedLanes, h, h1, h2]

section
variable {rows : List Lanes} {cols : Nat → List HalfWord} {w m : Nat}

theorem extendedLanes_getD_of_odd (h : LaneGroup rows cols w (2 * m + 1)) (hm : 1 ≤ m) {i : Nat} (hi : i < 2 * m + 3) :
    (extendedLanes rows).getD i [] = lanesOf w fun c => extendedAt (cols c) i := by
  obtain ⟨hlen, hrow, hcol⟩ := h
  have hmirror := fun c => stdExtension_getD_of_odd (xs := (cols c).map BitVec.toInt) (m := m) (by simp [hcol])
  rw [extendedLanes_of_odd hlen]
  rcases Nat.lt_or_ge i (2 * m + 1) with hlt | hge
  · rw [List.getD_append _ _ _ _ (by omega), hrow i hlt]
    exact congrArg (lanesOf w) (funext fun c => (extendedAt_of_lt (by rwa [hcol])).symm)
  · rw [List.getD_append_right _ _ _ _ (by omega), hlen]
    obtain rfl | rfl : i = 2 * m + 1 ∨ i = 2 * m + 2 := by omega
    · rw [Nat.sub_self, List.getD_cons_zero, hrow _ (by omega)]
      exact congrArg (lanesOf w) (funext fun c => (hmirror c).1.symm)
    · rw [Nat.add_sub_add_left, List.getD_cons_succ, List.getD_cons_zero, hrow _ (by omega)]
      exact congrArg (lanesOf w) (funext fun c => (hmirror c).2.symm)

theorem extendedLanes_getD_of_even (h : LaneGroup rows cols w (2 * m)) (hm : 1 ≤ m) {i : Nat} (hi : i < 2 * m + 3) :
    (extendedLanes rows).getD i [] = lanesOf w fun c => extendedAt (cols c) i := by
  obtain ⟨hlen, hrow, hcol⟩ := h
  have hvirtual := fun c => stdExtension_getD_of_even (xs := (cols c).map BitVec.toInt) (m := m) (by simp [hcol]) hm
  rw [extendedLanes_of_even hlen hm]
  rcases Nat.lt_or_ge i (2 * m) with hlt | hge
  · rw [List.getD_append _ _ _ _ (by omega), hrow i hlt]
    exact congrArg (lanesOf w) (funext fun c => (extendedAt_of_lt (by rwa [hcol])).symm)
  · rw [List.getD_append_right _ _ _ _ (by omega), hlen]
    obtain rfl | rfl | rfl : i = 2 * m ∨ i = 2 * m + 1 ∨ i = 2 * m + 2 := by omega
    · rw [Nat.sub_self, List.getD_cons_zero, laneExtrapolate_lanesOf (hrow _ (by omega)) (hrow _ (by omega))]
      exact congrArg (lanesOf w) (funext fun c => (hvirtual c).1.symm)
    · rw [Nat.add_sub_cancel_left, List.getD_cons_succ, List.getD_cons_zero, hrow _ (by omega)]
      exact congrArg (lanesOf w) (funext fun c => (hvirtual c).2.1.symm)
    · rw [Nat.add_sub_cancel_left, List.getD_cons_succ, List.getD_cons_succ, List.getD_cons_zero, hrow _ (by omega)]
      exact congrArg (lanesOf w) (funext fun c => (hvirtual c).2.2.symm)

/-- `laneStd` on the extended rows, by its numbers of low-pass and high-pass rows. -/
theorem laneStd_eq {k l : Nat} (hk : ((extendedLanes rows).length - 3) / 2 + 1 = k)
    (hl : (if rows.length % 2 = 0 then ((extendedLanes rows).length - 3) / 2 - 1
      else ((extendedLanes rows).length - 3) / 2) = l) :
    laneStd rows =
      ((List.range k).map fun i => laneStore (laneLow (fun i => (extendedLanes rows).getD i [])
        (laneHigh fun i => (extendedLanes rows).getD i []) i)) ++
      (List.range l).map fun i => laneStore (laneHigh (fun i => (extendedLanes rows).getD i []) i) := by
  subst hk hl
  rfl

theorem laneStd_of_odd (h : LaneGroup rows cols w (2 * m + 1)) (hm : 1 ≤ m) :
    LaneRows w (laneStd rows) fun c => (tStd (cols c)).1 ++ (tStd (cols c)).2 := by
  have hx := fun i => extendedLanes_getD_of_odd h hm (i := i)
  obtain ⟨hlen, -, hcol⟩ := h
  have hext : (extendedLanes rows).length = 2 * m + 3 := by simp [extendedLanes_of_odd hlen, hlen]
  rw [laneStd_eq (k := m + 1) (l := m) (by omega) (by rw [hlen, hext, if_neg (by omega)]; omega)]
  refine ((LaneRows.lows fun i hi => hx i (by omega)).append
    (LaneRows.highs fun i hi => hx i (by omega))).congr fun c => ?_
  rw [tStd_of_odd (hcol c)]

theorem laneStd_of_even (h : LaneGroup rows cols w (2 * m)) (hm : 1 ≤ m) :
    LaneRows w (laneStd rows) fun c => (tStd (cols c)).1 ++ (tStd (cols c)).2 := by
  have hx := fun i => extendedLanes_getD_of_even h hm (i := i)
  obtain ⟨hlen, -, hcol⟩ := h
  have hext : (extendedLanes rows).length = 2 * m + 3 := by simp [extendedLanes_of_even hlen hm, hlen]
  rw [laneStd_eq (k := m + 1) (l := m - 1) (by omega) (by rw [hlen, hext, if_pos (by omega)]; omega)]
  refine ((LaneRows.lows fun i hi => hx i (by omega)).append
    (LaneRows.highs fun i hi => hx i (by omega))).congr fun c => ?_
  rw [tStd_of_even (hcol c)]

theorem laneRe_of_odd (h : LaneGroup rows cols w (2 * m + 1)) (hm : 1 ≤ m) :
    LaneRows w (laneRe rows) fun c => (tRe (cols c)).1 ++ (tRe (cols c)).2 := by
  obtain ⟨hlen, hx, hcol⟩ := h
  have hlast : laneAdd (rows.getD (2 * m) []) (laneHigh (fun i => rows.getD i []) (m - 1)) =
      lanesOf w fun c => sampleAt (cols c) (2 * m) + highPass (sampleAt (cols c)) (m - 1) := by
    rw [hx (2 * m) (by omega), laneHigh_lanesOf fun i hi => hx i (by omega), laneAdd_lanesOf]
  have hpar : (2 * m + 1) % 2 = 1 := by omega
  have hhalf : (2 * m + 1) / 2 = m := by omega
  simp only [laneRe, hlen, hpar, hhalf, if_true, Nat.add_sub_cancel]
  refine (((LaneRows.lows fun i hi => hx i (by omega)).append (.single hlast)).append
    (LaneRows.highs fun i hi => hx i (by omega))).congr fun c => ?_
  rw [tRe_of_odd (hcol c)]

theorem laneRe_of_even (h : LaneGroup rows cols w (2 * m)) (hm : 2 ≤ m) :
    LaneRows w (laneRe rows) fun c => (tRe (cols c)).1 ++ (tRe (cols c)).2 := by
  obtain ⟨hlen, hx, hcol⟩ := h
  have hprev : laneAdd (rows.getD (2 * m - 2) []) (laneHalf (laneHigh (fun i => rows.getD i []) (m - 2))) =
      lanesOf w fun c => sampleAt (cols c) (2 * m - 2) + highPass (sampleAt (cols c)) (m - 2) / 2 := by
    rw [hx (2 * m - 2) (by omega), laneHigh_lanesOf fun i hi => hx i (by omega), laneHalf_lanesOf, laneAdd_lanesOf]
  have hlast : laneExtrapolate (fun i => rows.getD i []) (2 * m) =
      lanesOf w fun c => 2 * sampleAt (cols c) (2 * m - 1) - sampleAt (cols c) (2 * m - 2) :=
    laneExtrapolate_lanesOf (hx _ (by omega)) (hx _ (by omega))
  have hpar : ¬ 2 * m % 2 = 1 := by omega
  have hhalf : 2 * m / 2 = m := by omega
  simp only [laneRe, hlen, hpar, hhalf, if_false]
  refine (((LaneRows.lows fun i hi => hx i (by omega)).append ((LaneRows.single hprev).append (.single hlast))).append
    (LaneRows.highs fun i hi => hx i (by omega))).congr fun c => ?_
  rw [tRe_of_even (hcol c)]
  rfl

end

/-- The scalar output of one column, low band above high band (R128). -/
def columnOutput (t : Variant) (xs : List HalfWord) : List HalfWord := (transform t xs).1 ++ (transform t xs).2

theorem columnOutput_length (t : Variant) {xs : List HalfWord} (h : 2 ≤ xs.length) :
    (columnOutput t xs).length = xs.length := by
  obtain ⟨hlow, hhigh⟩ := transform_length t xs h
  rw [columnOutput, List.length_append, hlow, hhigh, lowCount]
  omega

/-- One group of lanes computes its columns as the scalar pass does. -/
theorem laneTransform_eq (t : Variant) {rows : List Lanes} {cols : Nat → List HalfWord} {w n : Nat} (hn : 3 ≤ n)
    (h : LaneGroup rows cols w n) :
    laneTransform t rows = columns n ((List.range w).map fun c => columnOutput t (cols c)) := by
  have hrows : LaneRows w (laneTransform t rows) fun c => columnOutput t (cols c) := by
    rcases Nat.even_or_odd' n with ⟨m, rfl | rfl⟩
    · cases t with
      | std => exact laneStd_of_even h (by omega)
      | re => exact laneRe_of_even h (by omega)
    · cases t with
      | std => exact laneStd_of_odd h (by omega)
      | re => exact laneRe_of_odd h (by omega)
  refine hrows.eq_columns fun c => ?_
  rw [columnOutput_length t (by rw [h.column]; omega), h.column]

/-! ### All groups (R136) -/

/-- Rows 0 to n - 1 of the scalar output of `k` adjacent columns from column `c0` on. -/
def outputRows (t : Variant) (n : Nat) (a : List (List HalfWord)) (c0 k : Nat) : List (List HalfWord) :=
  columns n ((List.range' c0 k).map fun c => columnOutput t (column a c))

theorem outputRows_append (t : Variant) (n : Nat) (a : List (List HalfWord)) (c0 k l : Nat) :
    List.zipWith (· ++ ·) (outputRows t n a c0 k) (outputRows t n a (c0 + k) l) = outputRows t n a c0 (k + l) := by
  simp [outputRows, columns, column, List.zipWith_map, List.zipWith_self, ← List.range'_append_1]

theorem verticalPass_eq_outputRows (t : Variant) (n : Nat) (a : List (List HalfWord)) :
    verticalPass t n a = outputRows t n a 0 n := by
  simp [verticalPass, outputRows, columns, columnOutput, List.range_eq_range', Function.comp_def]

/-- The samples of `k` adjacent columns, as the lanes hold them. -/
theorem laneGroup_of_columns {n w : Nat} {a : List (List HalfWord)} (ha : a.length = n)
    (hrow : ∀ row ∈ a, row.length = n) {c0 lanes : Nat} (hw : w = min lanes (n - c0)) :
    LaneGroup (a.map fun row => ((row.drop c0).take lanes).map BitVec.toInt) (fun c => column a (c0 + c)) w n := by
  refine ⟨by simpa using ha, fun i hi => ?_, fun c => by simpa [column] using ha⟩
  have hi' : i < a.length := by omega
  have hlen := hrow a[i] (List.getElem_mem hi')
  refine List.ext_getElem (by simp [lanesOf, hi', hlen, hw]) fun c h1 h2 => ?_
  have hc : c < w := by simpa [lanesOf] using h2
  have hin : c0 + c < a[i].length := by omega
  simp [lanesOf, sampleAt, column, hi', hin]

section
variable {lanes n : Nat} (t : Variant) {a : List (List HalfWord)} (hn : 3 ≤ n) (ha : a.length = n)
  (hrow : ∀ row ∈ a, row.length = n)
include hn ha hrow

/-- What one group of the vector datapath stores. -/
theorem laneTransform_group (c0 : Nat) :
    laneTransform t (a.map fun row => ((row.drop c0).take lanes).map BitVec.toInt) =
      outputRows t n a c0 (min lanes (n - c0)) := by
  rw [laneTransform_eq t hn (laneGroup_of_columns ha hrow rfl), outputRows, List.range'_eq_map_range, List.map_map]
  rfl

/-- The groups from the `j`-th on store the columns from `j * lanes` on. -/
theorem groups_from (k j : Nat) (hk : n ≤ (j + k) * lanes) :
    (List.range' j k).foldr (fun j right => List.zipWith (· ++ ·) (laneTransform t
        (a.map fun row => ((row.drop (j * lanes)).take lanes).map BitVec.toInt)) right) (List.replicate n []) =
      outputRows t n a (j * lanes) (n - j * lanes) := by
  induction k generalizing j with
  | zero =>
    have hzero : n - j * lanes = 0 := Nat.sub_eq_zero_of_le hk
    have hempty : column [] = fun _ => [] := rfl
    simp [hzero, outputRows, columns, hempty]
  | succ k ih =>
    rw [List.range'_succ, List.foldr_cons, ih (j + 1) (by rwa [Nat.add_right_comm]), laneTransform_group t hn ha hrow,
      Nat.succ_mul]
    rcases Nat.le_total lanes (n - j * lanes) with hfull | hlast
    · have hrest : lanes + (n - (j * lanes + lanes)) = n - j * lanes := by omega
      rw [Nat.min_eq_left hfull, outputRows_append, hrest]
    · have hzero : n - (j * lanes + lanes) = 0 := by omega
      have hnone : ∀ c, outputRows t n a c 0 = outputRows t n a (j * lanes + (n - j * lanes)) 0 := fun _ => rfl
      rw [Nat.min_eq_right hlast, hzero, hnone, outputRows_append, Nat.add_zero]

theorem vectorVerticalPass_eq (hlanes : 0 < lanes) : vectorVerticalPass lanes t n a = verticalPass t n a := by
  have hgroups : n ≤ (0 + (n + lanes - 1) / lanes) * lanes := by
    have := Nat.lt_div_mul_add (a := n + lanes - 1) hlanes
    rw [Nat.zero_add]
    omega
  have hall := groups_from t hn ha hrow _ 0 hgroups
  rw [Nat.zero_mul, Nat.sub_zero] at hall
  rw [vectorVerticalPass, verticalPass_eq_outputRows, List.range_eq_range', hall]

end

/-- Settles O29: the scalar level is the scalar pass; the others compute it group by group, whatever the lane count. -/
theorem vectorDatapathMatchesScalar : Obligations.VectorDatapathMatchesScalar := by
  intro c lanes t n a hlanes hn ha hrow
  have hpass : vectorVerticalPass lanes t n a = verticalPass t n a :=
    vectorVerticalPass_eq t (by omega) ha hrow hlanes
  cases c with
  | scalar => rfl
  | level2 => exact hpass
  | level41 => exact hpass

end Sys2Proof.Machine

/-! Proofs: the quantizer and the differential encoder (spec/41_quant_diff.md R160 to R166). -/

namespace Sys2Proof.Machine

/-! ### Shifts and their ranges (R161) -/

/-- A right shift by `k` divides the bounds of a value by `2 ^ k`. -/
theorem shiftRight_mem {v lo hi : Int} {k : Nat} (hlo : lo * 2 ^ k ≤ v) (hhi : v < hi * 2 ^ k) :
    lo ≤ v >>> k ∧ v >>> k < hi := by
  have hpos : (0 : Int) < 2 ^ k := by positivity
  rw [Int.shiftRight_eq_div_pow]
  push_cast
  exact ⟨Int.le_ediv_of_mul_le hpos hlo, Int.ediv_lt_of_lt_mul hpos hhi⟩

theorem shiftRight_mem_floor (v : HalfWord) {k : Nat} (hk : k ≤ 15) :
    -(2 ^ (15 - k) : Int) ≤ v.toInt >>> k ∧ v.toInt >>> k < 2 ^ (15 - k) := by
  obtain ⟨hlow, hhigh⟩ := toInt_mem_int16 v
  have hpow : (2 : Int) ^ (15 - k) * 2 ^ k = 32768 := by rw [← pow_add, Nat.sub_add_cancel hk]; rfl
  exact shiftRight_mem (by rw [Int.neg_mul, hpow]; exact hlow) (by rw [hpow]; omega)

theorem quantize_floor_toInt (v : HalfWord) {k : Nat} (hk : k ≤ 15) :
    (quantize .floor v k).toInt = v.toInt >>> k := by
  obtain ⟨hlow, hhigh⟩ := shiftRight_mem_floor v hk
  have hpow : (2 : Int) ^ (15 - k) ≤ 32768 := by
    calc (2 : Int) ^ (15 - k) ≤ 2 ^ 15 := pow_le_pow_right₀ (by decide) (Nat.sub_le 15 k)
      _ = 32768 := rfl
  exact toInt_wrap16_of_int16 (by omega) (by omega)

/-- Half of the last place is at most 2^14, so a rounded sum shifted by at least one place is below 24576. -/
theorem shiftRight_mem_halfUp (v : HalfWord) {k : Nat} (h1 : 1 ≤ k) (hk : k ≤ 15) :
    v.toInt + 2 ^ (k - 1) ≤ 32767 + 16384 ∧ -32768 ≤ (v.toInt + 2 ^ (k - 1)) >>> k ∧
      (v.toInt + 2 ^ (k - 1)) >>> k ≤ 24575 := by
  obtain ⟨hlow, hhigh⟩ := toInt_mem_int16 v
  have hhalf : (2 : Int) ^ (k - 1) ≤ 16384 := by
    calc (2 : Int) ^ (k - 1) ≤ 2 ^ 14 := pow_le_pow_right₀ (by decide) (by omega)
      _ = 16384 := rfl
  have hpos : (0 : Int) < 2 ^ (k - 1) := by positivity
  have htwo : (2 : Int) ^ k = 2 * 2 ^ (k - 1) := by rw [← pow_succ', Nat.sub_add_cancel h1]
  obtain ⟨hlo, hhi⟩ := shiftRight_mem (v := v.toInt + 2 ^ (k - 1)) (lo := -32768) (hi := 24576) (k := k)
    (by omega) (by omega)
  exact ⟨by omega, hlo, by omega⟩

theorem quantize_halfUp_toInt (v : HalfWord) {k : Nat} (h1 : 1 ≤ k) (hk : k ≤ 15) :
    (quantize .halfUp v k).toInt = (v.toInt + 2 ^ (k - 1)) >>> k := by
  obtain ⟨-, hlow, hhigh⟩ := shiftRight_mem_halfUp v h1 hk
  have h0 : k ≠ 0 := by omega
  rw [quantize, if_neg h0]
  exact toInt_wrap16_of_int16 hlow (by omega)

/-- The re-application law (R161): two floors are one. -/
theorem quantize_floor_twice (v : HalfWord) {a b : Nat} (ha : a ≤ 15) (hb : b ≤ 15) :
    (quantize .floor (quantize .floor v a) b).toInt = v.toInt >>> (a + b) := by
  rw [quantize_floor_toInt _ hb, quantize_floor_toInt _ ha, Int.shiftRight_add]

/-- Settles O34. -/
theorem quantizeFollowsItsRounding : Obligations.QuantizeFollowsItsRounding := by
  refine ⟨fun v k hk => ?_, fun v a b ha hb => quantize_floor_twice v ha hb, by decide⟩
  obtain ⟨hlow, hhigh⟩ := shiftRight_mem_floor v hk
  rw [quantize_floor_toInt v hk]
  refine ⟨rfl, hlow, by omega, rfl, fun h1 => ?_⟩
  obtain ⟨hsum, -, hrounded⟩ := shiftRight_mem_halfUp v h1 hk
  rw [quantize_halfUp_toInt v h1 hk]
  exact ⟨rfl, hsum, hrounded⟩

/-! ### QUANT (R160, R163) -/

theorem quantizeAll_getElem? (s : State) (coefs : List HalfWord) (i : Nat) :
    (quantizeAll s coefs)[i]? =
      coefs[i]?.map fun v => quantize s.params.quantRounding v (shiftOf s (bandContaining i)) := by
  simp [quantizeAll, Function.comp_def]

/-- A written COEF is read whole (R42). -/
theorem readCoefs_of_coefWritten {s : State} {start n : Nat} (hwf : Memory.wf s.mem) (h : CoefWritten s start n) :
    ∃ vs, readCoefs s start n = some vs := by
  refine Option.ne_none_iff_exists'.mp fun hnone => ?_
  obtain ⟨k, hk, hclear⟩ := (readCoefs_eq_none hwf _ _).mp hnone
  simpa [hclear] using h k hk

theorem execQuant_of_coefs {s : State} {coefs : List HalfWord} (hlegal : shiftsLegal s = true)
    (hread : readCoefs s 0 4096 = some coefs) :
    execQuant s = .next (complete (writeCoefs s 0 (quantizeAll s coefs)) .ok) := by
  rcases execQuant_cases s with ⟨hillegal, -⟩ | ⟨-, hnone, -⟩ | ⟨coefs', -, hread', e⟩
  · simp [hlegal] at hillegal
  · cases hread.symm.trans hnone
  · obtain rfl := Option.some.inj (hread.symm.trans hread')
    exact e

/-- A QUANT with legal shifts that completes read all of COEF. -/
theorem execQuant_next {s t : State} (hlegal : shiftsLegal s = true) (h : execQuant s = .next t) :
    ∃ coefs, readCoefs s 0 4096 = some coefs ∧ t = complete (writeCoefs s 0 (quantizeAll s coefs)) .ok := by
  rcases execQuant_cases s with ⟨hillegal, -⟩ | ⟨-, -, e⟩ | ⟨coefs, -, hread, e⟩
  · simp [hlegal] at hillegal
  · simp [e] at h
  · exact ⟨coefs, hread, (Host.Outcome.next.inj (e.symm.trans h)).symm⟩

/-- What a QUANT with legal shifts leaves in every subband. -/
theorem coefAt_execQuant {s t : State} (hwf : Memory.wf s.mem) (hlegal : shiftsLegal s = true)
    (h : execQuant s = .next t) {b : Subband} {k : Nat} (hk : k < bandSize b) :
    coefAt t (bandOffset b + k) =
      (coefAt s (bandOffset b + k)).map fun v => quantize s.params.quantRounding v (shiftOf s b) := by
  obtain ⟨coefs, hread, rfl⟩ := execQuant_next hlegal h
  obtain ⟨hlen, hget⟩ := (readCoefs_eq_some hwf 0 4096 coefs).mp hread
  have hin : bandOffset b + k < 4096 := by
    have := band_in_coef b
    omega
  have hold := hget (bandOffset b + k) hin
  rw [Nat.zero_add] at hold
  refine (coefAt_writeCoefs_all s (by rw [quantizeAll_length, hlen]) hin).trans ?_
  rw [quantizeAll_getElem?, bandContaining_of_band hk, hold]

/-- Settles O36. -/
theorem quantShiftsEverySubband : Obligations.QuantShiftsEverySubband := by
  intro s hwf hshifts hwritten
  have hlegal := (shiftsLegal_iff s).mpr hshifts
  obtain ⟨coefs, hread⟩ := readCoefs_of_coefWritten hwf hwritten
  have hexec := execQuant_of_coefs hlegal hread
  exact ⟨_, hexec, rfl, rfl, rfl, fun b k hk => coefAt_execQuant hwf hlegal hexec hk⟩

/-- Fifteen places leave only the sign (R163). -/
theorem shiftRight_of_fifteen (v : HalfWord) {k : Nat} (hk : 15 ≤ k) :
    v.toInt >>> k = if 0 ≤ v.toInt then 0 else -1 := by
  obtain ⟨hlow, hhigh⟩ := toInt_mem_int16 v
  have hpow : (32768 : Int) ≤ 2 ^ k := by
    calc (32768 : Int) = 2 ^ 15 := rfl
      _ ≤ 2 ^ k := pow_le_pow_right₀ (by decide) hk
  split
  · next h0 =>
    have := shiftRight_mem (v := v.toInt) (lo := 0) (hi := 1) (k := k) (by omega) (by omega)
    omega
  · next h0 =>
    have := shiftRight_mem (v := v.toInt) (lo := -1) (hi := 0) (k := k) (by omega) (by omega)
    omega

/-- Settles O37: the second command quantizes what the first one left. -/
theorem repeatedQuantAddsTheShifts : Obligations.RepeatedQuantAddsTheShifts := by
  intro s t u shifts hwf hfloor ha hb hs ht b k v hk hv
  have hlegal := (shiftsLegal_iff s).mpr ha
  have hfirst := coefAt_execQuant hwf hlegal hs hk
  obtain ⟨coefs, -, rfl⟩ := execQuant_next hlegal hs
  have hsecond := coefAt_execQuant (s := { complete (writeCoefs s 0 (quantizeAll s coefs)) .ok with qshift := shifts })
    (wf_writeRun hwf _ _) ((shiftsLegal_iff _).mpr hb) ht hk
  change coefAt u _ = (coefAt (complete (writeCoefs s 0 (quantizeAll s coefs)) .ok) _).map _ at hsecond
  rw [hfirst, hv, Option.map_some, Option.map_some] at hsecond
  have hval : (quantize .floor (quantize .floor v (shiftOf s b)) (shiftOf { s with qshift := shifts } b)).toInt =
      v.toInt >>> (shiftOf s b + shiftOf { s with qshift := shifts } b) := quantize_floor_twice v (ha b) (hb b)
  rw [← hfloor] at hval
  exact ⟨_, hsecond, hval, fun h15 => hval.trans (shiftRight_of_fifteen v h15)⟩

/-! ### DIFF (R164 to R166) -/

/-- Sums and differences stored as int16 are those of the cells (R9). -/
theorem wrap16_add (x y : HalfWord) : wrap16 (x.toInt + y.toInt) = x + y := by
  rw [wrap16, BitVec.ofInt_add, BitVec.ofInt_toInt, BitVec.ofInt_toInt]

theorem wrap16_sub (x y : HalfWord) : wrap16 (x.toInt - y.toInt) = x - y := by
  rw [wrap16, Int.sub_eq_add_neg, BitVec.ofInt_add, BitVec.ofInt_neg, BitVec.ofInt_toInt, BitVec.ofInt_toInt,
    BitVec.sub_eq_add_neg]

theorem execDiff_of_coefs {s : State} {b : Subband} {old : List HalfWord}
    (hread : readCoefs s (bandOffset b) (bandSize b) = some old) :
    execDiff (quantIndex b) s = .next (complete (writeCoefs s (bandOffset b) (differences old)) .ok) := by
  rcases execDiff_cases (quantIndex b) s with ⟨hnone, -⟩ | ⟨b', hb', ⟨hnone, -⟩ | ⟨old', hread', e⟩⟩
  · simp [subbandOfIndex_quantIndex] at hnone
  · obtain rfl := Option.some.inj ((subbandOfIndex_quantIndex b).symm.trans hb')
    cases hread.symm.trans hnone
  · obtain rfl := Option.some.inj ((subbandOfIndex_quantIndex b).symm.trans hb')
    obtain rfl := Option.some.inj (hread.symm.trans hread')
    exact e

/-- A subband after its differences are stored. -/
theorem coefAt_writeCoefs_band {s : State} {b : Subband} {vs : List HalfWord} (hlen : vs.length = bandSize b) {k : Nat}
    (hk : k < bandSize b) : coefAt (writeCoefs s (bandOffset b) vs) (bandOffset b + k) = vs[k]? := by
  rw [coefAt_writeCoefs, if_pos (by omega), Nat.add_sub_cancel_left]

theorem differences_getElem?_zero (xs : List HalfWord) : (differences xs)[0]? = xs[0]? := by
  cases xs <;> rfl

theorem differences_getElem?_succ {xs : List HalfWord} {i : Nat} {x y : HalfWord} (hx : xs[i + 1]? = some x)
    (hy : xs[i]? = some y) : (differences xs)[i + 1]? = some (wrap16 (x.toInt - y.toInt)) := by
  cases xs with
  | nil => simp at hx
  | cons v rest =>
    rw [List.getElem?_cons_succ] at hx
    simp [differences, List.getElem?_zipWith, hx, hy]

/-- Settles O39. -/
theorem diffWritesTheDifferences : Obligations.DiffWritesTheDifferences := by
  intro s b hwf hwritten
  obtain ⟨old, hread⟩ := readCoefs_of_coefWritten hwf hwritten
  obtain ⟨hlen, hget⟩ := (readCoefs_eq_some hwf _ _ _).mp hread
  have hnew : ∀ k < bandSize b, coefAt (writeCoefs s (bandOffset b) (differences old)) (bandOffset b + k) =
      (differences old)[k]? := fun k hk => coefAt_writeCoefs_band (by rw [differences_length, hlen]) hk
  have hpos : 0 < bandSize b := by cases b <;> decide
  refine ⟨_, execDiff_of_coefs hread, rfl, rfl, rfl, ?_, fun i x y h1 hi hx hy => ?_⟩
  · exact (hnew 0 hpos).trans ((differences_getElem?_zero old).trans (hget 0 hpos).symm)
  · obtain ⟨k, rfl⟩ := Nat.exists_eq_add_of_le' h1
    refine (hnew _ hi).trans (differences_getElem?_succ ?_ ?_)
    · rw [← hget _ hi, hx]
    · rw [← hget _ (by omega)]
      exact hy

/-- Summing up the differences from `p` on gives the values again. -/
theorem foldl_differences (rest : List HalfWord) (p : HalfWord) (i : Nat) {v : HalfWord}
    (hv : (p :: rest)[i]? = some v) :
    ((List.zipWith (fun cur prev => wrap16 (cur.toInt - prev.toInt)) rest (p :: rest)).take i).foldl
      (fun acc d => wrap16 (acc.toInt + d.toInt)) p = v := by
  induction rest generalizing p i with
  | nil =>
    cases i with
    | zero => simpa using hv
    | succ i => simp at hv
  | cons x rest ih =>
    cases i with
    | zero => simpa using hv
    | succ i =>
      have hstep : wrap16 (p.toInt + (wrap16 (x.toInt - p.toInt)).toInt) = x := by
        rw [wrap16_add, wrap16_sub, BitVec.add_comm, BitVec.sub_add_cancel]
      rw [List.zipWith_cons_cons, List.take_succ_cons, List.foldl_cons, hstep]
      exact ih x i hv

/-- Settles O40. -/
theorem diffPrefixSumRestoresTheSubband : Obligations.DiffPrefixSumRestoresTheSubband := by
  intro s t b old hwf hread h
  obtain ⟨hlen, -⟩ := (readCoefs_eq_some hwf _ _ _).mp hread
  obtain rfl := Host.Outcome.next.inj ((execDiff_of_coefs hread).symm.trans h)
  have hdiff : (differences old).length = bandSize b := by rw [differences_length, hlen]
  refine ⟨differences old, ?_, fun i v hv => ?_⟩
  · exact (readCoefs_eq_some (wf_writeRun hwf _ _) _ _ _).mpr ⟨hdiff, fun k hk => coefAt_writeCoefs_band hdiff hk⟩
  · cases old with
    | nil => simp at hv
    | cons p rest =>
      have hfirst : wrap16 ((0#16).toInt + p.toInt) = p := by rw [wrap16_add, BitVec.zero_add]
      rw [differences, List.take_succ_cons, List.foldl_cons, hfirst, foldl_differences rest p i hv]

/-! ### The frame of QUANT and DIFF (R81) -/

/-- Settles O41: both store one run of COEF, or nothing. -/
theorem quantAndDiffFrame : Obligations.QuantAndDiffFrame := by
  constructor
  · intro s t h
    refine ⟨(exec_keeps_operands h).1, ?_⟩
    rcases execQuant_cases s with ⟨-, e⟩ | ⟨-, -, e⟩ | ⟨coefs, -, hread, e⟩
    · obtain rfl := Host.Outcome.next.inj (e.symm.trans h)
      exact ⟨rfl, rfl, rfl, rfl, fun _ _ => rfl⟩
    · cases e.symm.trans h
    · obtain rfl := Host.Outcome.next.inj (e.symm.trans h)
      refine ⟨rfl, rfl, rfl, rfl, fun x hx => lookup_writeCoefs_outside s 0 _ x ?_⟩
      rwa [quantizeAll_length, readCoefs_length hread]
  · intro s t sb h
    refine ⟨(exec_keeps_operands h).1, ?_⟩
    rcases execDiff_cases sb s with ⟨-, e⟩ | ⟨b, hb, ⟨-, e⟩ | ⟨old, hread, e⟩⟩
    · obtain rfl := Host.Outcome.next.inj (e.symm.trans h)
      exact ⟨rfl, rfl, rfl, rfl, fun _ => rfl, fun _ _ _ _ => rfl⟩
    · cases e.symm.trans h
    · obtain rfl := Host.Outcome.next.inj (e.symm.trans h)
      refine ⟨rfl, rfl, rfl, rfl, fun hnone => ?_, fun b' hb' x hx => lookup_writeCoefs_outside s _ _ x ?_⟩
      · cases hb.symm.trans hnone
      · obtain rfl := Option.some.inj (hb.symm.trans hb')
        rwa [differences_length, readCoefs_length hread]

end Sys2Proof.Machine

/-! Proofs: the passes of the RLGR coder, its codes and its adaptive state (spec/42_rlgr.md R185 to R195). -/

namespace Sys2Proof.Machine

/-! ### Bit strings of a given length (R189) -/

@[simp] theorem emitBits_length (n v : Nat) : (emitBits n v).length = n := by
  induction n with
  | zero => rfl
  | succ n ih => simp [emitBits, ih]

/-- A written field reads back as the value's low bits. -/
theorem bitsValue_emitBits (n v : Nat) : bitsValue (emitBits n v) = v % 2 ^ n := by
  induction n with
  | zero => simp [emitBits, bitsValue, Nat.mod_one]
  | succ n ih =>
    rw [emitBits, bitsValue, ih, emitBits_length, Nat.toNat_testBit, Nat.mod_pow_succ, Nat.add_comm, Nat.mul_comm]

theorem bitsValue_emitBits_of_lt {n v : Nat} (h : v < 2 ^ n) : bitsValue (emitBits n v) = v := by
  rw [bitsValue_emitBits, Nat.mod_eq_of_lt h]

/-! ### Golomb-Rice codes (R191) -/

theorem codeGrBits_length (p : Profile) (krp val : Nat) :
    (codeGrBits p krp val).length = val >>> riceParam p krp + 1 + riceParam p krp := by
  rw [codeGrBits, List.length_append, List.length_append, List.length_replicate, List.length_singleton, emitBits_length]

theorem codeGrBits_length_pos (p : Profile) (krp val : Nat) : 1 ≤ (codeGrBits p krp val).length := by
  rw [codeGrBits_length]
  exact Nat.le_add_right_of_le (Nat.le_add_left 1 _)

theorem decodeUnary_replicate (n : Nat) (rest : List Bool) :
    decodeUnary (List.replicate n true ++ false :: rest) = (n, rest) := by
  induction n with
  | zero => rfl
  | succ n ih => simp [List.replicate_succ, decodeUnary, ih]

theorem decodeGr_codeGrBits (p : Profile) (krp val : Nat) (rest : List Bool) :
    decodeGr p krp (codeGrBits p krp val ++ rest) = (val, rest) := by
  have hunary : decodeUnary (codeGrBits p krp val ++ rest) =
      (val >>> riceParam p krp, emitBits (riceParam p krp) (val % 2 ^ riceParam p krp) ++ rest) := by
    rw [codeGrBits, List.append_assoc, List.append_assoc, List.singleton_append, decodeUnary_replicate]
  have hlen := emitBits_length (riceParam p krp) (val % 2 ^ riceParam p krp)
  rw [decodeGr, hunary]
  refine Prod.ext ?_ (List.drop_left' hlen)
  change val >>> riceParam p krp * 2 ^ riceParam p krp + bitsValue (List.take _ (_ ++ rest)) = val
  rw [List.take_left' hlen, bitsValue_emitBits, Nat.mod_mod, Nat.shiftRight_eq_div_pow, Nat.div_add_mod']

/-- Settles O50. -/
theorem golombRiceCodeIsDecodable : Obligations.GolombRiceCodeIsDecodable := fun p krp val rest =>
  ⟨codeGrBits_length p krp val, decodeGr_codeGrBits p krp val rest⟩

/-! ### What a pass reads and emits (R192) -/

/-- The zero run splits the input at the value that ends it, which is 0 only as the last element (R193, R198). -/
theorem zeroRun_split {xs : List HalfWord} (h : xs ≠ []) :
    xs = List.replicate (zeroRun xs).1 0#16 ++ (zeroRun xs).2.1 :: (zeroRun xs).2.2 ∧
      ((zeroRun xs).2.1 = 0#16 → (zeroRun xs).2.2 = []) := by
  induction xs with
  | nil => exact absurd rfl h
  | cons v rest ih =>
    by_cases hzero : v = 0#16 ∧ rest ≠ []
    · obtain ⟨rfl, hrest⟩ := hzero
      obtain ⟨hsplit, hlast⟩ := ih hrest
      rw [zeroRun, if_pos ⟨rfl, hrest⟩]
      exact ⟨congrArg (0#16 :: ·) hsplit, hlast⟩
    · rw [zeroRun, if_neg hzero]
      refine ⟨rfl, fun hv => ?_⟩
      by_contra hrest
      exact hzero ⟨hv, hrest⟩

/-- Zeros, and then a value that is not 0 or is the last, are such a run. -/
theorem zeroRun_replicate (n : Nat) {v : HalfWord} {rest : List HalfWord} (h : v = 0#16 → rest = []) :
    zeroRun (List.replicate n 0#16 ++ v :: rest) = (n, v, rest) := by
  induction n with
  | zero =>
    have hend : ¬ (v = 0#16 ∧ rest ≠ []) := fun hzero => hzero.2 (h hzero.1)
    exact if_neg hend
  | succ n ih => simp [List.replicate_succ, zeroRun, ih]

theorem onePass_run {m : RlgrMode} {p : Profile} {st : Adaptive} (xs : List HalfWord) (h : runParam p st.kp ≠ 0) :
    onePass m p st xs = runMode p st xs := if_pos h

/-- The three kinds of a pass (R192). -/
theorem onePass_cases (m : RlgrMode) (p : Profile) (st : Adaptive) (xs : List HalfWord) :
    (runParam p st.kp ≠ 0 ∧ onePass m p st xs = runMode p st xs) ∨
      (runParam p st.kp = 0 ∧ m = .one ∧ onePass m p st xs = grModeOne p st xs) ∨
      (runParam p st.kp = 0 ∧ m = .three ∧ onePass m p st xs = grModeThree p st xs) := by
  unfold onePass
  by_cases h : runParam p st.kp = 0
  · cases m <;> simp [h]
  · simp [h]

theorem runMode_rest_length (p : Profile) (st : Adaptive) {xs : List HalfWord} (h : xs ≠ []) :
    (runMode p st xs).rest.length < xs.length := by
  obtain ⟨hsplit, -⟩ := zeroRun_split h
  have hlen := congrArg List.length hsplit
  rw [List.length_append, List.length_replicate, List.length_cons] at hlen
  change (zeroRun xs).2.2.length < xs.length
  omega

theorem onePass_rest_length (m : RlgrMode) (p : Profile) (st : Adaptive) {xs : List HalfWord} (h : xs ≠ []) :
    (onePass m p st xs).rest.length < xs.length := by
  rcases onePass_cases m p st xs with ⟨-, e⟩ | ⟨-, -, e⟩ | ⟨-, -, e⟩
  · rw [e]
    exact runMode_rest_length p st h
  · rw [e]
    match xs with
    | _ :: rest => simp [grModeOne, nextValue]
  · rw [e]
    match xs with
    | [_] => simp [grModeThree, nextValue]
    | _ :: _ :: rest => simp [grModeThree, nextValue]

/-- Every pass emits a Golomb-Rice code, which has at least its 0 bit. -/
theorem onePass_bits_length (m : RlgrMode) (p : Profile) (st : Adaptive) (xs : List HalfWord) :
    1 ≤ (onePass m p st xs).bits.length := by
  have hcode := codeGrBits_length_pos p st.krp
  rcases onePass_cases m p st xs with ⟨-, e⟩ | ⟨-, -, e⟩ | ⟨-, -, e⟩
  · rw [e, runMode, List.length_append]
    exact Nat.le_add_left_of_le (hcode _)
  · rw [e]
    exact hcode _
  · rw [e, grModeThree, List.length_append]
    exact Nat.le_add_right_of_le (hcode _)

theorem encodeLoop_cons (m : RlgrMode) (p : Profile) (fuel : Nat) (st : Adaptive) {xs : List HalfWord} (h : xs ≠ []) :
    encodeLoop m p (fuel + 1) st xs =
      (onePass m p st xs).bits ++ encodeLoop m p fuel (onePass m p st xs).adapt (onePass m p st xs).rest := by
  match xs with
  | _ :: _ => rfl

/-- Settles O48: every pass emits, and a stream has the bits of its first pass. -/
theorem everyPassReadsAndEmits : Obligations.EveryPassReadsAndEmits := by
  refine ⟨fun m p st xs h => ⟨onePass_rest_length m p st h, onePass_bits_length m p st xs⟩, fun m p xs h => ?_⟩
  have hpos : 0 < xs.length := List.length_pos_iff.mpr h
  obtain ⟨n, hn⟩ : ∃ n, xs.length = n + 1 := ⟨xs.length - 1, by omega⟩
  have hbits := onePass_bits_length m p (adaptiveStart p) xs
  rw [packBits_length, rlgrEncode, hn, encodeLoop_cons m p n _ h, List.length_append]
  omega

/-! ### The range of the adaptive state (R39, R182, R185) -/

theorem upd_le (p : Profile) (x : Nat) (d : Int) : upd p x d ≤ p.kpmax := Nat.min_le_left _ _

theorem codeGrUpdate_le {p : Profile} {krp : Nat} (val : Nat) (h : krp ≤ p.kpmax) :
    codeGrUpdate p krp val ≤ p.kpmax := by
  rw [codeGrUpdate]
  split
  · exact upd_le _ _ _
  · split
    · exact upd_le _ _ _
    · exact h

theorem onePass_adapt_le {m : RlgrMode} {p : Profile} {st : Adaptive} (xs : List HalfWord) (hkp : st.kp ≤ p.kpmax)
    (hkrp : st.krp ≤ p.kpmax) :
    (onePass m p st xs).adapt.kp ≤ p.kpmax ∧ (onePass m p st xs).adapt.krp ≤ p.kpmax := by
  rcases onePass_cases m p st xs with ⟨-, e⟩ | ⟨-, -, e⟩ | ⟨-, -, e⟩
  · rw [e]
    exact ⟨upd_le _ _ _, codeGrUpdate_le _ hkrp⟩
  · rw [e]
    refine ⟨?_, codeGrUpdate_le _ hkrp⟩
    simp only [grModeOne]
    split <;> exact upd_le _ _ _
  · rw [e]
    refine ⟨?_, codeGrUpdate_le _ hkrp⟩
    simp only [grModeThree]
    split
    · exact upd_le _ _ _
    · split
      · exact upd_le _ _ _
      · exact hkp

/-- What a legal profile keeps in range (R182). -/
theorem Profile.legal_bounds {p : Profile} (h : p.legal = true) :
    p.k0 <<< p.lsgr ≤ p.kpmax ∧ p.kr0 <<< p.lsgr ≤ p.kpmax ∧ p.kpmax >>> p.lsgr ≤ 15 := by
  simp only [Profile.legal, Bool.and_eq_true, decide_eq_true_eq] at h
  tauto

/-- Settles O49. -/
theorem adaptiveParametersStayInRange : Obligations.AdaptiveParametersStayInRange := by
  intro p hp
  obtain ⟨hk0, hkr0, hmax⟩ := Profile.legal_bounds hp
  refine ⟨⟨hk0, hkr0⟩, fun m st xs hkp hkrp => onePass_adapt_le xs hkp hkrp, fun x hx => ?_⟩
  have hshift : x >>> p.lsgr ≤ 15 := by
    rw [Nat.shiftRight_eq_div_pow] at hmax ⊢
    exact (Nat.div_le_div_right hx).trans hmax
  exact ⟨hshift, hshift⟩

/-! ### A trailing zero (R198) -/

/-- Run mode codes a last 0 as it codes a last 1: the same magnitude, less one, and the same sign. -/
theorem runMode_trailing_zero (p : Profile) (st : Adaptive) (n : Nat) :
    runMode p st (List.replicate n 0#16 ++ [0#16]) = runMode p st (List.replicate n 0#16 ++ [1#16]) := by
  simp only [runMode, zeroRun_replicate n (v := 0#16) (rest := []) fun _ => rfl,
    zeroRun_replicate n (v := 1#16) (rest := []) fun _ => rfl]
  rfl

/-- Settles O52. -/
theorem trailingZeroIsCodedAsOne : Obligations.TrailingZeroIsCodedAsOne := by
  intro m p st n fuel hrun
  rw [List.replicate_succ']
  cases fuel with
  | zero => rfl
  | succ fuel =>
    rw [encodeLoop_cons _ _ _ _ (by simp), encodeLoop_cons _ _ _ _ (by simp), onePass_run _ hrun, onePass_run _ hrun,
      runMode_trailing_zero]

end Sys2Proof.Machine

/-! Proofs: the reference decoder reads back what the coder wrote (spec/42_rlgr.md R198, R201). -/

namespace Sys2Proof.Machine

/-! ### The full runs of run mode (R193) -/

theorem fullRuns_of_le (p : Profile) (fuel : Nat) {nz kp : Nat} (h : 2 ^ runParam p kp ≤ nz) :
    fullRuns p (fuel + 1) nz kp =
      (false :: (fullRuns p fuel (nz - 2 ^ runParam p kp) (upd p kp p.upGr)).1,
        (fullRuns p fuel (nz - 2 ^ runParam p kp) (upd p kp p.upGr)).2) := if_pos h

theorem fullRuns_of_lt (p : Profile) (fuel : Nat) {nz kp : Nat} (h : nz < 2 ^ runParam p kp) :
    fullRuns p (fuel + 1) nz kp = ([], nz, kp) := if_neg (Nat.not_le.mpr h)

/-- The decoder counts the zeros that the full runs stand for, and follows kp. -/
theorem decodeFullRuns_fullRuns (p : Profile) (fuel nz kp : Nat) (tail : List Bool) :
    (fullRuns p fuel nz kp).2.1 ≤ nz ∧
      decodeFullRuns p ((fullRuns p fuel nz kp).1 ++ true :: tail) kp =
        (nz - (fullRuns p fuel nz kp).2.1, (fullRuns p fuel nz kp).2.2, tail) := by
  induction fuel generalizing nz kp with
  | zero => simp [fullRuns, decodeFullRuns]
  | succ fuel ih =>
    rcases Nat.lt_or_ge nz (2 ^ runParam p kp) with hlt | hle
    · rw [fullRuns_of_lt p fuel hlt]
      simp [decodeFullRuns]
    · obtain ⟨hleft, hdec⟩ := ih (nz - 2 ^ runParam p kp) (upd p kp p.upGr)
      rw [fullRuns_of_le p fuel hle]
      refine ⟨hleft.trans (Nat.sub_le _ _), ?_⟩
      rw [List.cons_append, decodeFullRuns, hdec]
      refine Prod.ext ?_ rfl
      change 2 ^ runParam p kp + (nz - 2 ^ runParam p kp - _) = nz - _
      rw [← Nat.add_sub_assoc hleft, Nat.add_sub_cancel' hle]

/-- The zeros left after the full runs fit the length field. -/
theorem fullRuns_left_lt (p : Profile) (fuel nz kp : Nat) (h : nz ≤ fuel) :
    (fullRuns p fuel nz kp).2.1 < 2 ^ runParam p (fullRuns p fuel nz kp).2.2 := by
  induction fuel generalizing nz kp with
  | zero => exact Nat.lt_of_le_of_lt h (Nat.two_pow_pos _)
  | succ fuel ih =>
    rcases Nat.lt_or_ge nz (2 ^ runParam p kp) with hlt | hle
    · rw [fullRuns_of_lt p fuel hlt]
      exact hlt
    · have hpos := Nat.two_pow_pos (runParam p kp)
      rw [fullRuns_of_le p fuel hle]
      exact ih _ _ (by omega)

/-! ### What the decoder makes of one pass (R198, R201) -/

/-- What the decoder gives for a part of the input whose last element run mode may have consumed: a last 0 is read as 1
there (R198). -/
def reread (run : Bool) (xs : List HalfWord) : List HalfWord :=
  if xs.getLast? = some 0#16 ∧ run = true then xs.dropLast ++ [1#16] else xs

theorem reread_false (xs : List HalfWord) : reread false xs = xs := by simp [reread]

theorem reread_append (run : Bool) (front : List HalfWord) {ys : List HalfWord} (h : ys ≠ []) :
    reread run (front ++ ys) = front ++ reread run ys := by
  unfold reread
  rw [List.getLast?_append_of_ne_nil front h, List.dropLast_append_of_ne_nil h]
  split <;> simp

theorem reread_replicate (n : Nat) (v : HalfWord) :
    reread true (List.replicate n 0#16 ++ [v]) = List.replicate n 0#16 ++ [if v = 0#16 then 1#16 else v] := by
  rw [reread_append true _ (by simp)]
  by_cases h : v = 0#16 <;> simp [reread, h]

/-- What the decoder must answer for a pass over `xs`: the elements the pass read, the state after it, and the bits that
follow it; where the input goes on, the elements read are read back exactly. -/
structure ReadsBack (run : Bool) (xs : List HalfWord) (pass : Pass) (dec : DecodePass) (tail : List Bool) : Prop where
  split : ∃ front, xs = front ++ pass.rest ∧ dec.values.take xs.length = reread run front ∧
    (pass.rest ≠ [] → reread run front = front)
  count : xs.length - dec.values.length = pass.rest.length
  adapt : dec.adapt = pass.adapt
  bits : dec.bits = tail

/-- The value that ends a run, from its magnitude less one and its sign (R193). -/
theorem runEnd_decoded (v : HalfWord) :
    (if decide (v.toInt < 0) = true then wrap16 (-(((v.toInt.natAbs - 1 : Nat) : Int) + 1))
      else wrap16 (((v.toInt.natAbs - 1 : Nat) : Int) + 1)) = if v = 0#16 then 1#16 else v := by
  by_cases hzero : v = 0#16
  · subst hzero
    rfl
  · have hne : v.toInt ≠ 0 := fun h => hzero (BitVec.eq_of_toInt_eq h)
    rw [if_neg hzero]
    split
    · next hneg =>
      have hneg := of_decide_eq_true hneg
      have hval : -(((v.toInt.natAbs - 1 : Nat) : Int) + 1) = v.toInt := by omega
      rw [hval, wrap16_toInt]
    · next hnonneg =>
      have hnonneg := of_decide_eq_false (Bool.eq_false_iff.mpr hnonneg)
      have hval : ((v.toInt.natAbs - 1 : Nat) : Int) + 1 = v.toInt := by omega
      rw [hval, wrap16_toInt]

/-- Run mode's bits, read back field by field. -/
theorem decodeRunMode_runMode (p : Profile) (st : Adaptive) (xs : List HalfWord) (tail : List Bool) :
    decodeRunMode p st ((runMode p st xs).bits ++ tail) =
      { values := List.replicate (zeroRun xs).1 0#16 ++ [if (zeroRun xs).2.1 = 0#16 then 1#16 else (zeroRun xs).2.1]
        adapt := (runMode p st xs).adapt
        bits := tail } := by
  have hend := runEnd_decoded (zeroRun xs).2.1
  have hcode := decodeGr_codeGrBits p st.krp ((zeroRun xs).2.1.toInt.natAbs - 1) tail
  rw [runMode]
  generalize (zeroRun xs).2.1.toInt.natAbs - 1 = val at hend hcode ⊢
  generalize decide ((zeroRun xs).2.1.toInt < 0) = sign at hend ⊢
  obtain ⟨hle, hfull⟩ := decodeFullRuns_fullRuns p (zeroRun xs).1 (zeroRun xs).1 st.kp
    (emitBits (runParam p (fullRuns p (zeroRun xs).1 (zeroRun xs).1 st.kp).2.2)
        (fullRuns p (zeroRun xs).1 (zeroRun xs).1 st.kp).2.1 ++ sign :: (codeGrBits p st.krp val ++ tail))
  have hleft := fullRuns_left_lt p (zeroRun xs).1 (zeroRun xs).1 st.kp (Nat.le_refl _)
  generalize fullRuns p (zeroRun xs).1 (zeroRun xs).1 st.kp = full at hle hfull hleft ⊢
  have hlen := emitBits_length (runParam p full.2.2) full.2.1
  have hbits : full.1 ++ [true] ++ emitBits (runParam p full.2.2) full.2.1 ++ [sign] ++ codeGrBits p st.krp val ++
      tail = full.1 ++ true :: (emitBits (runParam p full.2.2) full.2.1 ++
        sign :: (codeGrBits p st.krp val ++ tail)) := by simp
  have hnext : (emitBits (runParam p full.2.2) full.2.1 ++ sign :: (codeGrBits p st.krp val ++ tail)).drop
      (runParam p full.2.2 + 1) = codeGrBits p st.krp val ++ tail := by
    rw [List.drop_append, hlen, List.drop_eq_nil_of_le (by omega), Nat.add_sub_cancel_left]
    rfl
  simp only [hbits, decodeRunMode, hfull, List.take_left' hlen, List.drop_left' hlen, hnext, hcode, List.headD_cons,
    bitsValue_emitBits_of_lt hleft, Nat.sub_add_cancel hle, hend]

theorem readsBack_runMode (p : Profile) (st : Adaptive) {xs : List HalfWord} (h : xs ≠ []) (tail : List Bool) :
    ReadsBack true xs (runMode p st xs) (decodeRunMode p st ((runMode p st xs).bits ++ tail)) tail := by
  obtain ⟨hsplit, hlast⟩ := zeroRun_split h
  have hlen := congrArg List.length hsplit
  rw [List.length_append, List.length_replicate, List.length_cons] at hlen
  have hread := reread_replicate (zeroRun xs).1 (zeroRun xs).2.1
  rw [decodeRunMode_runMode]
  refine ⟨⟨List.replicate (zeroRun xs).1 0#16 ++ [(zeroRun xs).2.1], ?_, ?_, fun hrest => ?_⟩, ?_, rfl, rfl⟩
  · rw [List.append_assoc]
    exact hsplit
  · rw [hread, List.take_of_length_le]
    simp only [List.length_append, List.length_replicate, List.length_singleton]
    omega
  · rw [hread, if_neg fun hzero => hrest (hlast hzero)]
  · change xs.length - (List.replicate (zeroRun xs).1 0#16 ++ [_]).length = (zeroRun xs).2.2.length
    simp only [List.length_append, List.length_replicate, List.length_singleton]
    omega

theorem readsBack_grModeOne (p : Profile) (st : Adaptive) {xs : List HalfWord} (h : xs ≠ []) (tail : List Bool) :
    ReadsBack false xs (grModeOne p st xs) (decodeGrOne p st ((grModeOne p st xs).bits ++ tail)) tail := by
  match xs with
  | x :: rest =>
    have hdec : decodeGrOne p st ((grModeOne p st (x :: rest)).bits ++ tail) =
        { values := [x], adapt := (grModeOne p st (x :: rest)).adapt, bits := tail } := by
      simp only [decodeGrOne, grModeOne, nextValue, decodeGr_codeGrBits, unfoldSign_twoMs]
      rfl
    rw [hdec]
    exact ⟨⟨[x], rfl, by simp [reread_false], fun _ => reread_false _⟩, rfl, rfl, rfl⟩

theorem lt_two_pow_minBits (v : Nat) : v < 2 ^ minBits v := by
  by_cases h : v = 0
  · subst h
    decide
  · rw [minBits_of_ne_zero h]
    exact Nat.lt_log2_self

/-- GR mode of RLGR3 sends the sum and the first value; the second value is what is left of the sum (R195). -/
theorem decodeGrThree_grModeThree (p : Profile) (st : Adaptive) (xs : List HalfWord) (tail : List Bool) :
    decodeGrThree p st ((grModeThree p st xs).bits ++ tail) =
      { values := [(nextValue xs).1, (nextValue (nextValue xs).2).1]
        adapt := (grModeThree p st xs).adapt
        bits := tail } := by
  have hfold := unfoldSign_twoMs (nextValue xs).1
  have hfold' := unfoldSign_twoMs (nextValue (nextValue xs).2).1
  rw [grModeThree]
  generalize twoMs (nextValue xs).1 = t1 at hfold ⊢
  generalize twoMs (nextValue (nextValue xs).2).1 = t2 at hfold' ⊢
  have hfirst : t1 < 2 ^ minBits (t1 + t2) := Nat.lt_of_le_of_lt (Nat.le_add_right _ _) (lt_two_pow_minBits _)
  have hlen := emitBits_length (minBits (t1 + t2)) t1
  simp only [decodeGrThree, List.append_assoc, decodeGr_codeGrBits, List.take_left' hlen, List.drop_left' hlen,
    bitsValue_emitBits_of_lt hfirst, Nat.add_sub_cancel_left, hfold, hfold']

theorem readsBack_grModeThree (p : Profile) (st : Adaptive) {xs : List HalfWord} (h : xs ≠ []) (tail : List Bool) :
    ReadsBack false xs (grModeThree p st xs) (decodeGrThree p st ((grModeThree p st xs).bits ++ tail)) tail := by
  rw [decodeGrThree_grModeThree]
  match xs with
  | [x] => exact ⟨⟨[x], rfl, by simp [reread_false, nextValue], fun _ => reread_false _⟩, rfl, rfl, rfl⟩
  | x :: y :: rest => exact ⟨⟨[x, y], rfl, by simp [reread_false, nextValue], fun _ => reread_false _⟩, rfl, rfl, rfl⟩

/-- One pass of the decoder on the bits of one pass of the coder. -/
theorem readsBack_onePass (m : RlgrMode) (p : Profile) (st : Adaptive) {xs : List HalfWord} (h : xs ≠ [])
    (tail : List Bool) :
    ReadsBack (decide (runParam p st.kp ≠ 0)) xs (onePass m p st xs)
      (decodePass m p st ((onePass m p st xs).bits ++ tail)) tail := by
  rcases onePass_cases m p st xs with ⟨hrun, e⟩ | ⟨hgr, rfl, e⟩ | ⟨hgr, rfl, e⟩
  · have hpass : ∀ bits, decodePass m p st bits = decodeRunMode p st bits := fun _ => if_pos hrun
    rw [e, hpass, decide_eq_true hrun]
    exact readsBack_runMode p st h tail
  · rw [e, decodePass, if_neg (not_not.mpr hgr), decide_eq_false (not_not.mpr hgr)]
    exact readsBack_grModeOne p st h tail
  · rw [e, decodePass, if_neg (not_not.mpr hgr), decide_eq_false (not_not.mpr hgr)]
    exact readsBack_grModeThree p st h tail

/-! ### The whole stream (R198, R201) -/

theorem endsInRunFrom_cons (m : RlgrMode) (p : Profile) (fuel : Nat) (st : Adaptive) {xs : List HalfWord}
    (h : xs ≠ []) : endsInRunFrom m p (fuel + 1) st xs =
      if (onePass m p st xs).rest = [] then decide (runParam p st.kp ≠ 0)
      else endsInRunFrom m p fuel (onePass m p st xs).adapt (onePass m p st xs).rest := by
  match xs with
  | _ :: _ => rfl

theorem decodeLoop_succ (m : RlgrMode) (p : Profile) (fuel : Nat) {n : Nat} (st : Adaptive) (bits : List Bool)
    (h : n ≠ 0) :
    decodeLoop m p (fuel + 1) n st bits =
      (decodePass m p st bits).values.take n ++
        decodeLoop m p fuel (n - (decodePass m p st bits).values.length) (decodePass m p st bits).adapt
          (decodePass m p st bits).bits := by
  match n with
  | _ + 1 => rfl

theorem decodeLoop_zero (m : RlgrMode) (p : Profile) (fuel : Nat) (st : Adaptive) (bits : List Bool) :
    decodeLoop m p fuel 0 st bits = [] := by
  cases fuel <;> rfl

/-- The decoder's loop on the coder's loop, pass by pass. -/
theorem decodeLoop_encodeLoop (m : RlgrMode) (p : Profile) (fuel : Nat) (st : Adaptive) (xs : List HalfWord)
    (tail : List Bool) (hfuel : xs.length ≤ fuel) :
    decodeLoop m p fuel xs.length st (encodeLoop m p fuel st xs ++ tail) =
      reread (endsInRunFrom m p fuel st xs) xs := by
  induction fuel generalizing st xs with
  | zero =>
    obtain rfl := List.length_eq_zero_iff.mp (Nat.le_zero.mp hfuel)
    rfl
  | succ fuel ih =>
    by_cases h : xs = []
    · subst h
      rw [List.length_nil, decodeLoop_zero]
      rfl
    · have hshort := onePass_rest_length m p st h
      rw [encodeLoop_cons m p fuel st h, endsInRunFrom_cons m p fuel st h, List.append_assoc]
      obtain ⟨⟨front, hsplit, hvalues, hexact⟩, hcount, hadapt, hbits⟩ := readsBack_onePass m p st h
        (encodeLoop m p fuel (onePass m p st xs).adapt (onePass m p st xs).rest ++ tail)
      rw [decodeLoop_succ m p fuel st _ (List.length_pos_iff.mpr h).ne', hvalues, hcount, hadapt, hbits,
        ih _ _ (by omega)]
      by_cases hrest : (onePass m p st xs).rest = []
      · rw [if_pos hrest, hrest]
        rw [hrest, List.append_nil] at hsplit
        rw [← hsplit]
        simp [reread]
      · rw [if_neg hrest, hexact hrest]
        exact (reread_append _ front hrest).symm.trans (congrArg (reread _) hsplit.symm)

/-- Settles O51. -/
theorem decoderInvertsTheEncoder : Obligations.DecoderInvertsTheEncoder := fun m p xs rest =>
  decodeLoop_encodeLoop m p xs.length (adaptiveStart p) xs rest (Nat.le_refl _)

end Sys2Proof.Machine

/-! Proofs: what the commands read: unwritten storage faults, and an RLGR command depends on its operands only
(spec/20_memory.md R81, spec/60_exceptions.md R225, R227, spec/70_reset_and_hazards.md R262). -/

namespace Sys2Proof.Machine

/-! ### Unwritten storage (R42, R227) -/

theorem runDwt_of_unwritten (v : Variant) {s : State} (hwf : Memory.wf s.mem) {i : Nat} (hi : i < 4096)
    (hclear : pixAt s i = none) : runDwt v s = .fault .unwrittenRead := by
  have hnone : readPix s = none := (readPix_eq_none hwf).mpr ⟨i, hi, hclear⟩
  rcases runDwt_cases v s with ⟨-, e⟩ | ⟨pix, hpix, -⟩
  · exact e
  · cases hnone.symm.trans hpix

theorem execQuant_of_unwritten {s : State} (hlegal : shiftsLegal s = true) (hnone : readCoefs s 0 4096 = none) :
    execQuant s = .fault .unwrittenRead := by
  rcases execQuant_cases s with ⟨hillegal, -⟩ | ⟨-, -, e⟩ | ⟨coefs, -, hread, -⟩
  · simp [hlegal] at hillegal
  · exact e
  · cases hnone.symm.trans hread

theorem execDiff_of_unwritten {s : State} {b : Subband} (hnone : readCoefs s (bandOffset b) (bandSize b) = none) :
    execDiff (quantIndex b) s = .fault .unwrittenRead := by
  rcases execDiff_cases (quantIndex b) s with ⟨hno, -⟩ | ⟨b', hb', ⟨-, e⟩ | ⟨old, hread, -⟩⟩
  · cases (subbandOfIndex_quantIndex b).symm.trans hno
  · exact e
  · obtain rfl := Option.some.inj ((subbandOfIndex_quantIndex b).symm.trans hb')
    cases hnone.symm.trans hread

theorem runRlgr_of_unwritten (m : RlgrMode) (p : Profile) {s : State} (hlegal : rangeLegal s = true)
    (hnone : rlgrInput s = none) : runRlgr m p s = .fault .unwrittenRead := by
  rcases runRlgr_cases m p s with ⟨hillegal, -⟩ | ⟨-, -, e⟩ | ⟨xs, -, hread, -⟩
  · simp [hlegal] at hillegal
  · exact e
  · cases hnone.symm.trans hread

/-- Settles O54: each operand read answers nothing when one of its marks is clear, and the checks before it pass. -/
theorem unwrittenStorageFaultsTheCommand : Obligations.UnwrittenStorageFaultsTheCommand := by
  refine ⟨?dwt, ?quant, ?diff, ?rlgr, ?host⟩
  case dwt =>
    intro s hwf i hi hclear
    exact ⟨runDwt_of_unwritten .std hwf hi hclear, runDwt_of_unwritten .re hwf hi hclear⟩
  case quant =>
    intro s hwf hshifts i hi hclear
    exact execQuant_of_unwritten ((shiftsLegal_iff s).mpr hshifts)
      ((readCoefs_eq_none hwf 0 4096).mpr ⟨i, hi, by rwa [Nat.zero_add]⟩)
  case diff =>
    intro s b hwf k hk hclear
    exact execDiff_of_unwritten ((readCoefs_eq_none hwf _ _).mpr ⟨k, hk, hclear⟩)
  case rlgr =>
    intro s hwf hrange hcap k hk hclear
    have hlegal : rangeLegal s = true := (rangeLegal_iff s).mpr ⟨by omega, hrange, hcap⟩
    have hnone : rlgrInput s = none := (readCoefs_eq_none hwf _ _).mpr ⟨k, hk, hclear⟩
    exact ⟨runRlgr_of_unwritten .one _ hlegal hnone, runRlgr_of_unwritten .three _ hlegal hnone⟩
  case host =>
    intro s w a hwf hidle hal hin hclear
    obtain ⟨hf, hwin⟩ := accessFault_storage hidle hal hin true
    have hnone : readRun s.mem a.toNat (byteCount w) = none := (readRun_eq_none hwf _ _).mpr hclear
    simp [hostRead, hf, hwin, hnone]

/-! ### RLGR reads its operands only (R81) -/

/-- Every RLGR command runs one mode with one profile of the parameters. -/
theorem exec_rlgr_of_params {i : Instr} (h : i = .rlgr1 ∨ i = .rlgr3) :
    ∃ (m : RlgrMode) (prof : Params → Profile), ∀ s, exec i s = runRlgr m (prof s.params) s := by
  rcases h with rfl | rfl
  · exact ⟨.one, Params.rlgr1Profile, fun _ => rfl⟩
  · exact ⟨.three, Params.rlgr3Profile, fun _ => rfl⟩

/-- Two states with the same OUTCAP store the same stream with the same outcome (R197). -/
theorem storeStream_agree {s s' : State} (h : s'.outcap = s.outcap) (stream : List Byte) :
    (storeStream s' stream).err = (storeStream s stream).err ∧
      (storeStream s' stream).result = (storeStream s stream).result ∧
      ∀ j < s.outcap.toNat, outAt (storeStream s' stream) j = outAt (storeStream s stream) j := by
  rcases Nat.lt_or_ge s.outcap.toNat stream.length with hlong | hfits
  · have hlong' : s'.outcap.toNat < stream.length := by rwa [h]
    refine ⟨by rw [storeStream_of_lt hlong, storeStream_of_lt hlong']; rfl,
      by rw [storeStream_of_lt hlong, storeStream_of_lt hlong']; rfl, fun j hj => ?_⟩
    rw [outAt_storeStream_of_lt hlong hj, outAt_storeStream_of_lt hlong' (by rwa [h])]
  · have hfits' : stream.length ≤ s'.outcap.toNat := by rwa [h]
    refine ⟨by rw [storeStream_of_le hfits, storeStream_of_le hfits']; rfl,
      by rw [storeStream_of_le hfits, storeStream_of_le hfits']; rfl, fun j hj => ?_⟩
    rw [outAt_storeStream_of_le hfits hj, outAt_storeStream_of_le hfits' (by rwa [h])]

/-- The range's check reads the four operands of R200. -/
theorem rangeLegal_congr {s s' : State} (hparams : s'.params = s.params) (hstart : s'.rstart = s.rstart)
    (hcount : s'.rcount = s.rcount) (hcap : s'.outcap = s.outcap) : rangeLegal s' = rangeLegal s := by
  rw [rangeLegal, rangeLegal, hparams, hstart, hcount, hcap]

/-- The coder's input is the coefficients of the range. -/
theorem rlgrInput_congr {s s' : State} (hwf : Memory.wf s.mem) (hwf' : Memory.wf s'.mem)
    (hstart : s'.rstart = s.rstart) (hcount : s'.rcount = s.rcount)
    (hcoef : ∀ k < s.rcount.toNat, coefAt s' (s.rstart.toNat + k) = coefAt s (s.rstart.toNat + k))
    {xs : List HalfWord} (h : rlgrInput s = some xs) : rlgrInput s' = some xs := by
  obtain ⟨hlen, hget⟩ := (readCoefs_eq_some hwf _ _ _).mp h
  rw [rlgrInput, hstart, hcount]
  exact (readCoefs_eq_some hwf' _ _ _).mpr ⟨hlen, fun k hk => (hcoef k hk).trans (hget k hk)⟩

/-- Settles O56: the check, the input, and what is stored each depend on the shared operands only. -/
theorem rlgrReadsOnlyItsOperands : Obligations.RlgrReadsOnlyItsOperands := by
  intro i s s' t hi hwf hwf' hparams hstart hcount hcap hcoef h
  obtain ⟨m, prof, hexec⟩ := exec_rlgr_of_params hi
  have hlegal' : rangeLegal s' = rangeLegal s := rangeLegal_congr hparams hstart hcount hcap
  rw [hexec] at h
  rcases runRlgr_cases m (prof s.params) s with ⟨hlegal, e⟩ | ⟨-, -, e⟩ | ⟨xs, hlegal, hinput, e⟩
  · obtain rfl := Host.Outcome.next.inj (e.symm.trans h)
    exact ⟨_, (hexec s').trans (runRlgr_of_not_rangeLegal m _ (hlegal'.trans hlegal)), rfl, rfl,
      fun hvalid => absurd rfl hvalid⟩
  · cases e.symm.trans h
  · obtain rfl := Host.Outcome.next.inj (e.symm.trans h)
    have hinput' := rlgrInput_congr hwf hwf' hstart hcount hcoef hinput
    obtain ⟨herr, hresult, hout⟩ := storeStream_agree hcap (packBits (rlgrEncode m (prof s.params) xs))
    refine ⟨_, (hexec s').trans (runRlgr_of_input m _ (hlegal'.trans hlegal) hinput'), ?_⟩
    rw [hparams]
    exact ⟨herr, hresult, fun _ => hout⟩

/-! ### A retry with more room (R262) -/

/-- A stream that fits is stored whole (R197). -/
theorem storeStream_fits {s : State} {stream : List Byte} (h : stream.length ≤ s.outcap.toNat) :
    (storeStream s stream).err = .ok ∧ (storeStream s stream).result.toNat = stream.length ∧
      ∀ j < stream.length, outAt (storeStream s stream) j = stream[j]? := by
  have hend := storeStream_of_le h
  have hresult : (storeStream s stream).result = BitVec.ofNat 32 stream.length := congrArg State.result hend
  have hword : stream.length < 2 ^ 32 := Nat.lt_of_le_of_lt h s.outcap.isLt
  exact ⟨congrArg State.err hend, by rw [hresult, BitVec.toNat_ofNat, Nat.mod_eq_of_lt hword],
    fun j hj => outAt_storeStream_of_le h (Nat.lt_of_lt_of_le hj h)⟩

/-- A command that ends with CAPACITY_EXCEEDED has passed its check and coded its input. -/
theorem runRlgr_of_capacityExceeded {m : RlgrMode} {p : Profile} {s t : State} {xs : List HalfWord}
    (hinput : rlgrInput s = some xs) (h : runRlgr m p s = .next t) (herr : t.err = .capacityExceeded) :
    rangeLegal s = true ∧ t = storeStream s (packBits (rlgrEncode m p xs)) := by
  rcases runRlgr_cases m p s with ⟨-, e⟩ | ⟨-, -, e⟩ | ⟨ys, hlegal, hread, e⟩
  · obtain rfl := Host.Outcome.next.inj (e.symm.trans h)
    simp at herr
  · cases e.symm.trans h
  · obtain rfl := Option.some.inj (hinput.symm.trans hread)
    exact ⟨hlegal, (Host.Outcome.next.inj (e.symm.trans h)).symm⟩

/-- The second run codes what the first one coded: no RLGR command writes COEF. -/
theorem runRlgr_retry {m : RlgrMode} {p : Profile} {s t : State} {xs : List HalfWord} {cap : Word}
    (hwf : Memory.wf s.mem) (hinput : rlgrInput s = some xs) (hcap : cap.toNat ≤ s.params.outBytes)
    (h : runRlgr m p s = .next t) (herr : t.err = .capacityExceeded) :
    runRlgr m p { t with outcap := cap } =
      .next (storeStream { t with outcap := cap } (packBits (rlgrEncode m p xs))) := by
  obtain ⟨hlegal, ht⟩ := runRlgr_of_capacityExceeded hinput h herr
  obtain ⟨hcount, hrange, -⟩ := (rangeLegal_iff s).mp hlegal
  have hreach := runRlgr_writesOnly h
  obtain ⟨hparams, -, -, -, hstart', hcount', -, -⟩ := hreach.operandsSame
  have hwf' : Memory.wf t.mem := by
    rw [ht]
    exact wf_storeStream hwf _
  have hinput' : rlgrInput { t with outcap := cap } = some xs :=
    rlgrInput_congr (s' := { t with outcap := cap }) hwf hwf' hstart' hcount'
      (fun k hk => hreach.coefAt_eq (by omega)) hinput
  refine runRlgr_of_input m p ((rangeLegal_iff _).mpr ?_) hinput'
  change t.rcount.toNat ≠ 0 ∧ t.rstart.toNat + t.rcount.toNat ≤ 4096 ∧ cap.toNat ≤ t.params.outBytes
  rw [hparams, hstart', hcount']
  exact ⟨hcount, hrange, hcap⟩

/-- Settles O53. -/
theorem capacityRetryStoresTheStream : Obligations.CapacityRetryStoresTheStream := by
  intro s t xs cap hwf _ hinput hcap i m p himp h herr hfits
  obtain ⟨⟨hparams, -⟩, -⟩ := exec_keeps_operands h
  obtain ⟨hfirst, hsecond⟩ : exec i s = runRlgr m p s ∧
      exec i { t with outcap := cap } = runRlgr m p { t with outcap := cap } := by
    rcases himp with ⟨rfl, rfl, rfl⟩ | ⟨rfl, rfl, rfl⟩
    · exact ⟨rfl, by rw [exec_rlgr1]; exact congrArg (runRlgr .one · _) (congrArg Params.rlgr1Profile hparams)⟩
    · exact ⟨rfl, by rw [exec_rlgr3]; exact congrArg (runRlgr .three · _) (congrArg Params.rlgr3Profile hparams)⟩
  have hrun := runRlgr_retry hwf hinput hcap (hfirst.symm.trans h) herr
  obtain ⟨hok, hresult, hout⟩ := storeStream_fits (s := { t with outcap := cap }) hfits
  exact ⟨_, hsecond.trans hrun, hok, hresult, hout⟩

end Sys2Proof.Machine
